-- ==== Sys2Proof/Word.lean ====
section
/-! DEFINITION. The word types of the LZW codec core: a byte (a symbol, a byte of bus memory) and a 32-bit register word. -/

namespace Sys2Proof

/-- A byte of bus memory, and a symbol of the encoder (R11, R152). -/
abbrev Byte := BitVec 8

/-- A 32-bit register value or bus address (REG_W, ADDR_W and LEN_W of R8). -/
abbrev Word := BitVec 32

end Sys2Proof
end

