-- ==== Sys2Proof/Config.lean ====
section
/-! DEFINITION. What is fixed for one machine: the parameters of 00_scope.md R8, the platform's OPEN parameters as plain
data (R8, R82), and the free values the spec leaves open. -/

namespace Sys2Proof

/-- BITS_NUM (R8, R9). -/
abbrev Config.bitsNum : Nat := 12

/-- MAX_TABLE_SIZE = 2^BITS_NUM (R8). -/
abbrev Config.maxTableSize : Nat := 2 ^ Config.bitsNum

/-- SEED_COUNT: codes 0..255, one per byte value (R8). -/
abbrev Config.seedCount : Nat := 256

/-- CODE_BYTES: one code takes a 16-bit field (R8). -/
abbrev Config.codeBytes : Nat := 2

/-- ENC_MAX_CODE: the highest code the encoder assigns (R8, C1). -/
abbrev Config.encMaxCode : Nat := Config.maxTableSize

/-- DEC_DICT_CODES: the codes a 16-bit field can name (R8, D8). -/
abbrev Config.decDictCodes : Nat := 65536

/-- The bus memory space is 2^ADDR_W bytes (R72). -/
abbrev Config.addrSpace : Nat := 2 ^ 32

/-- The revision of the register layout, ID[31:16] (R23). -/
abbrev Config.layoutRevision : Nat := 1

/-- FREE VALUE. The byte that the n-th free draw gives: what another agent reads in the destination window while BUSY = 1,
what the engine reads from a source byte that was raced on, what any agent reads from memory whose contents are unspecified
(R86, I5). It has no body, so nothing can be proved of it (log 5, log 6). -/
opaque Config.freeByte : Nat → Byte

/-- A run of bus addresses: `len` of them from `base`. -/
structure Window where
  base : Nat
  len : Nat
  deriving DecidableEq, Repr

/-- The direction of a bus access, the second argument of bus_fault (R8). -/
inductive Direction where
  | read
  | write
  deriving DecidableEq, Repr

/-- The platform's OPEN parameters (R8, R82), as plain data so that every claim quantifies over them (log 7):
`base` is LZWC_BASE; `readFaults` and `writeFaults` list the addresses at which bus_fault holds in each direction (R73);
`devices` lists the addresses that are devices with side effects on reads or writes (R81). -/
structure Platform where
  base : Word
  readFaults : List Window
  writeFaults : List Window
  devices : List Window
  deriving DecidableEq, Repr

end Sys2Proof
end

