-- ==== Sys2Proof/Syntax.lean ====
section
/-! DEFINITION. The syntax of everything that reaches the block: the four commands (30_encoding.md R105), the register names
(10_state.md R21), the turns of the outside world and the engine, and the host script (R111, R112). -/

namespace Sys2Proof

/-- The four commands of R105, one constructor per row of spec/opcode_table.json. A command carries no operands (R101): its
operands are the registers (R108). -/
inductive Instr where
  /-- OP = 0 (R121). -/
  | nop
  /-- OP = 1 (R122). -/
  | encode
  /-- OP = 2 (R123). -/
  | decode
  /-- OP = 3 (R124). -/
  | abort
  deriving DecidableEq, Repr

/-- The fourteen registers, under the names of R21. -/
inductive RegName where
  | id
  | ctrl
  | cmd
  | status
  | errcode
  | errinfo
  | srcAddr
  | srcLen
  | dstAddr
  | dstCap
  | inPos
  | outLen
  | codeCount
  | dictNext
  deriving DecidableEq, Repr

/-- One move in an interleaving of the machine's agents (R20, R44, I18; log 1). Every turn is one atomic transition. -/
inductive Turn where
  /-- The engine takes its enabled step; it has none while BUSY = 0 (R130). -/
  | engine
  /-- The reset input is asserted (R240). `cut` is how many destination bytes of the engine's next step are on the bus by then: an
  operation cut off by reset may leave any prefix of its result (93_implementation_defined.md I8; log 17). -/
  | reset (cut : Nat)
  /-- A write transaction on the register port, `width` bits wide, at a bus address (R22, R71). -/
  | write (width : Nat) (addr : Word) (data : Word)
  /-- A read transaction on the register port (R22, R71). -/
  | read (width : Nat) (addr : Word)
  /-- POLL: read a register until `(value AND mask) = value` (R111). -/
  | poll (reg : RegName) (mask value : Word)
  /-- The host or another bus agent writes one byte of bus memory (R72). -/
  | memWrite (addr : Word) (v : Byte)
  /-- The host or another bus agent reads one byte of bus memory (R72). -/
  | memRead (addr : Word)
  /-- The platform's bus_fault answers become these (I16: they are answered per access). -/
  | busFaults (reads writes : List Window)
  deriving DecidableEq, Repr

/-- A line of a host script: the five lines of R111 and the pseudo-instructions of R112. -/
inductive HostLine where
  /-- `WR <REG>, <v>`. -/
  | wr (reg : RegName) (v : Word)
  /-- `RD <REG>`, with the expected value where the script gives one. -/
  | rd (reg : RegName) (expected : Option Word)
  /-- `POLL <REG>, <m>, <v>`. -/
  | poll (reg : RegName) (mask value : Word)
  /-- `MEM <a>: <b0> <b1> ...`. -/
  | mem (addr : Word) (bytes : List Byte)
  /-- `EXPECT MEM <a>: <b0> ...`: a claim, not a transaction. -/
  | expectMem (addr : Word) (bytes : List Byte)
  /-- `NOP`. -/
  | nop
  /-- `ABORT`. -/
  | abort
  /-- `ENCODE s, n, d, k`. -/
  | encode (s n d k : Word)
  /-- `DECODE s, n, d, k`. -/
  | decode (s n d k : Word)
  /-- `WAITDONE`. -/
  | waitDone
  /-- `CLEAR`. -/
  | clear
  /-- `CEIL on` and `CEIL off`; `ctrl` is the CTRL value that the script tracks. -/
  | ceil (on : Bool) (ctrl : Word)
  deriving DecidableEq, Repr

end Sys2Proof
end

