-- ==== Sys2Proof/WellFormed.lean ====
section
/-! DEFINITION. Well-formed terms of the syntax. A command has no fields, so every `Instr` is well formed; the checks with
content are those of host-script lines. -/

namespace Sys2Proof

/-- A command carries no operands (R101), so every one of the four is well formed. -/
def Instr.wf : Instr → Bool
  | .nop => true
  | .encode => true
  | .decode => true
  | .abort => true

/-- A run of `n` bytes at `a` lies inside the 2^32 bytes of bus memory (R72). -/
def fitsSpace (a : Word) (n : Nat) : Bool :=
  a.toNat + n ≤ Config.addrSpace

/-- What a host-script line must satisfy to mean what R111 says: a poll must be able to end, so its value has no bit outside
its mask; the bytes of a memory line exist. -/
def HostLine.wf : HostLine → Bool
  | .wr _ _ => true
  | .rd _ _ => true
  | .poll _ m v => v &&& m == v
  | .mem a bs => fitsSpace a bs.length
  | .expectMem a bs => fitsSpace a bs.length
  | .nop => true
  | .abort => true
  | .encode _ _ _ _ => true
  | .decode _ _ _ _ => true
  | .waitDone => true
  | .clear => true
  | .ceil _ _ => true

end Sys2Proof
end

