-- ==== Sys2Proof/Decode.lean ====
section
/-! DEFINITION. The two encoded formats of 30_encoding.md R100: the 32-bit command word (decoder, then encoder) and the packed
code (R102, R103). Both decoders are total. -/

namespace Sys2Proof

/-- OP, bits 3:0 of a command word (R101). -/
def opField (w : Word) : BitVec 4 := w.extractLsb' 0 4

/-- MBZ, bits 31:4 of a command word (R101). -/
def mbzField (w : Word) : BitVec 28 := w.extractLsb' 4 28

/-- Why a command word is illegal (R106). -/
inductive Reject where
  /-- MBZ is not zero. -/
  | mbzNotZero
  /-- OP is one of 4..15. -/
  | reservedOp (op : BitVec 4)
  deriving DecidableEq, Repr

/-- The OP values of R105. -/
def decodeOp (op : BitVec 4) : Except Reject Instr :=
  if op = 0 then .ok .nop
  else if op = 1 then .ok .encode
  else if op = 2 then .ok .decode
  else if op = 3 then .ok .abort
  else .error (.reservedOp op)

/-- The command a word stands for, or why it is illegal (R101, R105, R106). -/
def decode (w : Word) : Except Reject Instr :=
  if mbzField w = 0 then decodeOp (opField w) else .error .mbzNotZero

/-- The OP of a command (R105). -/
def opOf : Instr → BitVec 4
  | .nop => 0
  | .encode => 1
  | .decode => 2
  | .abort => 3

/-- The word of a command: MBZ = 0 above OP (R101). -/
def encode (i : Instr) : Word := (0 : BitVec 28) ++ opOf i

/-- The bytes of one packed code, high byte first (R102, R75). -/
def pack1 (c : Nat) : List Byte :=
  [(BitVec.ofNat 16 c).extractLsb' 8 8, (BitVec.ofNat 16 c).extractLsb' 0 8]

/-- A code sequence packed in order (R102). -/
def pack (cs : List Nat) : List Byte := cs.flatMap pack1

/-- The code `{hi, lo}` of two bytes (R103, R109). -/
def codeOf (hi lo : Byte) : Nat := (hi ++ lo : BitVec 16).toNat

/-- The codes of a byte string; a final odd byte is dropped without error (R103). -/
def unpack : List Byte → List Nat
  | hi :: lo :: rest => codeOf hi lo :: unpack rest
  | [_] => []
  | [] => []

/-- The command that the decoder reads from an instruction of `nbits` bits `w`, bit 0 the least significant bit of the command
word; bits above `nbits` are zero. The block's only instruction format is one 32-bit word (R100). -/
def decodeTableWord (nbits w : Nat) : Option Instr :=
  if nbits ≤ 32 then (decode (BitVec.ofNat 32 (w % 2 ^ nbits))).toOption else none

end Sys2Proof
end

