-- ==== Sys2Proof/Machine/State.lean ====
section
/-! DEFINITION. The state of the LZW codec core and of what it reaches (10_state.md), the reasons a step can stop, and the
state after reset (R50, R241). -/

namespace Sys2Proof.Machine

/-- STATUS.MODE: the mode of the last ENCODE or DECODE issued while idle (R27). -/
inductive Mode where
  | encode
  | decode
  deriving DecidableEq, Repr

/-- The causes of R211. Every other value of ERRCODE[7:0] is reserved and never produced (I13). -/
inductive Cause where
  /-- NONE: no error since the last issue or reset. -/
  | none
  /-- IO_READ: a source read got a bus error. -/
  | ioRead
  /-- IO_WRITE: a destination write got a bus error. -/
  | ioWrite
  /-- DST_FULL: the next code or string would pass DST_CAP. -/
  | dstFull
  /-- DEC_FIRST_CODE: the first code is 256 or more. -/
  | decFirstCode
  /-- DEC_UNKNOWN_CODE: a later code cannot be resolved. -/
  | decUnknownCode
  /-- CMD_ILLEGAL: reserved OP or non-zero MBZ. -/
  | cmdIllegal
  /-- CMD_BAD_RANGE: a window wraps, or the two windows overlap. -/
  | cmdBadRange
  /-- ABORTED: the host aborted. -/
  | aborted
  deriving DecidableEq, Repr

/-- A learned dictionary entry `(prefix, sym)` (R41, R42); `parent` is the rule's `prefix`, the code of the string that `sym`
extends. -/
structure Entry where
  parent : Nat
  sym : Byte
  deriving DecidableEq, Repr

/-- A dictionary memory, code to entry. An entry counts only when it is valid: its code is below DICT_NEXT (R41, R42). -/
abbrev Dict := List (Nat × Entry)

/-- Bus memory: the bytes that differ from what an unlisted address reads as, addresses strictly rising. -/
abbrev Memory := List Host.Cell

/-- What the last transaction of the host or of another bus agent was answered (R22; log 12). -/
inductive Response where
  /-- No transaction yet. -/
  | none
  /-- A register or memory write was taken by the port, whatever its effect. -/
  | written
  /-- The value of a register read. -/
  | data (w : Word)
  /-- The byte of a memory read. -/
  | byte (b : Byte)
  /-- A bus error response: the access was not an aligned 32-bit one (R22). -/
  | busError
  deriving DecidableEq, Repr

/-- Why the machine stops. Both reasons are ruled out in every reachable state by rules of the spec; a stop is safe. -/
inductive Fault where
  /-- An engine access names an address at or above 2^32, where there is no memory (R72). Raised by `memRead` and `memWrite`;
  R48 says that no address the engine forms wraps. Safe (log 13). -/
  | noAddress
  /-- A dictionary chain reaches a code that has no valid entry, whose string R52 does not define. Raised by the decoder's code
  step; R42 says that only valid entries are read. Safe (log 14). -/
  | noEntry
  deriving DecidableEq, Repr

/-- Why the model gives a turn no meaning. -/
inductive Refusal where
  /-- An instruction without a meaning; no arm of `exec` answers it. Safe. -/
  | notModelled (mnemonic : String)
  /-- ENCODE or DECODE was issued with a window on a device with side effects: "a model refuses such a launch" (R81, I6).
  Raised by `launch`. Safe (log 9). -/
  | deviceWindow
  /-- The host or another agent accesses a device, whose behaviour the spec does not give (R81). Raised by the memory turns.
  Safe (log 9). -/
  | deviceAccess
  /-- A register-port transaction outside the block's 0x100 bytes: "what they decode to is the platform's business" (R45, I17).
  Raised by the register turns. Safe (log 10). -/
  | outsideBlock
  deriving DecidableEq, Repr

/-- The machine. First the registers of R21 field by field, then the engine's internal state (R40), then the bus memory and the
platform, then the model's own fields (INVENTORY.md). Plain data throughout. -/
structure State where
  /-- CTRL[0] DEC_CEIL (R24). -/
  decCeil : Bool
  /-- CTRL[1] IRQ_EN (R24). -/
  irqEn : Bool
  /-- STATUS[0] BUSY (R27). -/
  busy : Bool
  /-- STATUS[1] DONE (R27). -/
  done : Bool
  /-- STATUS[2] ERR (R27). -/
  err : Bool
  /-- STATUS[3] IGN (R27). -/
  ign : Bool
  /-- STATUS[4] MODE (R27). -/
  mode : Mode
  /-- ERRCODE (R29): CAUSE; CLASS is a function of it (R212). -/
  cause : Cause
  /-- ERRINFO (R30). -/
  errInfo : Word
  /-- SRC_ADDR (R31). -/
  srcAddr : Word
  /-- SRC_LEN (R32). -/
  srcLen : Word
  /-- DST_ADDR (R33). -/
  dstAddr : Word
  /-- DST_CAP (R34). -/
  dstCap : Word
  /-- IN_POS (R36). -/
  inPos : Word
  /-- OUT_LEN (R37). -/
  outLen : Word
  /-- CODE_COUNT (R38). -/
  codeCount : Word
  /-- DICT_NEXT[16:0] (R39). -/
  dictNext : BitVec 17
  /-- e.cur: the encoder's current string as a code, or NONE (R40). -/
  cur : Option Nat
  /-- e.prev: the decoder's previous code, or NONE (R40). -/
  prev : Option Nat
  /-- ED, the encoder dictionary (R41). -/
  ed : Dict
  /-- DD, the decoder dictionary (R42). -/
  dd : Dict
  /-- Bus memory (R72). -/
  mem : Memory
  /-- The platform's parameters (R8, R82). -/
  platform : Platform
  /-- The moves to come, oldest first; when there is none the engine moves (log 1). -/
  turns : List Turn
  /-- The answer to the last transaction (log 12). -/
  resp : Response
  /-- Addresses of the two windows that another agent wrote during the running operation (R86; log 5). -/
  races : List Nat
  /-- Windows whose contents a race left unspecified (R86; log 5). -/
  unspec : List Window
  /-- How many free values have been drawn (log 6). -/
  freeCount : Nat
  deriving DecidableEq, Repr

/-- The state after reset: every register at the value of R50 and R241, the internal state at values that nothing reads (R242;
log 3), memory with nothing listed (log 2), the platform's parameters at defaults (log 7), no turn pending (log 1). -/
def State.reset : State where
  decCeil := false
  irqEn := false
  busy := false
  done := false
  err := false
  ign := false
  mode := .encode
  cause := .none
  errInfo := 0
  srcAddr := 0
  srcLen := 0
  dstAddr := 0
  dstCap := 0
  inPos := 0
  outLen := 0
  codeCount := 0
  dictNext := 0
  cur := none
  prev := none
  ed := []
  dd := []
  mem := []
  platform := ⟨0, [], [], []⟩
  turns := []
  resp := .none
  races := []
  unspec := []
  freeCount := 0

end Sys2Proof.Machine
end

