-- ==== Sys2Proof/Machine/Flags.lean ====
section
/-! DEFINITION. Every status, error and interrupt bit: how STATUS, CTRL and ERRCODE read as words, how STATUS bits are cleared,
how IGN is set, and the IRQ output (10_state.md R24, R27 to R29, R46; 60_exceptions.md R211, R212). -/

namespace Sys2Proof.Machine

/-- A flag as the bit at place `i` of a word. -/
def bitAt (b : Bool) (i : Nat) : Word := (BitVec.ofBool b).zeroExtend 32 <<< i

/-- MODE as a bit: 0 encode, 1 decode (R27). -/
def Mode.bit : Mode → Bool
  | .encode => false
  | .decode => true

/-- STATUS as it reads: BUSY, DONE, ERR, IGN, MODE in bits 0 to 4, zeros above (R27). -/
def statusWord (s : State) : Word :=
  bitAt s.busy 0 ||| bitAt s.done 1 ||| bitAt s.err 2 ||| bitAt s.ign 3 ||| bitAt s.mode.bit 4

/-- CTRL as it reads: DEC_CEIL and IRQ_EN in bits 0 and 1, zeros above (R24). -/
def ctrlWord (s : State) : Word := bitAt s.decCeil 0 ||| bitAt s.irqEn 1

/-- The CAUSE codes of R211. -/
def Cause.code : Cause → BitVec 8
  | .none => 0x00
  | .ioRead => 0x01
  | .ioWrite => 0x02
  | .dstFull => 0x03
  | .decFirstCode => 0x10
  | .decUnknownCode => 0x11
  | .cmdIllegal => 0x20
  | .cmdBadRange => 0x21
  | .aborted => 0x30

/-- CLASS as a function of CAUSE (R212): 0 none, 1 IOError, 2 DecodeError, 3 control. -/
def Cause.cls : Cause → BitVec 2
  | .none => 0
  | .ioRead => 1
  | .ioWrite => 1
  | .dstFull => 1
  | .decFirstCode => 2
  | .decUnknownCode => 2
  | .cmdIllegal => 3
  | .cmdBadRange => 3
  | .aborted => 3

/-- ERRCODE as it reads: CAUSE in bits 7:0, CLASS in bits 9:8, zeros above (R29). -/
def errCodeWord (c : Cause) : Word := (c.cls ++ c.code).zeroExtend 32

/-- A STATUS write of `w`: each 1 in bits 1 to 3 clears DONE, ERR, IGN; every other bit is ignored (R28). -/
def statusClear (w : Word) (s : State) : State :=
  { s with
    done := s.done && !w.getLsbD 1
    err := s.err && !w.getLsbD 2
    ign := s.ign && !w.getLsbD 3 }

/-- IGN records an ignored write (R35, R128, R225). -/
def setIgn (s : State) : State := { s with ign := true }

/-- The IRQ output, a level: CTRL.IRQ_EN AND STATUS.DONE (R46, R222). -/
def irq (s : State) : Bool := s.irqEn && s.done

end Sys2Proof.Machine
end

