-- ==== Sys2Proof/Machine/Ops.lean ====
section
/-! DEFINITION. The operations that meanings share: memory and dictionaries as sorted lists, the bus primitives MemRead and
MemWrite (20_memory.md R73), races (R86), issue, acceptance, rejection and the two completions (40_commands.md R125, R126;
60_exceptions.md R214), and reset (70_reset_and_hazards.md R240 to R243). -/

namespace Sys2Proof.Machine

/-! ### Data by key -/

/-- The value stored under a key. -/
def assocGet {α : Type} (k : Nat) : List (Nat × α) → Option α
  | [] => none
  | c :: r => if c.1 = k then some c.2 else assocGet k r

/-- Store a value under a key, keeping keys strictly rising. -/
def assocPut {α : Type} (k : Nat) (v : α) : List (Nat × α) → List (Nat × α)
  | [] => [(k, v)]
  | c :: r =>
    if k < c.1 then (k, v) :: c :: r
    else if c.1 = k then (k, v) :: r
    else c :: assocPut k v r

/-- Forget a key. -/
def assocDel {α : Type} (k : Nat) : List (Nat × α) → List (Nat × α)
  | [] => []
  | c :: r => if c.1 = k then assocDel k r else c :: assocDel k r

/-! ### Bus memory (R72) -/

/-- What a byte that nothing has written reads as: 0x00. DESIGN CHOICE, unsafe (log 2). -/
def Memory.unlisted : Byte := 0

/-- The byte at an address. -/
def Memory.read (m : Memory) (a : Nat) : Byte := (assocGet a m).getD Memory.unlisted

/-- Memory with one byte changed, in canonical form. -/
def Memory.write (a : Nat) (v : Byte) (m : Memory) : Memory :=
  if v = Memory.unlisted then assocDel a m else assocPut a v m

/-- The canonical form: addresses strictly rising and inside the 2^32 bytes of R72, no byte equal to what is unlisted. -/
abbrev Memory.wf (m : Memory) : Prop :=
  m.Pairwise (fun x y => x.1 < y.1) ∧ ∀ c ∈ m, c.1 < Config.addrSpace ∧ c.2 ≠ Memory.unlisted

/-! ### Dictionaries (R41, R42) -/

/-- The entry stored under a code. -/
def Dict.get? (d : Dict) (k : Nat) : Option Entry := assocGet k d

/-- A dictionary with the entry of one code written. -/
def Dict.put (d : Dict) (k : Nat) (e : Entry) : Dict := assocPut k e d

/-! ### Windows -/

/-- The address lies in the window. -/
def windowHas (w : Window) (a : Nat) : Bool := w.base ≤ a && a < w.base + w.len

/-- Two windows share a byte; an empty window shares none. -/
def windowMeets (v w : Window) : Bool :=
  0 < v.len && 0 < w.len && v.base < w.base + w.len && w.base < v.base + v.len

/-- The window without one address. -/
def windowCut (a : Nat) (w : Window) : List Window :=
  if windowHas w a then
    (if w.base < a then [⟨w.base, a - w.base⟩] else []) ++
      (if a + 1 < w.base + w.len then [⟨a + 1, w.base + w.len - (a + 1)⟩] else [])
  else [w]

/-- Some window of the list has the address. -/
def covers (ws : List Window) (a : Nat) : Bool := ws.any (fun w => windowHas w a)

/-- Some window of the list shares a byte with `v`. -/
def meetsAny (ws : List Window) (v : Window) : Bool := ws.any (fun w => windowMeets w v)

/-- The source window `[SRC_ADDR, SRC_ADDR + SRC_LEN)` (R72). -/
def srcWindow (s : State) : Window := ⟨s.srcAddr.toNat, s.srcLen.toNat⟩

/-- The destination window `[DST_ADDR, DST_ADDR + DST_CAP)` (R72). -/
def dstWindow (s : State) : Window := ⟨s.dstAddr.toNat, s.dstCap.toNat⟩

/-- bus_fault(addr, dir), the platform's parameter (R8, R73). -/
def busFault (p : Platform) (a : Nat) : Direction → Bool
  | .read => covers p.readFaults a
  | .write => covers p.writeFaults a

/-! ### Steps that may raise -/

/-- How a piece of an engine step ends: with a value; with `raise` of a cause and its ERRINFO (R12), the effects made before it
kept (R216); or where the model stops. -/
inductive Res (α : Type) where
  | ok (v : α) (s : State)
  | raise (c : Cause) (info : Word) (s : State)
  | stuck (f : Fault)

/-- Run one piece after another; a raise or a stop ends the step (R44). -/
def Res.bind {α β : Type} (r : Res α) (f : α → State → Res β) : Res β :=
  match r with
  | .ok v s => f v s
  | .raise c i s => .raise c i s
  | .stuck x => .stuck x

/-! ### The bus primitives (R73) -/

/-- Draw a free value. -/
def drawByte (s : State) : Byte × State :=
  (Config.freeByte s.freeCount, { s with freeCount := s.freeCount + 1 })

/-- `MemRead(a, 1)` of the engine: the byte at `a`, or IOError IO_READ when the bus answers with an error (R73). A byte that was
raced on or whose contents are unspecified reads as any value (R86; log 5). -/
def memRead (a : Nat) (info : Word) (s : State) : Res Byte :=
  if Config.addrSpace ≤ a then .stuck .noAddress
  else if busFault s.platform a .read then .raise .ioRead info s
  else if s.races.contains a || covers s.unspec a then .ok (drawByte s).1 (drawByte s).2
  else .ok (Memory.read s.mem a) s

/-- Put a byte on the bus memory; its contents are then specified again (R84). -/
def busStore (a : Nat) (v : Byte) (s : State) : State :=
  { s with mem := Memory.write a v s.mem, unspec := s.unspec.flatMap (windowCut a) }

/-- Put a run of bytes on the bus memory, from an address on. -/
def busStores : Nat → List Byte → State → State
  | _, [], s => s
  | a, b :: bs, s => busStores (a + 1) bs (busStore a b s)

/-- `MemWrite(a, 1, v)` of the engine: the byte at `a` becomes `v`, or IOError IO_WRITE and no byte changes (R73). -/
def memWrite (a : Nat) (info : Word) (v : Byte) (s : State) : Res Unit :=
  if Config.addrSpace ≤ a then .stuck .noAddress
  else if busFault s.platform a .write then .raise .ioWrite info s
  else .ok () (busStore a v s)

/-- Write bytes at DST_ADDR + OUT_LEN, each followed by OUT_LEN + 1: the writing part of emit_code (R157) and of put_string
(R188). A fault leaves the earlier bytes written and OUT_LEN at the faulting offset. -/
def putBytes : List Byte → State → Res Unit
  | [], s => .ok () s
  | b :: bs, s =>
    (memWrite (s.dstAddr.toNat + s.outLen.toNat) s.outLen b s).bind fun _ s1 =>
      putBytes bs { s1 with outLen := s1.outLen + 1 }

/-! ### Races (R86; log 5) -/

/-- At the end of an operation that was raced on, the destination window's contents are unspecified: "makes the result
unspecified", "makes its final contents unspecified" (R86). -/
def endRaces (s : State) : State :=
  { s with
    unspec := if s.races.isEmpty then s.unspec else dstWindow s :: s.unspec
    races := [] }

/-- Another agent writes a bus byte; while BUSY = 1 a write to either window is a race (R86). -/
def agentStore (a : Nat) (v : Byte) (s : State) : State :=
  { busStore a v s with
    races := if s.busy && (windowHas (srcWindow s) a || windowHas (dstWindow s) a) then a :: s.races else s.races
    resp := .written }

/-- Another agent reads a bus byte: any value in the destination window while BUSY = 1, or where the contents are unspecified
(R86); else the byte (R84). -/
def agentLoad (a : Nat) (s : State) : State :=
  if s.busy && windowHas (dstWindow s) a || covers s.unspec a then
    { (drawByte s).2 with resp := .byte (drawByte s).1 }
  else { s with resp := .byte (Memory.read s.mem a) }

/-! ### Completion, rejection, issue, acceptance -/

/-- complete_ok (R214). e.cur, e.prev, ED and DD keep their last values, where 93_implementation_defined.md I7 leaves them
unspecified and unobservable. DESIGN CHOICE (log 3). -/
def completeOk (s : State) : State := { endRaces s with busy := false, done := true }

/-- The completion with error that every `raise` and every ABORT takes, this block's exception entry (R214): the cause and its
detail are recorded, BUSY falls, DONE and ERR rise; the progress counters keep their values and control goes nowhere (R210).
e.cur, e.prev, ED and DD become dead (R214) and keep their last values, which I7 leaves unspecified. DESIGN CHOICE (log 3). -/
def completeError (c : Cause) (info : Word) (s : State) : State :=
  { endRaces s with cause := c, errInfo := info, busy := false, done := true, err := true }

/-- reject (R125): the same record for a command that never became busy. -/
def reject (c : Cause) (info : Word) (s : State) : State :=
  { s with cause := c, errInfo := info, done := true, err := true }

/-- clear_for_issue (R126). IGN is not cleared. With it the previous error is left behind: the only way back from a completion
beside a STATUS write (R220). -/
def clearForIssue (s : State) : State :=
  { s with
    done := false
    err := false
    cause := .none
    errInfo := 0
    inPos := 0
    outLen := 0
    codeCount := 0
    dictNext := 0 }

/-- encoder_init: e.cur <- NONE; no entry is valid, because DICT_NEXT = 256 (R151). -/
def encoderInit (s : State) : State := { s with cur := none }

/-- decoder_init: e.prev <- NONE; no entry is valid, because DICT_NEXT = 256 (R181). -/
def decoderInit (s : State) : State := { s with prev := none }

/-- accept (R126): DICT_NEXT <- 256, BUSY <- 1, and the unit's own initialisation. An operation starts unraced (log 5). -/
def accept (m : Mode) (s : State) : State :=
  let s1 := { s with dictNext := 256, busy := true, races := [] }
  match m with
  | .encode => encoderInit s1
  | .decode => decoderInit s1

/-- A write that BUSY = 1 makes ignored: the register keeps its value and IGN is set (R35, R128). -/
def whenIdle (s s' : State) : State := if s.busy then setIgn s else s'

/-- Reset as one atomic transition (R240): every register and the internal state at reset's values (R241, R242); bus memory,
the platform and what is to come are outside the block. A running operation is abandoned: no completion, its bytes stay
(R243); bytes of its next step come from `cutStep` (log 17). -/
def resetBlock (s : State) : State :=
  { State.reset with
    mem := s.mem
    unspec := (endRaces s).unspec
    platform := s.platform
    turns := s.turns
    resp := s.resp
    freeCount := s.freeCount }

end Sys2Proof.Machine
end

