-- ==== Sys2Proof/Machine/Operands.lean ====
section
/-! DEFINITION. Every operand form: the launch operands and their check (30_encoding.md R108, 40_commands.md R127), the symbol
operand of the encoder and the code operand of the decoder (R109), the strings that codes stand for (10_state.md R51, R52), and
the byte lanes of a register word (20_memory.md R76). -/

namespace Sys2Proof.Machine

/-! ### The launch operands -/

/-- The range check at issue over unbounded naturals: bit 0 the source window wraps, bit 1 the destination window wraps, bit 2
the windows overlap (R127). -/
def rangeCheck (s : State) : BitVec 3 :=
  let src := s.srcAddr.toNat
  let srcLen := s.srcLen.toNat
  let dst := s.dstAddr.toNat
  let cap := s.dstCap.toNat
  BitVec.ofBool (decide (0 < srcLen ∧ 0 < cap ∧ src < dst + cap ∧ dst < src + srcLen)) ++
    BitVec.ofBool (decide (dst + cap > Config.addrSpace)) ++
    BitVec.ofBool (decide (src + srcLen > Config.addrSpace))

/-- A window of the launch lies on a device with side effects (R81). The block's own register space is none of the devices: its
0x100 addresses name bytes of bus memory too. DESIGN CHOICE (log 23). -/
def onDevice (s : State) : Bool :=
  meetsAny s.platform.devices (srcWindow s) || meetsAny s.platform.devices (dstWindow s)

/-! ### The engine's operands -/

/-- The bus address of the source byte at an offset. -/
def srcByteAddr (s : State) (off : Nat) : Nat := s.srcAddr.toNat + off

/-- A symbol: the byte at SRC_ADDR + IN_POS, and IN_POS + 1; on a bus error IO_READ with the offset, IN_POS unchanged
(R154, R190). -/
def readSymbol (s : State) : Res Byte :=
  (memRead (srcByteAddr s s.inPos.toNat) s.inPos s).bind fun b s1 =>
    .ok b { s1 with inPos := s1.inPos + 1 }

/-- A code: two symbols in order, high byte first; nothing is sign-extended (R109, R182). -/
def readCode (s : State) : Res Nat :=
  (readSymbol s).bind fun hi s1 =>
    (readSymbol s1).bind fun lo s2 =>
      .ok (codeOf hi lo) s2

/-! ### The strings of codes -/

/-- A byte string of length at least 1, its first byte apart (R11, R52). -/
structure Str where
  first : Byte
  rest : List Byte
  deriving DecidableEq, Repr

/-- The string's bytes. -/
def Str.bytes (t : Str) : List Byte := t.first :: t.rest

/-- The string with a byte after it. -/
def Str.snoc (t : Str) (b : Byte) : Str := ⟨t.first, t.rest ++ [b]⟩

/-- The chain of R51 and R52 with a bound on its depth: a seed is its byte; a valid learned code is its parent's string and its
own byte. An entry that is not valid has no string. -/
def Dict.strFuel (d : Dict) (next : Nat) : Nat → Nat → Option Str
  | 0, _ => none
  | n + 1, k =>
    if k < Config.seedCount then some ⟨BitVec.ofNat 8 k, []⟩
    else if k < next then
      match d.get? k with
      | some e => (Dict.strFuel d next n e.parent).map (fun t => t.snoc e.sym)
      | none => none
    else none

/-- str_E(k) over ED, str_D(k) over DD (R51, R52). Parents are below their codes, so a chain from `k` is never deeper than
`k + 1`. -/
def Dict.str (d : Dict) (next k : Nat) : Option Str := d.strFuel next (k + 1) k

/-! ### Byte lanes of a register word -/

/-- The lanes of a word on a bus with byte lanes, lowest address first: little-endian (R76). -/
def lanesOfWord (w : Word) : List Byte :=
  [w.extractLsb' 0 8, w.extractLsb' 8 8, w.extractLsb' 16 8, w.extractLsb' 24 8]

/-- The word of four lanes, lowest address first (R76). -/
def wordOfLanes (b0 b1 b2 b3 : Byte) : Word := b3 ++ b2 ++ b1 ++ b0

end Sys2Proof.Machine
end

