-- ==== Sys2Proof/Machine/Commands.lean ====
section
/-! DEFINITION. The meanings of the four commands and of an illegal command word: the procedure of a CMD write, arm by arm
(40_commands.md R120 to R128). -/

namespace Sys2Proof.Machine

/-- Issue, check and acceptance of ENCODE or DECODE (R120): ignored with IGN while BUSY = 1 (R128); else cleared for issue, MODE
written, and rejected with the range bits (R127), refused on a device (R81), or accepted (R126). -/
def launch (m : Mode) (s : State) : Host.Outcome State Fault Refusal :=
  if s.busy then .next (setIgn s)
  else
    let s1 := { clearForIssue s with mode := m }
    if rangeCheck s1 ≠ 0 then .next (reject .cmdBadRange ((rangeCheck s1).zeroExtend 32) s1)
    else if onDevice s1 then .refused .deviceWindow
    else .next (accept m s1)

/-- NOP: nothing, busy or idle (R121). -/
def execNop (s : State) : Host.Outcome State Fault Refusal := .next s

/-- ENCODE (R122). -/
def execEncode (s : State) : Host.Outcome State Fault Refusal := launch .encode s

/-- DECODE (R123). -/
def execDecode (s : State) : Host.Outcome State Fault Refusal := launch .decode s

/-- ABORT: while BUSY = 1 the completion with cause ABORTED; while idle nothing (R124). -/
def execAbort (s : State) : Host.Outcome State Fault Refusal :=
  .next (if s.busy then completeError .aborted 0 s else s)

/-- An illegal command word: ignored with IGN while BUSY = 1 (R128), rejected with CMD_ILLEGAL and the word while idle; MODE is
not written (R125). -/
def execIllegal (w : Word) (s : State) : Host.Outcome State Fault Refusal :=
  .next (if s.busy then setIgn s else reject .cmdIllegal w (clearForIssue s))

end Sys2Proof.Machine
end

