-- ==== Sys2Proof/Machine/Decoder.lean ====
section
/-! DEFINITION. The decoder unit (42_decoder.md): resolution of a code, growth with the ceiling toggle, string output, and the
code, tail and end steps. -/

namespace Sys2Proof.Machine

/-- add_ok_D: the encoder's inclusive ceiling when DEC_CEIL = 1, else the 16-bit code space (R187). -/
def addOkD (decCeil : Bool) (next : Nat) : Bool :=
  if decCeil then next ≤ Config.maxTableSize else next ≤ Config.decDictCodes - 1

/-- What a code resolves to. -/
inductive Resolved where
  /-- A string (R183 to R185). -/
  | str (t : Str)
  /-- A DecodeError (R183, R186). -/
  | error (c : Cause)
  /-- A chain through an entry that is not valid; ruled out by R42 (log 14). -/
  | dead
  deriving DecidableEq, Repr

/-- A known string, or none. -/
def resolvedOf (t : Option Str) : Resolved :=
  match t with
  | some t => .str t
  | none => .dead

/-- The resolution of code `c` before anything is written: the first code (R183), a known code (R184), the special case (R185),
an unresolvable code (R186). -/
def resolve (c : Nat) (s : State) : Resolved :=
  match s.prev with
  | none => if Config.seedCount ≤ c then .error .decFirstCode else .str ⟨BitVec.ofNat 8 c, []⟩
  | some p =>
    if c < s.dictNext.toNat then resolvedOf (s.dd.str s.dictNext.toNat c)
    else if c = s.dictNext.toNat ∧ addOkD s.decCeil s.dictNext.toNat then
      resolvedOf ((s.dd.str s.dictNext.toNat p).map fun t => t.snoc t.first)
    else .error .decUnknownCode

/-- put_string(S): DST_FULL with the length when the whole string does not fit, else its bytes in order (R188). -/
def putString (bs : List Byte) (s : State) : Res Unit :=
  if s.outLen.toNat + bs.length > s.dstCap.toNat then .raise .dstFull (BitVec.ofNat 32 bs.length) s
  else putBytes bs s

/-- The growth of DD after every code but the first: the next code gets `(e.prev, S[0])` when the ceiling allows (R187). -/
def enterD (first : Byte) (s : State) : State :=
  match s.prev with
  | none => s
  | some p =>
    if addOkD s.decCeil s.dictNext.toNat then
      { s with dd := s.dd.put s.dictNext.toNat ⟨p, first⟩, dictNext := s.dictNext + 1 }
    else s

/-- dec_code(c) (R182, R189). -/
def decCode (c : Nat) (s : State) : Res Unit :=
  match resolve c s with
  | .error k => .raise k (BitVec.ofNat 32 c) s
  | .dead => .stuck .noEntry
  | .str t =>
    (putString t.bytes s).bind fun _ s1 =>
      .ok () { enterD t.first s1 with prev := some c, codeCount := s1.codeCount + 1 }

/-- dec_code_step (R182). -/
def decCodeStep (s : State) : Res Unit := (readCode s).bind decCode

/-- dec_tail_step: read the odd last byte, drop it, complete (R190). -/
def decTailStep (s : State) : Res Unit := (readSymbol s).bind fun _ s1 => .ok () (completeOk s1)

/-- dec_end_step: complete; no memory is accessed (R191). -/
def decEndStep (s : State) : Res Unit := .ok () (completeOk s)

end Sys2Proof.Machine
end

