-- ==== Sys2Proof/Machine/Encoder.lean ====
section
/-! DEFINITION. The encoder unit (41_encoder.md): lookup, ceiling, code packing, the symbol step and the flush step. -/

namespace Sys2Proof.Machine

/-- The dictionary lookup: the valid code whose entry is `(p, b)`, if one exists (R156). -/
def find (d : Dict) (next p : Nat) (b : Byte) : Option Nat :=
  (List.range' Config.seedCount (next - Config.seedCount)).find? fun k => d.get? k == some ⟨p, b⟩

/-- add_ok_E: the inclusive ceiling (R155). -/
def addOkE (next : Nat) : Bool := next ≤ Config.maxTableSize

/-- emit_code(c): DST_FULL with 2 when the two bytes do not fit, else the two bytes, high first, and CODE_COUNT + 1 (R157). -/
def emitCode (c : Nat) (s : State) : Res Unit :=
  if s.outLen.toNat + Config.codeBytes > s.dstCap.toNat then .raise .dstFull 2 s
  else
    (putBytes (pack1 c) s).bind fun _ s1 => .ok () { s1 with codeCount := s1.codeCount + 1 }

/-- The growth of ED: the next code gets `(p, b)` when the ceiling allows (R154, R155). -/
def enterE (p : Nat) (b : Byte) (s : State) : State :=
  if addOkE s.dictNext.toNat then
    { s with ed := s.ed.put s.dictNext.toNat ⟨p, b⟩, dictNext := s.dictNext + 1 }
  else s

/-- The part of the symbol step after the read: start, extend, or emit and reset the current string (R154). -/
def encSymbol (b : Byte) (s : State) : Res Unit :=
  match s.cur with
  | none => .ok () { s with cur := some b.toNat }
  | some p =>
    match find s.ed s.dictNext.toNat p b with
    | some k => .ok () { s with cur := some k }
    | none =>
      (emitCode p s).bind fun _ s1 => .ok () { enterE p b s1 with cur := some b.toNat }

/-- enc_symbol_step (R154). -/
def encSymbolStep (s : State) : Res Unit := (readSymbol s).bind encSymbol

/-- enc_flush_step: emit the pending match, if any, and complete (R158). -/
def encFlushStep (s : State) : Res Unit :=
  match s.cur with
  | none => .ok () (completeOk s)
  | some p => (emitCode p s).bind fun _ s1 => .ok () (completeOk s1)

end Sys2Proof.Machine
end

