-- ==== Sys2Proof/Machine/Engine.lean ====
section
/-! DEFINITION. The sequencing of an operation (40_commands.md R129, R130): which engine step is enabled, and how a step ends. -/

namespace Sys2Proof.Machine

/-- The one enabled step, chosen from the registers alone (R130). -/
def enabledStep (s : State) : Res Unit :=
  match s.mode with
  | .encode => if s.inPos.toNat < s.srcLen.toNat then encSymbolStep s else encFlushStep s
  | .decode =>
    if 2 ≤ s.srcLen.toNat - s.inPos.toNat then decCodeStep s
    else if s.srcLen.toNat - s.inPos.toNat = 1 then decTailStep s
    else decEndStep s

/-- The end of a step: its effects, or the completion with error of the raise that ended it (R214, R216). -/
def finish (r : Res Unit) : Host.Outcome State Fault Refusal :=
  match r with
  | .ok _ s => .next s
  | .raise c info s => .next (completeError c info s)
  | .stuck f => .fault f

/-- The engine's move: its enabled step while BUSY = 1, nothing while BUSY = 0 (R130). -/
def engineStep (s : State) : Host.Outcome State Fault Refusal :=
  if s.busy then finish (enabledStep s) else .next s

/-! ### A step cut off by reset (R243; 93_implementation_defined.md I8; log 17) -/

/-- The state in which a step ends, its completion aside. -/
def Res.last : Res Unit → Option State
  | .ok _ s => some s
  | .raise _ _ s => some s
  | .stuck _ => none

/-- The destination bytes that a step from `s` to `t` wrote, in order (R78). -/
def stepBytes (s t : State) : List Byte :=
  (List.range (t.outLen.toNat - s.outLen.toNat)).map fun i => Memory.read t.mem (s.dstAddr.toNat + s.outLen.toNat + i)

/-- The memory that reset finds when `cut` bytes of the engine's enabled step are already on the bus, the free values that the step
drew used up. With the engine turns before it this gives every prefix of the result that I8 admits: "the destination holds the first m
bytes of the result for some m, and the rest of the window is unchanged". -/
def cutStep (cut : Nat) (s : State) : State :=
  if s.busy then
    match (enabledStep s).last with
    | some t =>
      busStores (s.dstAddr.toNat + s.outLen.toNat) ((stepBytes s t).take cut) { s with freeCount := t.freeCount }
    | none => s
  else s

end Sys2Proof.Machine
end

