-- ==== Sys2Proof/Machine/HostPort.lean ====
section
/-! DEFINITION. The register port and the other turns of the outside world: the register map (10_state.md R21 to R45), register
writes and reads, bad accesses (R22), polls (30_encoding.md R111) and the memory turns of other bus agents (20_memory.md R86). -/

namespace Sys2Proof.Machine

/-- The byte offsets of R21. -/
def regOffset : RegName → Nat
  | .id => 0x00
  | .ctrl => 0x04
  | .cmd => 0x08
  | .status => 0x0C
  | .errcode => 0x10
  | .errinfo => 0x14
  | .srcAddr => 0x18
  | .srcLen => 0x1C
  | .dstAddr => 0x20
  | .dstCap => 0x24
  | .inPos => 0x28
  | .outLen => 0x2C
  | .codeCount => 0x30
  | .dictNext => 0x34

/-- The registers in the order of R21. -/
def allRegs : List RegName :=
  [.id, .ctrl, .cmd, .status, .errcode, .errinfo, .srcAddr, .srcLen, .dstAddr, .dstCap, .inPos, .outLen, .codeCount, .dictNext]

/-- The register at an offset, if one is there (R21, R45). -/
def regAt (off : Nat) : Option RegName := allRegs.find? fun r => regOffset r == off

/-- The bus address of a register: LZWC_BASE plus its offset (R21, R71). The sum wraps modulo 2^32 when LZWC_BASE lies above
2^32 - 0x100, which the spec does not speak of. DESIGN CHOICE (log 22). -/
def regAddr (p : Platform) (r : RegName) : Word := p.base + BitVec.ofNat 32 (regOffset r)

/-- What a register-port transaction reaches. -/
inductive Target where
  /-- One of the fourteen registers. -/
  | reg (r : RegName)
  /-- A reserved offset 0x38 to 0xFC (R45). -/
  | reserved
  /-- Not an aligned 32-bit access (R22). -/
  | badAccess
  /-- Outside the 0x100 bytes of the block (R45, R71). -/
  | outside
  deriving DecidableEq, Repr

/-- The target of a transaction of some width at a bus address (R22, R45, R71). The offset is taken modulo 2^32: a block whose
0x100 bytes pass 2^32 goes on at address 0. DESIGN CHOICE (log 22). -/
def target (p : Platform) (width : Nat) (addr : Word) : Target :=
  let off := (addr - p.base).toNat
  if 0x100 ≤ off then .outside
  else if width ≠ 32 ∨ off % 4 ≠ 0 then .badAccess
  else
    match regAt off with
    | some r => .reg r
    | none => .reserved

/-- ID: BITS_NUM, CODE_BYTES and the layout revision (R23). -/
def idWord : Word :=
  BitVec.ofNat 16 Config.layoutRevision ++ BitVec.ofNat 8 Config.codeBytes ++ BitVec.ofNat 8 Config.bitsNum

/-- What a register reads as (R21 to R39): CMD is write-only and reads 0 (R26). -/
def readReg (r : RegName) (s : State) : Word :=
  match r with
  | .id => idWord
  | .ctrl => ctrlWord s
  | .cmd => 0
  | .status => statusWord s
  | .errcode => errCodeWord s.cause
  | .errinfo => s.errInfo
  | .srcAddr => s.srcAddr
  | .srcLen => s.srcLen
  | .dstAddr => s.dstAddr
  | .dstCap => s.dstCap
  | .inPos => s.inPos
  | .outLen => s.outLen
  | .codeCount => s.codeCount
  | .dictNext => s.dictNext.zeroExtend 32

/-- A CMD write: the decoded command runs; an illegal word has its own meaning (R26, R120). -/
def writeCmd (w : Word) (s : State) : Host.Outcome State Fault Refusal :=
  match decode w with
  | .ok i => exec i s
  | .error _ => execIllegal w s

/-- A CTRL write: DEC_CEIL and IRQ_EN take bits 0 and 1, the rest is ignored (R24); ignored with IGN while BUSY = 1 (R35). -/
def writeCtrl (w : Word) (s : State) : State :=
  whenIdle s { s with decCeil := w.getLsbD 0, irqEn := w.getLsbD 1 }

/-- A register write. SRC_ADDR, SRC_LEN, DST_ADDR and DST_CAP take the value while idle and are ignored with IGN while BUSY = 1
(R31 to R35); a write to a read-only register is ignored and does not set IGN (R21, R47). -/
def writeReg (r : RegName) (w : Word) (s : State) : Host.Outcome State Fault Refusal :=
  match r with
  | .cmd => writeCmd w s
  | .ctrl => .next (writeCtrl w s)
  | .status => .next (statusClear w s)
  | .srcAddr => .next (whenIdle s { s with srcAddr := w })
  | .srcLen => .next (whenIdle s { s with srcLen := w })
  | .dstAddr => .next (whenIdle s { s with dstAddr := w })
  | .dstCap => .next (whenIdle s { s with dstCap := w })
  | .id => .next s
  | .errcode => .next s
  | .errinfo => .next s
  | .inPos => .next s
  | .outLen => .next s
  | .codeCount => .next s
  | .dictNext => .next s

/-- A write transaction on the register port. A reserved offset ignores it without IGN (R45); a bad access gets a bus error and
changes no state (R22). -/
def portWrite (width : Nat) (addr data : Word) (s : State) : Host.Outcome State Fault Refusal :=
  match target s.platform width addr with
  | .reg r => writeReg r data { s with resp := .written }
  | .reserved => .next { s with resp := .written }
  | .badAccess => .next { s with resp := .busError }
  | .outside => .refused .outsideBlock

/-- A read transaction on the register port: it changes no state of the block (R22, R81). A reserved offset reads 0 (R45). -/
def portRead (width : Nat) (addr : Word) (s : State) : Host.Outcome State Fault Refusal :=
  match target s.platform width addr with
  | .reg r => .next { s with resp := .data (readReg r s) }
  | .reserved => .next { s with resp := .data 0 }
  | .badAccess => .next { s with resp := .busError }
  | .outside => .refused .outsideBlock

/-- One read of a POLL (R111): when the value does not match, the engine moves and the poll comes again (log 15). -/
def pollReg (r : RegName) (mask value : Word) (s : State) : State :=
  let v := readReg r s
  { s with
    resp := .data v
    turns := if v &&& mask = value then s.turns else .engine :: .poll r mask value :: s.turns }

/-- A memory write of the host or of another bus agent (R72, R86); a device's behaviour is not the spec's (R81). It lands whatever
bus_fault says, and at an address of the register space it reaches a memory byte. DESIGN CHOICE (log 8, log 23). -/
def agentWrite (a : Word) (v : Byte) (s : State) : Host.Outcome State Fault Refusal :=
  if covers s.platform.devices a.toNat then .refused .deviceAccess else .next (agentStore a.toNat v s)

/-- A memory read of the host or of another bus agent (R72, R86). It is answered whatever bus_fault says. DESIGN CHOICE (log 8,
log 23). -/
def agentRead (a : Word) (s : State) : Host.Outcome State Fault Refusal :=
  if covers s.platform.devices a.toNat then .refused .deviceAccess else .next (agentLoad a.toNat s)

/-- The platform's bus_fault answers change; the base and the devices do not (I16; log 7). -/
def setBusFaults (reads writes : List Window) (s : State) : State :=
  { s with platform := { s.platform with readFaults := reads, writeFaults := writes } }

/-- One turn, already taken from the list of those to come (R44). -/
def takeTurn (t : Turn) (s : State) : Host.Outcome State Fault Refusal :=
  match t with
  | .engine => engineStep s
  | .reset cut => .next (resetBlock (cutStep cut s))
  | .write width addr data => portWrite width addr data s
  | .read width addr => portRead width addr s
  | .poll r mask value => .next (pollReg r mask value s)
  | .memWrite a v => agentWrite a v s
  | .memRead a => agentRead a s
  | .busFaults reads writes => .next (setBusFaults reads writes s)

end Sys2Proof.Machine
end

