-- ==== Sys2Proof/Machine/HostScript.lean ====
section
/-! DEFINITION. The host script (30_encoding.md R111, R112): the expansion of pseudo-instructions into lines, and the turns that a
line of a script gives. The script has no effect of its own on the machine (D28): its turns have. -/

namespace Sys2Proof.Machine

/-- The lines that a pseudo-instruction stands for; a line of R111 stands for itself (R112). -/
def expandLine : HostLine → List HostLine
  | .nop => [.wr .cmd 0x0]
  | .abort => [.wr .cmd 0x3]
  | .encode s n d k => [.wr .srcAddr s, .wr .srcLen n, .wr .dstAddr d, .wr .dstCap k, .wr .cmd 0x1]
  | .decode s n d k => [.wr .srcAddr s, .wr .srcLen n, .wr .dstAddr d, .wr .dstCap k, .wr .cmd 0x2]
  | .waitDone => [.poll .status 0x2 0x2]
  | .clear => [.wr .status 0xE]
  | .ceil on ctrl => [.wr .ctrl (if on then ctrl ||| 1 else ctrl &&& ~~~1)]
  | .wr r v => [.wr r v]
  | .rd r e => [.rd r e]
  | .poll r m v => [.poll r m v]
  | .mem a bs => [.mem a bs]
  | .expectMem a bs => [.expectMem a bs]

/-- The memory writes of a `MEM` line: bytes at a, a + 1, ... (R111). -/
def memTurns : Word → List Byte → List Turn
  | _, [] => []
  | a, b :: bs => .memWrite a b :: memTurns (a + 1) bs

/-- The turns of a line of R111: the transaction it encodes, or none for a claim. -/
def lineTurns (p : Platform) : HostLine → List Turn
  | .wr r v => [.write 32 (regAddr p r) v]
  | .rd r _ => [.read 32 (regAddr p r)]
  | .poll r m v => [.poll r m v]
  | .mem a bs => memTurns a bs
  | .expectMem _ _ => []
  | .nop => []
  | .abort => []
  | .encode _ _ _ _ => []
  | .decode _ _ _ _ => []
  | .waitDone => []
  | .clear => []
  | .ceil _ _ => []

/-- The turns of a script, line by line, with no engine turn between them: one interleaving of the many that R132 leaves
free. -/
def scriptTurns (p : Platform) (ls : List HostLine) : List Turn :=
  (ls.flatMap expandLine).flatMap (lineTurns p)

end Sys2Proof.Machine
end

