-- ==== Sys2Proof/Machine/Step.lean ====
section
/-! DEFINITION. One step of the machine: the next turn, or the engine when none is pending (40_commands.md R130, R132; log 1). -/

namespace Sys2Proof.Machine

/-- One atomic transition (R44): the oldest pending turn, or, with none pending, the engine's move. -/
def step (s : State) : Host.Outcome State Fault Refusal :=
  match s.turns with
  | [] => engineStep s
  | t :: ts => takeTurn t { s with turns := ts }

/-- `s` with a host write of the command word `w` as the very next turn (log 11). -/
def State.withFetchWord (s : State) (nbits w : Nat) : State :=
  { s with turns := .write 32 (regAddr s.platform .cmd) (BitVec.ofNat 32 (w % 2 ^ nbits)) :: s.turns }

end Sys2Proof.Machine
end

