-- ==== Sys2Proof/Machine/Contract.lean ====
section
/-! DEFINITION. The two units as functions of byte strings: lzw_codes (41_encoder.md R159), the source's own string-keyed form of
it (R154, R161), and encode and decode (00_scope.md R16, R17). The machine does not use them; claims compare the machine with
them. -/

namespace Sys2Proof.Machine

/-! ### The encoder as a function -/

/-- The variables of lzw_codes (R159): size, cur, out, and the map D as a list of its pairs. -/
structure EncVars where
  size : Nat
  cur : Option Nat
  out : List Nat
  map : List ((Nat × Byte) × Nat)
  deriving DecidableEq, Repr

/-- Before the first symbol (R159). -/
def encVars0 : EncVars := ⟨Config.seedCount, none, [], []⟩

/-- One turn of the loop of lzw_codes (R159). -/
def encLoop (v : EncVars) (b : Byte) : EncVars :=
  match v.cur with
  | none => { v with cur := some b.toNat }
  | some p =>
    match v.map.lookup (p, b) with
    | some k => { v with cur := some k }
    | none =>
      { size := if v.size ≤ Config.maxTableSize then v.size + 1 else v.size
        cur := some b.toNat
        out := v.out ++ [p]
        map := if v.size ≤ Config.maxTableSize then v.map ++ [((p, b), v.size)] else v.map }

/-- The variables after the scan of a byte string. -/
def encScan (x : List Byte) : EncVars := x.foldl encLoop encVars0

/-- lzw_codes(x) (R159). -/
def lzwCodes (x : List Byte) : List Nat := (encScan x).out ++ (encScan x).cur.toList

/-- encode(x) = pack(lzw_codes(x)) (R16). -/
def encodeBytes (x : List Byte) : List Byte := pack (lzwCodes x)

/-! ### The source's string-keyed encoder -/

/-- The variables of the source's encoder (R154, R161): the running string, the dictionary's learned strings in the order of
their codes 256, 257, ..., and the emitted codes. -/
structure SourceVars where
  string : List Byte
  learned : List (List Byte)
  out : List Nat
  deriving DecidableEq, Repr

/-- The code of a string that is a key of the source's dictionary: a seed, or a learned string (R14, R159). -/
def sourceCode (learned : List (List Byte)) : List Byte → Option Nat
  | [] => none
  | [b] => some b.toNat
  | b :: c :: r => (learned.idxOf? (b :: c :: r)).map (fun i => Config.seedCount + i)

/-- One symbol of the source's scan: "form candidate = string + symbol" (R154), with the inclusive ceiling (R155). -/
def sourceLoop (v : SourceVars) (b : Byte) : SourceVars :=
  match sourceCode v.learned (v.string ++ [b]) with
  | some _ => { v with string := v.string ++ [b] }
  | none =>
    { string := [b]
      learned :=
        if Config.seedCount + v.learned.length ≤ Config.maxTableSize then v.learned ++ [v.string ++ [b]] else v.learned
      out := v.out ++ (sourceCode v.learned v.string).toList }

/-- The source's encoder: the scan, then the flush of a non-empty string (R158). -/
def sourceCodes (x : List Byte) : List Nat :=
  let v := x.foldl sourceLoop ⟨[], [], []⟩
  v.out ++ (sourceCode v.learned v.string).toList

/-! ### The decoder as a function -/

/-- The result of decode: "either a byte string or a DecodeError" (R17). -/
inductive Decoded where
  | bytes (out : List Byte)
  | error (c : Cause) (code : Nat)
  deriving DecidableEq, Repr

/-- The variables of the reconstruction at the level of strings (R181): the source's `string` (empty before the first code), the
learned strings in the order of their codes, the output, and the number of codes processed. -/
structure DecVars where
  string : List Byte
  learned : List (List Byte)
  out : List Byte
  count : Nat
  deriving DecidableEq, Repr

/-- Before the first code (R181). -/
def decVars0 : DecVars := ⟨[], [], [], 0⟩

/-- The string of a code, or the cause of a DecodeError (R183 to R186). -/
def decLookup (decCeil : Bool) (v : DecVars) (c : Nat) : Except Cause (List Byte) :=
  let next := Config.seedCount + v.learned.length
  if v.string = [] then
    if Config.seedCount ≤ c then .error .decFirstCode else .ok [BitVec.ofNat 8 c]
  else if c < Config.seedCount then .ok [BitVec.ofNat 8 c]
  else
    match v.learned[c - Config.seedCount]? with
    | some t => .ok t
    | none =>
      if c = next ∧ addOkD decCeil next then .ok (v.string ++ v.string.take 1) else .error .decUnknownCode

/-- One code decoded to the string `t`: output, growth after every code but the first (R187), the new `string` (R189). -/
def decAppend (decCeil : Bool) (v : DecVars) (t : List Byte) : DecVars :=
  { string := t
    learned :=
      if v.string ≠ [] ∧ addOkD decCeil (Config.seedCount + v.learned.length) then v.learned ++ [v.string ++ t.take 1]
      else v.learned
    out := v.out ++ t
    count := v.count + 1 }

/-- The variables after a code sequence, up to its first DecodeError: then the error, its code, and the variables before it
(R182, R186). -/
def decScan (decCeil : Bool) : List Nat → DecVars → DecVars × Option (Cause × Nat)
  | [], v => (v, none)
  | c :: cs, v =>
    match decLookup decCeil v c with
    | .ok t => decScan decCeil cs (decAppend decCeil v t)
    | .error k => (v, some (k, c))

/-- The result of decoding a code sequence. -/
def decodeCodes (decCeil : Bool) (cs : List Nat) : Decoded :=
  match decScan decCeil cs decVars0 with
  | (v, none) => .bytes v.out
  | (_, some (k, c)) => .error k c

/-- decode(y): the codes of the byte string, then the reconstruction (R17). -/
def decodeBytes (decCeil : Bool) (y : List Byte) : Decoded := decodeCodes decCeil (unpack y)

end Sys2Proof.Machine
end

