-- ==== Sys2Proof/Safety.lean ====
section
/-! DEFINITION. What counts as a safe run, in the terms that claims use: the invariant of every reachable state (10_state.md R41,
R42, R47 to R49), a launch that a result claim may assume (70_reset_and_hazards.md R245, R246), what is known of a byte, and what the
outside can see. -/

namespace Sys2Proof.Machine

/-! ### What is known of memory -/

/-- The byte at an address, or none where a race left the contents unspecified (R86). -/
def knownByte (s : State) (a : Nat) : Option Byte :=
  if covers s.unspec a then none else some (Memory.read s.mem a)

/-- The bytes of the source window, in order (R72). -/
def sourceBytes (s : State) : List Byte :=
  (List.range s.srcLen.toNat).map fun i => Memory.read s.mem (s.srcAddr.toNat + i)

/-- From `base` on, memory is known to hold exactly these bytes. -/
def holdsAt (s : State) (base : Nat) (bs : List Byte) : Prop :=
  ∀ i, i < bs.length → knownByte s (base + i) = bs[i]?

/-- Every byte outside the `n` bytes from `base` is known, and reads, as before. -/
def untouchedOutside (base n : Nat) (s t : State) : Prop :=
  ∀ a, a < base ∨ base + n ≤ a → Memory.read t.mem a = Memory.read s.mem a ∧ knownByte t a = knownByte s a

/-! ### The invariant -/

/-- The encoder's part of the invariant while it runs: whole codes only are on the bus, DICT_NEXT is at most
ENC_MAX_CODE + 1 (R39), every valid entry has a parent below it (R41, R155), no two valid entries are equal (R160), and e.cur is
NONE exactly before the first symbol, else a valid code (R154). -/
structure EncInv (s : State) : Prop where
  out_len : s.outLen.toNat = 2 * s.codeCount.toNat
  next_le : s.dictNext.toNat ≤ Config.encMaxCode + 1
  parents : ∀ k, Config.seedCount ≤ k → k < s.dictNext.toNat → ∃ e, s.ed.get? k = some e ∧ e.parent < k
  unique : ∀ j k, Config.seedCount ≤ j → j < s.dictNext.toNat → Config.seedCount ≤ k → k < s.dictNext.toNat →
    s.ed.get? j = s.ed.get? k → j = k
  cur_ok : (s.cur = none ∧ s.inPos = 0 ∧ s.codeCount = 0) ∨
    ∃ c, s.cur = some c ∧ c < s.dictNext.toNat ∧ s.codeCount.toNat + 1 ≤ s.inPos.toNat

/-- The decoder's part of the invariant while it runs: DICT_NEXT is at most 4097 or 65536 by DEC_CEIL (R39), every valid entry has
a parent below it (R42, R187), two source bytes are read for each code, and e.prev is NONE exactly before the first code, else a
valid code (R189). -/
structure DecInv (s : State) : Prop where
  next_le : s.dictNext.toNat ≤ if s.decCeil then Config.encMaxCode + 1 else Config.decDictCodes
  parents : ∀ k, Config.seedCount ≤ k → k < s.dictNext.toNat → ∃ e, s.dd.get? k = some e ∧ e.parent < k
  in_pos : s.inPos.toNat = 2 * s.codeCount.toNat
  prev_ok : (s.prev = none ∧ s.codeCount = 0 ∧ s.dictNext = 256) ∨
    ∃ p, s.prev = some p ∧ p < s.dictNext.toNat ∧ 1 ≤ s.codeCount.toNat

/-- What holds while BUSY = 1 (R47 to R49): no report of an error, legal windows on ordinary memory, counters inside their windows,
and the running unit's own part. -/
structure BusyInv (s : State) : Prop where
  no_report : s.done = false ∧ s.err = false ∧ s.cause = .none ∧ s.errInfo = 0
  range_ok : rangeCheck s = 0
  off_device : onDevice s = false
  in_pos_le : s.inPos.toNat ≤ s.srcLen.toNat
  out_len_le : s.outLen.toNat ≤ s.dstCap.toNat
  next_ge : Config.seedCount ≤ s.dictNext.toNat
  next_count : s.dictNext.toNat - Config.seedCount ≤ s.codeCount.toNat
  enc : s.mode = .encode → EncInv s
  dec : s.mode = .decode → DecInv s

/-- The invariant of the machine: memory in canonical form, DICT_NEXT inside its range (R39), no race recorded while idle, and
`BusyInv` while an operation runs. -/
structure Inv (s : State) : Prop where
  mem_wf : Memory.wf s.mem
  next_le : s.dictNext.toNat ≤ Config.decDictCodes
  idle_races : s.busy = false → s.races = []
  busy_inv : s.busy = true → BusyInv s

/-! ### Launches and runs -/

/-- The launch premise of R246 with nothing else pending: idle, legal windows on ordinary memory without bus errors, the source's
contents specified, and no other agent moving. -/
structure LaunchReady (s : State) : Prop where
  idle : s.busy = false
  alone : s.turns = []
  range_ok : rangeCheck s = 0
  off_device : onDevice s = false
  reads_answer : meetsAny s.platform.readFaults (srcWindow s) = false
  writes_answer : meetsAny s.platform.writeFaults (dstWindow s) = false
  source_known : meetsAny s.unspec (srcWindow s) = false

/-- `n` steps of the machine. -/
abbrev runSteps (n : Nat) (s : State) : Host.Outcome State Fault Refusal := Sys2Proof.core.run n s

/-- A state that some interleaving reaches from reset, whatever memory held. -/
def Reachable (s : State) : Prop :=
  ∃ m ts n, Memory.wf m ∧ runSteps n { State.reset with mem := m, turns := ts } = .next s

/-- All of the state but what the block keeps inside between operations: e.cur, e.prev, ED and DD (R40, R53). -/
def outsideView (s : State) : State := { s with cur := none, prev := none, ed := [], dd := [] }

/-- Two outcomes that look alike from outside the block. -/
def sameOutside : Host.Outcome State Fault Refusal → Host.Outcome State Fault Refusal → Prop
  | .next s, .next t => outsideView s = outsideView t
  | .fault f, .fault g => f = g
  | .refused q, .refused r => q = r
  | _, _ => False

end Sys2Proof.Machine
end

