-- ==== Sys2Proof/Laws/State.lean ====
section
/-! SUPPORT. One lemma per field per named update of State, each true by rfl, so that no later proof unfolds a record update. -/

namespace Sys2Proof.Machine

/-! ### setIgn -/

@[simp] theorem setIgn_decCeil (s : State) : (setIgn s).decCeil = s.decCeil := rfl
@[simp] theorem setIgn_irqEn (s : State) : (setIgn s).irqEn = s.irqEn := rfl
@[simp] theorem setIgn_busy (s : State) : (setIgn s).busy = s.busy := rfl
@[simp] theorem setIgn_done (s : State) : (setIgn s).done = s.done := rfl
@[simp] theorem setIgn_err (s : State) : (setIgn s).err = s.err := rfl
@[simp] theorem setIgn_ign (s : State) : (setIgn s).ign = true := rfl
@[simp] theorem setIgn_mode (s : State) : (setIgn s).mode = s.mode := rfl
@[simp] theorem setIgn_cause (s : State) : (setIgn s).cause = s.cause := rfl
@[simp] theorem setIgn_errInfo (s : State) : (setIgn s).errInfo = s.errInfo := rfl
@[simp] theorem setIgn_srcAddr (s : State) : (setIgn s).srcAddr = s.srcAddr := rfl
@[simp] theorem setIgn_srcLen (s : State) : (setIgn s).srcLen = s.srcLen := rfl
@[simp] theorem setIgn_dstAddr (s : State) : (setIgn s).dstAddr = s.dstAddr := rfl
@[simp] theorem setIgn_dstCap (s : State) : (setIgn s).dstCap = s.dstCap := rfl
@[simp] theorem setIgn_inPos (s : State) : (setIgn s).inPos = s.inPos := rfl
@[simp] theorem setIgn_outLen (s : State) : (setIgn s).outLen = s.outLen := rfl
@[simp] theorem setIgn_codeCount (s : State) : (setIgn s).codeCount = s.codeCount := rfl
@[simp] theorem setIgn_dictNext (s : State) : (setIgn s).dictNext = s.dictNext := rfl
@[simp] theorem setIgn_cur (s : State) : (setIgn s).cur = s.cur := rfl
@[simp] theorem setIgn_prev (s : State) : (setIgn s).prev = s.prev := rfl
@[simp] theorem setIgn_ed (s : State) : (setIgn s).ed = s.ed := rfl
@[simp] theorem setIgn_dd (s : State) : (setIgn s).dd = s.dd := rfl
@[simp] theorem setIgn_mem (s : State) : (setIgn s).mem = s.mem := rfl
@[simp] theorem setIgn_platform (s : State) : (setIgn s).platform = s.platform := rfl
@[simp] theorem setIgn_turns (s : State) : (setIgn s).turns = s.turns := rfl
@[simp] theorem setIgn_resp (s : State) : (setIgn s).resp = s.resp := rfl
@[simp] theorem setIgn_races (s : State) : (setIgn s).races = s.races := rfl
@[simp] theorem setIgn_unspec (s : State) : (setIgn s).unspec = s.unspec := rfl
@[simp] theorem setIgn_freeCount (s : State) : (setIgn s).freeCount = s.freeCount := rfl

/-! ### statusClear -/

@[simp] theorem statusClear_decCeil (w : Word) (s : State) : (statusClear w s).decCeil = s.decCeil := rfl
@[simp] theorem statusClear_irqEn (w : Word) (s : State) : (statusClear w s).irqEn = s.irqEn := rfl
@[simp] theorem statusClear_busy (w : Word) (s : State) : (statusClear w s).busy = s.busy := rfl
@[simp] theorem statusClear_done (w : Word) (s : State) : (statusClear w s).done = (s.done && !w.getLsbD 1) := rfl
@[simp] theorem statusClear_err (w : Word) (s : State) : (statusClear w s).err = (s.err && !w.getLsbD 2) := rfl
@[simp] theorem statusClear_ign (w : Word) (s : State) : (statusClear w s).ign = (s.ign && !w.getLsbD 3) := rfl
@[simp] theorem statusClear_mode (w : Word) (s : State) : (statusClear w s).mode = s.mode := rfl
@[simp] theorem statusClear_cause (w : Word) (s : State) : (statusClear w s).cause = s.cause := rfl
@[simp] theorem statusClear_errInfo (w : Word) (s : State) : (statusClear w s).errInfo = s.errInfo := rfl
@[simp] theorem statusClear_srcAddr (w : Word) (s : State) : (statusClear w s).srcAddr = s.srcAddr := rfl
@[simp] theorem statusClear_srcLen (w : Word) (s : State) : (statusClear w s).srcLen = s.srcLen := rfl
@[simp] theorem statusClear_dstAddr (w : Word) (s : State) : (statusClear w s).dstAddr = s.dstAddr := rfl
@[simp] theorem statusClear_dstCap (w : Word) (s : State) : (statusClear w s).dstCap = s.dstCap := rfl
@[simp] theorem statusClear_inPos (w : Word) (s : State) : (statusClear w s).inPos = s.inPos := rfl
@[simp] theorem statusClear_outLen (w : Word) (s : State) : (statusClear w s).outLen = s.outLen := rfl
@[simp] theorem statusClear_codeCount (w : Word) (s : State) : (statusClear w s).codeCount = s.codeCount := rfl
@[simp] theorem statusClear_dictNext (w : Word) (s : State) : (statusClear w s).dictNext = s.dictNext := rfl
@[simp] theorem statusClear_cur (w : Word) (s : State) : (statusClear w s).cur = s.cur := rfl
@[simp] theorem statusClear_prev (w : Word) (s : State) : (statusClear w s).prev = s.prev := rfl
@[simp] theorem statusClear_ed (w : Word) (s : State) : (statusClear w s).ed = s.ed := rfl
@[simp] theorem statusClear_dd (w : Word) (s : State) : (statusClear w s).dd = s.dd := rfl
@[simp] theorem statusClear_mem (w : Word) (s : State) : (statusClear w s).mem = s.mem := rfl
@[simp] theorem statusClear_platform (w : Word) (s : State) : (statusClear w s).platform = s.platform := rfl
@[simp] theorem statusClear_turns (w : Word) (s : State) : (statusClear w s).turns = s.turns := rfl
@[simp] theorem statusClear_resp (w : Word) (s : State) : (statusClear w s).resp = s.resp := rfl
@[simp] theorem statusClear_races (w : Word) (s : State) : (statusClear w s).races = s.races := rfl
@[simp] theorem statusClear_unspec (w : Word) (s : State) : (statusClear w s).unspec = s.unspec := rfl
@[simp] theorem statusClear_freeCount (w : Word) (s : State) : (statusClear w s).freeCount = s.freeCount := rfl

/-! ### clearForIssue -/

@[simp] theorem clearForIssue_decCeil (s : State) : (clearForIssue s).decCeil = s.decCeil := rfl
@[simp] theorem clearForIssue_irqEn (s : State) : (clearForIssue s).irqEn = s.irqEn := rfl
@[simp] theorem clearForIssue_busy (s : State) : (clearForIssue s).busy = s.busy := rfl
@[simp] theorem clearForIssue_done (s : State) : (clearForIssue s).done = false := rfl
@[simp] theorem clearForIssue_err (s : State) : (clearForIssue s).err = false := rfl
@[simp] theorem clearForIssue_ign (s : State) : (clearForIssue s).ign = s.ign := rfl
@[simp] theorem clearForIssue_mode (s : State) : (clearForIssue s).mode = s.mode := rfl
@[simp] theorem clearForIssue_cause (s : State) : (clearForIssue s).cause = .none := rfl
@[simp] theorem clearForIssue_errInfo (s : State) : (clearForIssue s).errInfo = 0 := rfl
@[simp] theorem clearForIssue_srcAddr (s : State) : (clearForIssue s).srcAddr = s.srcAddr := rfl
@[simp] theorem clearForIssue_srcLen (s : State) : (clearForIssue s).srcLen = s.srcLen := rfl
@[simp] theorem clearForIssue_dstAddr (s : State) : (clearForIssue s).dstAddr = s.dstAddr := rfl
@[simp] theorem clearForIssue_dstCap (s : State) : (clearForIssue s).dstCap = s.dstCap := rfl
@[simp] theorem clearForIssue_inPos (s : State) : (clearForIssue s).inPos = 0 := rfl
@[simp] theorem clearForIssue_outLen (s : State) : (clearForIssue s).outLen = 0 := rfl
@[simp] theorem clearForIssue_codeCount (s : State) : (clearForIssue s).codeCount = 0 := rfl
@[simp] theorem clearForIssue_dictNext (s : State) : (clearForIssue s).dictNext = 0 := rfl
@[simp] theorem clearForIssue_cur (s : State) : (clearForIssue s).cur = s.cur := rfl
@[simp] theorem clearForIssue_prev (s : State) : (clearForIssue s).prev = s.prev := rfl
@[simp] theorem clearForIssue_ed (s : State) : (clearForIssue s).ed = s.ed := rfl
@[simp] theorem clearForIssue_dd (s : State) : (clearForIssue s).dd = s.dd := rfl
@[simp] theorem clearForIssue_mem (s : State) : (clearForIssue s).mem = s.mem := rfl
@[simp] theorem clearForIssue_platform (s : State) : (clearForIssue s).platform = s.platform := rfl
@[simp] theorem clearForIssue_turns (s : State) : (clearForIssue s).turns = s.turns := rfl
@[simp] theorem clearForIssue_resp (s : State) : (clearForIssue s).resp = s.resp := rfl
@[simp] theorem clearForIssue_races (s : State) : (clearForIssue s).races = s.races := rfl
@[simp] theorem clearForIssue_unspec (s : State) : (clearForIssue s).unspec = s.unspec := rfl
@[simp] theorem clearForIssue_freeCount (s : State) : (clearForIssue s).freeCount = s.freeCount := rfl

/-! ### reject -/

@[simp] theorem reject_decCeil (c : Cause) (i : Word) (s : State) : (reject c i s).decCeil = s.decCeil := rfl
@[simp] theorem reject_irqEn (c : Cause) (i : Word) (s : State) : (reject c i s).irqEn = s.irqEn := rfl
@[simp] theorem reject_busy (c : Cause) (i : Word) (s : State) : (reject c i s).busy = s.busy := rfl
@[simp] theorem reject_done (c : Cause) (i : Word) (s : State) : (reject c i s).done = true := rfl
@[simp] theorem reject_err (c : Cause) (i : Word) (s : State) : (reject c i s).err = true := rfl
@[simp] theorem reject_ign (c : Cause) (i : Word) (s : State) : (reject c i s).ign = s.ign := rfl
@[simp] theorem reject_mode (c : Cause) (i : Word) (s : State) : (reject c i s).mode = s.mode := rfl
@[simp] theorem reject_cause (c : Cause) (i : Word) (s : State) : (reject c i s).cause = c := rfl
@[simp] theorem reject_errInfo (c : Cause) (i : Word) (s : State) : (reject c i s).errInfo = i := rfl
@[simp] theorem reject_srcAddr (c : Cause) (i : Word) (s : State) : (reject c i s).srcAddr = s.srcAddr := rfl
@[simp] theorem reject_srcLen (c : Cause) (i : Word) (s : State) : (reject c i s).srcLen = s.srcLen := rfl
@[simp] theorem reject_dstAddr (c : Cause) (i : Word) (s : State) : (reject c i s).dstAddr = s.dstAddr := rfl
@[simp] theorem reject_dstCap (c : Cause) (i : Word) (s : State) : (reject c i s).dstCap = s.dstCap := rfl
@[simp] theorem reject_inPos (c : Cause) (i : Word) (s : State) : (reject c i s).inPos = s.inPos := rfl
@[simp] theorem reject_outLen (c : Cause) (i : Word) (s : State) : (reject c i s).outLen = s.outLen := rfl
@[simp] theorem reject_codeCount (c : Cause) (i : Word) (s : State) : (reject c i s).codeCount = s.codeCount := rfl
@[simp] theorem reject_dictNext (c : Cause) (i : Word) (s : State) : (reject c i s).dictNext = s.dictNext := rfl
@[simp] theorem reject_cur (c : Cause) (i : Word) (s : State) : (reject c i s).cur = s.cur := rfl
@[simp] theorem reject_prev (c : Cause) (i : Word) (s : State) : (reject c i s).prev = s.prev := rfl
@[simp] theorem reject_ed (c : Cause) (i : Word) (s : State) : (reject c i s).ed = s.ed := rfl
@[simp] theorem reject_dd (c : Cause) (i : Word) (s : State) : (reject c i s).dd = s.dd := rfl
@[simp] theorem reject_mem (c : Cause) (i : Word) (s : State) : (reject c i s).mem = s.mem := rfl
@[simp] theorem reject_platform (c : Cause) (i : Word) (s : State) : (reject c i s).platform = s.platform := rfl
@[simp] theorem reject_turns (c : Cause) (i : Word) (s : State) : (reject c i s).turns = s.turns := rfl
@[simp] theorem reject_resp (c : Cause) (i : Word) (s : State) : (reject c i s).resp = s.resp := rfl
@[simp] theorem reject_races (c : Cause) (i : Word) (s : State) : (reject c i s).races = s.races := rfl
@[simp] theorem reject_unspec (c : Cause) (i : Word) (s : State) : (reject c i s).unspec = s.unspec := rfl
@[simp] theorem reject_freeCount (c : Cause) (i : Word) (s : State) : (reject c i s).freeCount = s.freeCount := rfl

/-! ### endRaces -/

@[simp] theorem endRaces_decCeil (s : State) : (endRaces s).decCeil = s.decCeil := rfl
@[simp] theorem endRaces_irqEn (s : State) : (endRaces s).irqEn = s.irqEn := rfl
@[simp] theorem endRaces_busy (s : State) : (endRaces s).busy = s.busy := rfl
@[simp] theorem endRaces_done (s : State) : (endRaces s).done = s.done := rfl
@[simp] theorem endRaces_err (s : State) : (endRaces s).err = s.err := rfl
@[simp] theorem endRaces_ign (s : State) : (endRaces s).ign = s.ign := rfl
@[simp] theorem endRaces_mode (s : State) : (endRaces s).mode = s.mode := rfl
@[simp] theorem endRaces_cause (s : State) : (endRaces s).cause = s.cause := rfl
@[simp] theorem endRaces_errInfo (s : State) : (endRaces s).errInfo = s.errInfo := rfl
@[simp] theorem endRaces_srcAddr (s : State) : (endRaces s).srcAddr = s.srcAddr := rfl
@[simp] theorem endRaces_srcLen (s : State) : (endRaces s).srcLen = s.srcLen := rfl
@[simp] theorem endRaces_dstAddr (s : State) : (endRaces s).dstAddr = s.dstAddr := rfl
@[simp] theorem endRaces_dstCap (s : State) : (endRaces s).dstCap = s.dstCap := rfl
@[simp] theorem endRaces_inPos (s : State) : (endRaces s).inPos = s.inPos := rfl
@[simp] theorem endRaces_outLen (s : State) : (endRaces s).outLen = s.outLen := rfl
@[simp] theorem endRaces_codeCount (s : State) : (endRaces s).codeCount = s.codeCount := rfl
@[simp] theorem endRaces_dictNext (s : State) : (endRaces s).dictNext = s.dictNext := rfl
@[simp] theorem endRaces_cur (s : State) : (endRaces s).cur = s.cur := rfl
@[simp] theorem endRaces_prev (s : State) : (endRaces s).prev = s.prev := rfl
@[simp] theorem endRaces_ed (s : State) : (endRaces s).ed = s.ed := rfl
@[simp] theorem endRaces_dd (s : State) : (endRaces s).dd = s.dd := rfl
@[simp] theorem endRaces_mem (s : State) : (endRaces s).mem = s.mem := rfl
@[simp] theorem endRaces_platform (s : State) : (endRaces s).platform = s.platform := rfl
@[simp] theorem endRaces_turns (s : State) : (endRaces s).turns = s.turns := rfl
@[simp] theorem endRaces_resp (s : State) : (endRaces s).resp = s.resp := rfl
@[simp] theorem endRaces_races (s : State) : (endRaces s).races = [] := rfl
@[simp] theorem endRaces_unspec (s : State) : (endRaces s).unspec = (if s.races.isEmpty then s.unspec else dstWindow s :: s.unspec) := rfl
@[simp] theorem endRaces_freeCount (s : State) : (endRaces s).freeCount = s.freeCount := rfl

/-! ### completeOk -/

@[simp] theorem completeOk_decCeil (s : State) : (completeOk s).decCeil = s.decCeil := rfl
@[simp] theorem completeOk_irqEn (s : State) : (completeOk s).irqEn = s.irqEn := rfl
@[simp] theorem completeOk_busy (s : State) : (completeOk s).busy = false := rfl
@[simp] theorem completeOk_done (s : State) : (completeOk s).done = true := rfl
@[simp] theorem completeOk_err (s : State) : (completeOk s).err = s.err := rfl
@[simp] theorem completeOk_ign (s : State) : (completeOk s).ign = s.ign := rfl
@[simp] theorem completeOk_mode (s : State) : (completeOk s).mode = s.mode := rfl
@[simp] theorem completeOk_cause (s : State) : (completeOk s).cause = s.cause := rfl
@[simp] theorem completeOk_errInfo (s : State) : (completeOk s).errInfo = s.errInfo := rfl
@[simp] theorem completeOk_srcAddr (s : State) : (completeOk s).srcAddr = s.srcAddr := rfl
@[simp] theorem completeOk_srcLen (s : State) : (completeOk s).srcLen = s.srcLen := rfl
@[simp] theorem completeOk_dstAddr (s : State) : (completeOk s).dstAddr = s.dstAddr := rfl
@[simp] theorem completeOk_dstCap (s : State) : (completeOk s).dstCap = s.dstCap := rfl
@[simp] theorem completeOk_inPos (s : State) : (completeOk s).inPos = s.inPos := rfl
@[simp] theorem completeOk_outLen (s : State) : (completeOk s).outLen = s.outLen := rfl
@[simp] theorem completeOk_codeCount (s : State) : (completeOk s).codeCount = s.codeCount := rfl
@[simp] theorem completeOk_dictNext (s : State) : (completeOk s).dictNext = s.dictNext := rfl
@[simp] theorem completeOk_cur (s : State) : (completeOk s).cur = s.cur := rfl
@[simp] theorem completeOk_prev (s : State) : (completeOk s).prev = s.prev := rfl
@[simp] theorem completeOk_ed (s : State) : (completeOk s).ed = s.ed := rfl
@[simp] theorem completeOk_dd (s : State) : (completeOk s).dd = s.dd := rfl
@[simp] theorem completeOk_mem (s : State) : (completeOk s).mem = s.mem := rfl
@[simp] theorem completeOk_platform (s : State) : (completeOk s).platform = s.platform := rfl
@[simp] theorem completeOk_turns (s : State) : (completeOk s).turns = s.turns := rfl
@[simp] theorem completeOk_resp (s : State) : (completeOk s).resp = s.resp := rfl
@[simp] theorem completeOk_races (s : State) : (completeOk s).races = [] := rfl
@[simp] theorem completeOk_unspec (s : State) : (completeOk s).unspec = (if s.races.isEmpty then s.unspec else dstWindow s :: s.unspec) := rfl
@[simp] theorem completeOk_freeCount (s : State) : (completeOk s).freeCount = s.freeCount := rfl

/-! ### completeError -/

@[simp] theorem completeError_decCeil (c : Cause) (i : Word) (s : State) : (completeError c i s).decCeil = s.decCeil := rfl
@[simp] theorem completeError_irqEn (c : Cause) (i : Word) (s : State) : (completeError c i s).irqEn = s.irqEn := rfl
@[simp] theorem completeError_busy (c : Cause) (i : Word) (s : State) : (completeError c i s).busy = false := rfl
@[simp] theorem completeError_done (c : Cause) (i : Word) (s : State) : (completeError c i s).done = true := rfl
@[simp] theorem completeError_err (c : Cause) (i : Word) (s : State) : (completeError c i s).err = true := rfl
@[simp] theorem completeError_ign (c : Cause) (i : Word) (s : State) : (completeError c i s).ign = s.ign := rfl
@[simp] theorem completeError_mode (c : Cause) (i : Word) (s : State) : (completeError c i s).mode = s.mode := rfl
@[simp] theorem completeError_cause (c : Cause) (i : Word) (s : State) : (completeError c i s).cause = c := rfl
@[simp] theorem completeError_errInfo (c : Cause) (i : Word) (s : State) : (completeError c i s).errInfo = i := rfl
@[simp] theorem completeError_srcAddr (c : Cause) (i : Word) (s : State) : (completeError c i s).srcAddr = s.srcAddr := rfl
@[simp] theorem completeError_srcLen (c : Cause) (i : Word) (s : State) : (completeError c i s).srcLen = s.srcLen := rfl
@[simp] theorem completeError_dstAddr (c : Cause) (i : Word) (s : State) : (completeError c i s).dstAddr = s.dstAddr := rfl
@[simp] theorem completeError_dstCap (c : Cause) (i : Word) (s : State) : (completeError c i s).dstCap = s.dstCap := rfl
@[simp] theorem completeError_inPos (c : Cause) (i : Word) (s : State) : (completeError c i s).inPos = s.inPos := rfl
@[simp] theorem completeError_outLen (c : Cause) (i : Word) (s : State) : (completeError c i s).outLen = s.outLen := rfl
@[simp] theorem completeError_codeCount (c : Cause) (i : Word) (s : State) : (completeError c i s).codeCount = s.codeCount := rfl
@[simp] theorem completeError_dictNext (c : Cause) (i : Word) (s : State) : (completeError c i s).dictNext = s.dictNext := rfl
@[simp] theorem completeError_cur (c : Cause) (i : Word) (s : State) : (completeError c i s).cur = s.cur := rfl
@[simp] theorem completeError_prev (c : Cause) (i : Word) (s : State) : (completeError c i s).prev = s.prev := rfl
@[simp] theorem completeError_ed (c : Cause) (i : Word) (s : State) : (completeError c i s).ed = s.ed := rfl
@[simp] theorem completeError_dd (c : Cause) (i : Word) (s : State) : (completeError c i s).dd = s.dd := rfl
@[simp] theorem completeError_mem (c : Cause) (i : Word) (s : State) : (completeError c i s).mem = s.mem := rfl
@[simp] theorem completeError_platform (c : Cause) (i : Word) (s : State) : (completeError c i s).platform = s.platform := rfl
@[simp] theorem completeError_turns (c : Cause) (i : Word) (s : State) : (completeError c i s).turns = s.turns := rfl
@[simp] theorem completeError_resp (c : Cause) (i : Word) (s : State) : (completeError c i s).resp = s.resp := rfl
@[simp] theorem completeError_races (c : Cause) (i : Word) (s : State) : (completeError c i s).races = [] := rfl
@[simp] theorem completeError_unspec (c : Cause) (i : Word) (s : State) : (completeError c i s).unspec = (if s.races.isEmpty then s.unspec else dstWindow s :: s.unspec) := rfl
@[simp] theorem completeError_freeCount (c : Cause) (i : Word) (s : State) : (completeError c i s).freeCount = s.freeCount := rfl

/-! ### encoderInit -/

@[simp] theorem encoderInit_decCeil (s : State) : (encoderInit s).decCeil = s.decCeil := rfl
@[simp] theorem encoderInit_irqEn (s : State) : (encoderInit s).irqEn = s.irqEn := rfl
@[simp] theorem encoderInit_busy (s : State) : (encoderInit s).busy = s.busy := rfl
@[simp] theorem encoderInit_done (s : State) : (encoderInit s).done = s.done := rfl
@[simp] theorem encoderInit_err (s : State) : (encoderInit s).err = s.err := rfl
@[simp] theorem encoderInit_ign (s : State) : (encoderInit s).ign = s.ign := rfl
@[simp] theorem encoderInit_mode (s : State) : (encoderInit s).mode = s.mode := rfl
@[simp] theorem encoderInit_cause (s : State) : (encoderInit s).cause = s.cause := rfl
@[simp] theorem encoderInit_errInfo (s : State) : (encoderInit s).errInfo = s.errInfo := rfl
@[simp] theorem encoderInit_srcAddr (s : State) : (encoderInit s).srcAddr = s.srcAddr := rfl
@[simp] theorem encoderInit_srcLen (s : State) : (encoderInit s).srcLen = s.srcLen := rfl
@[simp] theorem encoderInit_dstAddr (s : State) : (encoderInit s).dstAddr = s.dstAddr := rfl
@[simp] theorem encoderInit_dstCap (s : State) : (encoderInit s).dstCap = s.dstCap := rfl
@[simp] theorem encoderInit_inPos (s : State) : (encoderInit s).inPos = s.inPos := rfl
@[simp] theorem encoderInit_outLen (s : State) : (encoderInit s).outLen = s.outLen := rfl
@[simp] theorem encoderInit_codeCount (s : State) : (encoderInit s).codeCount = s.codeCount := rfl
@[simp] theorem encoderInit_dictNext (s : State) : (encoderInit s).dictNext = s.dictNext := rfl
@[simp] theorem encoderInit_cur (s : State) : (encoderInit s).cur = none := rfl
@[simp] theorem encoderInit_prev (s : State) : (encoderInit s).prev = s.prev := rfl
@[simp] theorem encoderInit_ed (s : State) : (encoderInit s).ed = s.ed := rfl
@[simp] theorem encoderInit_dd (s : State) : (encoderInit s).dd = s.dd := rfl
@[simp] theorem encoderInit_mem (s : State) : (encoderInit s).mem = s.mem := rfl
@[simp] theorem encoderInit_platform (s : State) : (encoderInit s).platform = s.platform := rfl
@[simp] theorem encoderInit_turns (s : State) : (encoderInit s).turns = s.turns := rfl
@[simp] theorem encoderInit_resp (s : State) : (encoderInit s).resp = s.resp := rfl
@[simp] theorem encoderInit_races (s : State) : (encoderInit s).races = s.races := rfl
@[simp] theorem encoderInit_unspec (s : State) : (encoderInit s).unspec = s.unspec := rfl
@[simp] theorem encoderInit_freeCount (s : State) : (encoderInit s).freeCount = s.freeCount := rfl

/-! ### decoderInit -/

@[simp] theorem decoderInit_decCeil (s : State) : (decoderInit s).decCeil = s.decCeil := rfl
@[simp] theorem decoderInit_irqEn (s : State) : (decoderInit s).irqEn = s.irqEn := rfl
@[simp] theorem decoderInit_busy (s : State) : (decoderInit s).busy = s.busy := rfl
@[simp] theorem decoderInit_done (s : State) : (decoderInit s).done = s.done := rfl
@[simp] theorem decoderInit_err (s : State) : (decoderInit s).err = s.err := rfl
@[simp] theorem decoderInit_ign (s : State) : (decoderInit s).ign = s.ign := rfl
@[simp] theorem decoderInit_mode (s : State) : (decoderInit s).mode = s.mode := rfl
@[simp] theorem decoderInit_cause (s : State) : (decoderInit s).cause = s.cause := rfl
@[simp] theorem decoderInit_errInfo (s : State) : (decoderInit s).errInfo = s.errInfo := rfl
@[simp] theorem decoderInit_srcAddr (s : State) : (decoderInit s).srcAddr = s.srcAddr := rfl
@[simp] theorem decoderInit_srcLen (s : State) : (decoderInit s).srcLen = s.srcLen := rfl
@[simp] theorem decoderInit_dstAddr (s : State) : (decoderInit s).dstAddr = s.dstAddr := rfl
@[simp] theorem decoderInit_dstCap (s : State) : (decoderInit s).dstCap = s.dstCap := rfl
@[simp] theorem decoderInit_inPos (s : State) : (decoderInit s).inPos = s.inPos := rfl
@[simp] theorem decoderInit_outLen (s : State) : (decoderInit s).outLen = s.outLen := rfl
@[simp] theorem decoderInit_codeCount (s : State) : (decoderInit s).codeCount = s.codeCount := rfl
@[simp] theorem decoderInit_dictNext (s : State) : (decoderInit s).dictNext = s.dictNext := rfl
@[simp] theorem decoderInit_cur (s : State) : (decoderInit s).cur = s.cur := rfl
@[simp] theorem decoderInit_prev (s : State) : (decoderInit s).prev = none := rfl
@[simp] theorem decoderInit_ed (s : State) : (decoderInit s).ed = s.ed := rfl
@[simp] theorem decoderInit_dd (s : State) : (decoderInit s).dd = s.dd := rfl
@[simp] theorem decoderInit_mem (s : State) : (decoderInit s).mem = s.mem := rfl
@[simp] theorem decoderInit_platform (s : State) : (decoderInit s).platform = s.platform := rfl
@[simp] theorem decoderInit_turns (s : State) : (decoderInit s).turns = s.turns := rfl
@[simp] theorem decoderInit_resp (s : State) : (decoderInit s).resp = s.resp := rfl
@[simp] theorem decoderInit_races (s : State) : (decoderInit s).races = s.races := rfl
@[simp] theorem decoderInit_unspec (s : State) : (decoderInit s).unspec = s.unspec := rfl
@[simp] theorem decoderInit_freeCount (s : State) : (decoderInit s).freeCount = s.freeCount := rfl

/-! ### accept_encode -/

@[simp] theorem accept_encode_decCeil (s : State) : (accept .encode s).decCeil = s.decCeil := rfl
@[simp] theorem accept_encode_irqEn (s : State) : (accept .encode s).irqEn = s.irqEn := rfl
@[simp] theorem accept_encode_busy (s : State) : (accept .encode s).busy = true := rfl
@[simp] theorem accept_encode_done (s : State) : (accept .encode s).done = s.done := rfl
@[simp] theorem accept_encode_err (s : State) : (accept .encode s).err = s.err := rfl
@[simp] theorem accept_encode_ign (s : State) : (accept .encode s).ign = s.ign := rfl
@[simp] theorem accept_encode_mode (s : State) : (accept .encode s).mode = s.mode := rfl
@[simp] theorem accept_encode_cause (s : State) : (accept .encode s).cause = s.cause := rfl
@[simp] theorem accept_encode_errInfo (s : State) : (accept .encode s).errInfo = s.errInfo := rfl
@[simp] theorem accept_encode_srcAddr (s : State) : (accept .encode s).srcAddr = s.srcAddr := rfl
@[simp] theorem accept_encode_srcLen (s : State) : (accept .encode s).srcLen = s.srcLen := rfl
@[simp] theorem accept_encode_dstAddr (s : State) : (accept .encode s).dstAddr = s.dstAddr := rfl
@[simp] theorem accept_encode_dstCap (s : State) : (accept .encode s).dstCap = s.dstCap := rfl
@[simp] theorem accept_encode_inPos (s : State) : (accept .encode s).inPos = s.inPos := rfl
@[simp] theorem accept_encode_outLen (s : State) : (accept .encode s).outLen = s.outLen := rfl
@[simp] theorem accept_encode_codeCount (s : State) : (accept .encode s).codeCount = s.codeCount := rfl
@[simp] theorem accept_encode_dictNext (s : State) : (accept .encode s).dictNext = 256 := rfl
@[simp] theorem accept_encode_cur (s : State) : (accept .encode s).cur = none := rfl
@[simp] theorem accept_encode_prev (s : State) : (accept .encode s).prev = s.prev := rfl
@[simp] theorem accept_encode_ed (s : State) : (accept .encode s).ed = s.ed := rfl
@[simp] theorem accept_encode_dd (s : State) : (accept .encode s).dd = s.dd := rfl
@[simp] theorem accept_encode_mem (s : State) : (accept .encode s).mem = s.mem := rfl
@[simp] theorem accept_encode_platform (s : State) : (accept .encode s).platform = s.platform := rfl
@[simp] theorem accept_encode_turns (s : State) : (accept .encode s).turns = s.turns := rfl
@[simp] theorem accept_encode_resp (s : State) : (accept .encode s).resp = s.resp := rfl
@[simp] theorem accept_encode_races (s : State) : (accept .encode s).races = [] := rfl
@[simp] theorem accept_encode_unspec (s : State) : (accept .encode s).unspec = s.unspec := rfl
@[simp] theorem accept_encode_freeCount (s : State) : (accept .encode s).freeCount = s.freeCount := rfl

/-! ### accept_decode -/

@[simp] theorem accept_decode_decCeil (s : State) : (accept .decode s).decCeil = s.decCeil := rfl
@[simp] theorem accept_decode_irqEn (s : State) : (accept .decode s).irqEn = s.irqEn := rfl
@[simp] theorem accept_decode_busy (s : State) : (accept .decode s).busy = true := rfl
@[simp] theorem accept_decode_done (s : State) : (accept .decode s).done = s.done := rfl
@[simp] theorem accept_decode_err (s : State) : (accept .decode s).err = s.err := rfl
@[simp] theorem accept_decode_ign (s : State) : (accept .decode s).ign = s.ign := rfl
@[simp] theorem accept_decode_mode (s : State) : (accept .decode s).mode = s.mode := rfl
@[simp] theorem accept_decode_cause (s : State) : (accept .decode s).cause = s.cause := rfl
@[simp] theorem accept_decode_errInfo (s : State) : (accept .decode s).errInfo = s.errInfo := rfl
@[simp] theorem accept_decode_srcAddr (s : State) : (accept .decode s).srcAddr = s.srcAddr := rfl
@[simp] theorem accept_decode_srcLen (s : State) : (accept .decode s).srcLen = s.srcLen := rfl
@[simp] theorem accept_decode_dstAddr (s : State) : (accept .decode s).dstAddr = s.dstAddr := rfl
@[simp] theorem accept_decode_dstCap (s : State) : (accept .decode s).dstCap = s.dstCap := rfl
@[simp] theorem accept_decode_inPos (s : State) : (accept .decode s).inPos = s.inPos := rfl
@[simp] theorem accept_decode_outLen (s : State) : (accept .decode s).outLen = s.outLen := rfl
@[simp] theorem accept_decode_codeCount (s : State) : (accept .decode s).codeCount = s.codeCount := rfl
@[simp] theorem accept_decode_dictNext (s : State) : (accept .decode s).dictNext = 256 := rfl
@[simp] theorem accept_decode_cur (s : State) : (accept .decode s).cur = s.cur := rfl
@[simp] theorem accept_decode_prev (s : State) : (accept .decode s).prev = none := rfl
@[simp] theorem accept_decode_ed (s : State) : (accept .decode s).ed = s.ed := rfl
@[simp] theorem accept_decode_dd (s : State) : (accept .decode s).dd = s.dd := rfl
@[simp] theorem accept_decode_mem (s : State) : (accept .decode s).mem = s.mem := rfl
@[simp] theorem accept_decode_platform (s : State) : (accept .decode s).platform = s.platform := rfl
@[simp] theorem accept_decode_turns (s : State) : (accept .decode s).turns = s.turns := rfl
@[simp] theorem accept_decode_resp (s : State) : (accept .decode s).resp = s.resp := rfl
@[simp] theorem accept_decode_races (s : State) : (accept .decode s).races = [] := rfl
@[simp] theorem accept_decode_unspec (s : State) : (accept .decode s).unspec = s.unspec := rfl
@[simp] theorem accept_decode_freeCount (s : State) : (accept .decode s).freeCount = s.freeCount := rfl

/-! ### drawByte -/

@[simp] theorem drawByte_decCeil (s : State) : (drawByte s).2.decCeil = s.decCeil := rfl
@[simp] theorem drawByte_irqEn (s : State) : (drawByte s).2.irqEn = s.irqEn := rfl
@[simp] theorem drawByte_busy (s : State) : (drawByte s).2.busy = s.busy := rfl
@[simp] theorem drawByte_done (s : State) : (drawByte s).2.done = s.done := rfl
@[simp] theorem drawByte_err (s : State) : (drawByte s).2.err = s.err := rfl
@[simp] theorem drawByte_ign (s : State) : (drawByte s).2.ign = s.ign := rfl
@[simp] theorem drawByte_mode (s : State) : (drawByte s).2.mode = s.mode := rfl
@[simp] theorem drawByte_cause (s : State) : (drawByte s).2.cause = s.cause := rfl
@[simp] theorem drawByte_errInfo (s : State) : (drawByte s).2.errInfo = s.errInfo := rfl
@[simp] theorem drawByte_srcAddr (s : State) : (drawByte s).2.srcAddr = s.srcAddr := rfl
@[simp] theorem drawByte_srcLen (s : State) : (drawByte s).2.srcLen = s.srcLen := rfl
@[simp] theorem drawByte_dstAddr (s : State) : (drawByte s).2.dstAddr = s.dstAddr := rfl
@[simp] theorem drawByte_dstCap (s : State) : (drawByte s).2.dstCap = s.dstCap := rfl
@[simp] theorem drawByte_inPos (s : State) : (drawByte s).2.inPos = s.inPos := rfl
@[simp] theorem drawByte_outLen (s : State) : (drawByte s).2.outLen = s.outLen := rfl
@[simp] theorem drawByte_codeCount (s : State) : (drawByte s).2.codeCount = s.codeCount := rfl
@[simp] theorem drawByte_dictNext (s : State) : (drawByte s).2.dictNext = s.dictNext := rfl
@[simp] theorem drawByte_cur (s : State) : (drawByte s).2.cur = s.cur := rfl
@[simp] theorem drawByte_prev (s : State) : (drawByte s).2.prev = s.prev := rfl
@[simp] theorem drawByte_ed (s : State) : (drawByte s).2.ed = s.ed := rfl
@[simp] theorem drawByte_dd (s : State) : (drawByte s).2.dd = s.dd := rfl
@[simp] theorem drawByte_mem (s : State) : (drawByte s).2.mem = s.mem := rfl
@[simp] theorem drawByte_platform (s : State) : (drawByte s).2.platform = s.platform := rfl
@[simp] theorem drawByte_turns (s : State) : (drawByte s).2.turns = s.turns := rfl
@[simp] theorem drawByte_resp (s : State) : (drawByte s).2.resp = s.resp := rfl
@[simp] theorem drawByte_races (s : State) : (drawByte s).2.races = s.races := rfl
@[simp] theorem drawByte_unspec (s : State) : (drawByte s).2.unspec = s.unspec := rfl
@[simp] theorem drawByte_freeCount (s : State) : (drawByte s).2.freeCount = s.freeCount + 1 := rfl

/-! ### busStore -/

@[simp] theorem busStore_decCeil (a : Nat) (v : Byte) (s : State) : (busStore a v s).decCeil = s.decCeil := rfl
@[simp] theorem busStore_irqEn (a : Nat) (v : Byte) (s : State) : (busStore a v s).irqEn = s.irqEn := rfl
@[simp] theorem busStore_busy (a : Nat) (v : Byte) (s : State) : (busStore a v s).busy = s.busy := rfl
@[simp] theorem busStore_done (a : Nat) (v : Byte) (s : State) : (busStore a v s).done = s.done := rfl
@[simp] theorem busStore_err (a : Nat) (v : Byte) (s : State) : (busStore a v s).err = s.err := rfl
@[simp] theorem busStore_ign (a : Nat) (v : Byte) (s : State) : (busStore a v s).ign = s.ign := rfl
@[simp] theorem busStore_mode (a : Nat) (v : Byte) (s : State) : (busStore a v s).mode = s.mode := rfl
@[simp] theorem busStore_cause (a : Nat) (v : Byte) (s : State) : (busStore a v s).cause = s.cause := rfl
@[simp] theorem busStore_errInfo (a : Nat) (v : Byte) (s : State) : (busStore a v s).errInfo = s.errInfo := rfl
@[simp] theorem busStore_srcAddr (a : Nat) (v : Byte) (s : State) : (busStore a v s).srcAddr = s.srcAddr := rfl
@[simp] theorem busStore_srcLen (a : Nat) (v : Byte) (s : State) : (busStore a v s).srcLen = s.srcLen := rfl
@[simp] theorem busStore_dstAddr (a : Nat) (v : Byte) (s : State) : (busStore a v s).dstAddr = s.dstAddr := rfl
@[simp] theorem busStore_dstCap (a : Nat) (v : Byte) (s : State) : (busStore a v s).dstCap = s.dstCap := rfl
@[simp] theorem busStore_inPos (a : Nat) (v : Byte) (s : State) : (busStore a v s).inPos = s.inPos := rfl
@[simp] theorem busStore_outLen (a : Nat) (v : Byte) (s : State) : (busStore a v s).outLen = s.outLen := rfl
@[simp] theorem busStore_codeCount (a : Nat) (v : Byte) (s : State) : (busStore a v s).codeCount = s.codeCount := rfl
@[simp] theorem busStore_dictNext (a : Nat) (v : Byte) (s : State) : (busStore a v s).dictNext = s.dictNext := rfl
@[simp] theorem busStore_cur (a : Nat) (v : Byte) (s : State) : (busStore a v s).cur = s.cur := rfl
@[simp] theorem busStore_prev (a : Nat) (v : Byte) (s : State) : (busStore a v s).prev = s.prev := rfl
@[simp] theorem busStore_ed (a : Nat) (v : Byte) (s : State) : (busStore a v s).ed = s.ed := rfl
@[simp] theorem busStore_dd (a : Nat) (v : Byte) (s : State) : (busStore a v s).dd = s.dd := rfl
@[simp] theorem busStore_mem (a : Nat) (v : Byte) (s : State) : (busStore a v s).mem = Memory.write a v s.mem := rfl
@[simp] theorem busStore_platform (a : Nat) (v : Byte) (s : State) : (busStore a v s).platform = s.platform := rfl
@[simp] theorem busStore_turns (a : Nat) (v : Byte) (s : State) : (busStore a v s).turns = s.turns := rfl
@[simp] theorem busStore_resp (a : Nat) (v : Byte) (s : State) : (busStore a v s).resp = s.resp := rfl
@[simp] theorem busStore_races (a : Nat) (v : Byte) (s : State) : (busStore a v s).races = s.races := rfl
@[simp] theorem busStore_unspec (a : Nat) (v : Byte) (s : State) : (busStore a v s).unspec = s.unspec.flatMap (windowCut a) := rfl
@[simp] theorem busStore_freeCount (a : Nat) (v : Byte) (s : State) : (busStore a v s).freeCount = s.freeCount := rfl

/-! ### agentStore -/

@[simp] theorem agentStore_decCeil (a : Nat) (v : Byte) (s : State) : (agentStore a v s).decCeil = s.decCeil := rfl
@[simp] theorem agentStore_irqEn (a : Nat) (v : Byte) (s : State) : (agentStore a v s).irqEn = s.irqEn := rfl
@[simp] theorem agentStore_busy (a : Nat) (v : Byte) (s : State) : (agentStore a v s).busy = s.busy := rfl
@[simp] theorem agentStore_done (a : Nat) (v : Byte) (s : State) : (agentStore a v s).done = s.done := rfl
@[simp] theorem agentStore_err (a : Nat) (v : Byte) (s : State) : (agentStore a v s).err = s.err := rfl
@[simp] theorem agentStore_ign (a : Nat) (v : Byte) (s : State) : (agentStore a v s).ign = s.ign := rfl
@[simp] theorem agentStore_mode (a : Nat) (v : Byte) (s : State) : (agentStore a v s).mode = s.mode := rfl
@[simp] theorem agentStore_cause (a : Nat) (v : Byte) (s : State) : (agentStore a v s).cause = s.cause := rfl
@[simp] theorem agentStore_errInfo (a : Nat) (v : Byte) (s : State) : (agentStore a v s).errInfo = s.errInfo := rfl
@[simp] theorem agentStore_srcAddr (a : Nat) (v : Byte) (s : State) : (agentStore a v s).srcAddr = s.srcAddr := rfl
@[simp] theorem agentStore_srcLen (a : Nat) (v : Byte) (s : State) : (agentStore a v s).srcLen = s.srcLen := rfl
@[simp] theorem agentStore_dstAddr (a : Nat) (v : Byte) (s : State) : (agentStore a v s).dstAddr = s.dstAddr := rfl
@[simp] theorem agentStore_dstCap (a : Nat) (v : Byte) (s : State) : (agentStore a v s).dstCap = s.dstCap := rfl
@[simp] theorem agentStore_inPos (a : Nat) (v : Byte) (s : State) : (agentStore a v s).inPos = s.inPos := rfl
@[simp] theorem agentStore_outLen (a : Nat) (v : Byte) (s : State) : (agentStore a v s).outLen = s.outLen := rfl
@[simp] theorem agentStore_codeCount (a : Nat) (v : Byte) (s : State) : (agentStore a v s).codeCount = s.codeCount := rfl
@[simp] theorem agentStore_dictNext (a : Nat) (v : Byte) (s : State) : (agentStore a v s).dictNext = s.dictNext := rfl
@[simp] theorem agentStore_cur (a : Nat) (v : Byte) (s : State) : (agentStore a v s).cur = s.cur := rfl
@[simp] theorem agentStore_prev (a : Nat) (v : Byte) (s : State) : (agentStore a v s).prev = s.prev := rfl
@[simp] theorem agentStore_ed (a : Nat) (v : Byte) (s : State) : (agentStore a v s).ed = s.ed := rfl
@[simp] theorem agentStore_dd (a : Nat) (v : Byte) (s : State) : (agentStore a v s).dd = s.dd := rfl
@[simp] theorem agentStore_mem (a : Nat) (v : Byte) (s : State) : (agentStore a v s).mem = Memory.write a v s.mem := rfl
@[simp] theorem agentStore_platform (a : Nat) (v : Byte) (s : State) : (agentStore a v s).platform = s.platform := rfl
@[simp] theorem agentStore_turns (a : Nat) (v : Byte) (s : State) : (agentStore a v s).turns = s.turns := rfl
@[simp] theorem agentStore_resp (a : Nat) (v : Byte) (s : State) : (agentStore a v s).resp = .written := rfl
@[simp] theorem agentStore_races (a : Nat) (v : Byte) (s : State) : (agentStore a v s).races = (if s.busy && (windowHas (srcWindow s) a || windowHas (dstWindow s) a) then a :: s.races else s.races) := rfl
@[simp] theorem agentStore_unspec (a : Nat) (v : Byte) (s : State) : (agentStore a v s).unspec = s.unspec.flatMap (windowCut a) := rfl
@[simp] theorem agentStore_freeCount (a : Nat) (v : Byte) (s : State) : (agentStore a v s).freeCount = s.freeCount := rfl

/-! ### resetBlock -/

@[simp] theorem resetBlock_decCeil (s : State) : (resetBlock s).decCeil = State.reset.decCeil := rfl
@[simp] theorem resetBlock_irqEn (s : State) : (resetBlock s).irqEn = State.reset.irqEn := rfl
@[simp] theorem resetBlock_busy (s : State) : (resetBlock s).busy = State.reset.busy := rfl
@[simp] theorem resetBlock_done (s : State) : (resetBlock s).done = State.reset.done := rfl
@[simp] theorem resetBlock_err (s : State) : (resetBlock s).err = State.reset.err := rfl
@[simp] theorem resetBlock_ign (s : State) : (resetBlock s).ign = State.reset.ign := rfl
@[simp] theorem resetBlock_mode (s : State) : (resetBlock s).mode = State.reset.mode := rfl
@[simp] theorem resetBlock_cause (s : State) : (resetBlock s).cause = State.reset.cause := rfl
@[simp] theorem resetBlock_errInfo (s : State) : (resetBlock s).errInfo = State.reset.errInfo := rfl
@[simp] theorem resetBlock_srcAddr (s : State) : (resetBlock s).srcAddr = State.reset.srcAddr := rfl
@[simp] theorem resetBlock_srcLen (s : State) : (resetBlock s).srcLen = State.reset.srcLen := rfl
@[simp] theorem resetBlock_dstAddr (s : State) : (resetBlock s).dstAddr = State.reset.dstAddr := rfl
@[simp] theorem resetBlock_dstCap (s : State) : (resetBlock s).dstCap = State.reset.dstCap := rfl
@[simp] theorem resetBlock_inPos (s : State) : (resetBlock s).inPos = State.reset.inPos := rfl
@[simp] theorem resetBlock_outLen (s : State) : (resetBlock s).outLen = State.reset.outLen := rfl
@[simp] theorem resetBlock_codeCount (s : State) : (resetBlock s).codeCount = State.reset.codeCount := rfl
@[simp] theorem resetBlock_dictNext (s : State) : (resetBlock s).dictNext = State.reset.dictNext := rfl
@[simp] theorem resetBlock_cur (s : State) : (resetBlock s).cur = State.reset.cur := rfl
@[simp] theorem resetBlock_prev (s : State) : (resetBlock s).prev = State.reset.prev := rfl
@[simp] theorem resetBlock_ed (s : State) : (resetBlock s).ed = State.reset.ed := rfl
@[simp] theorem resetBlock_dd (s : State) : (resetBlock s).dd = State.reset.dd := rfl
@[simp] theorem resetBlock_mem (s : State) : (resetBlock s).mem = s.mem := rfl
@[simp] theorem resetBlock_platform (s : State) : (resetBlock s).platform = s.platform := rfl
@[simp] theorem resetBlock_turns (s : State) : (resetBlock s).turns = s.turns := rfl
@[simp] theorem resetBlock_resp (s : State) : (resetBlock s).resp = s.resp := rfl
@[simp] theorem resetBlock_races (s : State) : (resetBlock s).races = State.reset.races := rfl
@[simp] theorem resetBlock_unspec (s : State) : (resetBlock s).unspec = (if s.races.isEmpty then s.unspec else dstWindow s :: s.unspec) := rfl
@[simp] theorem resetBlock_freeCount (s : State) : (resetBlock s).freeCount = s.freeCount := rfl

/-! ### setBusFaults -/

@[simp] theorem setBusFaults_decCeil (r w : List Window) (s : State) : (setBusFaults r w s).decCeil = s.decCeil := rfl
@[simp] theorem setBusFaults_irqEn (r w : List Window) (s : State) : (setBusFaults r w s).irqEn = s.irqEn := rfl
@[simp] theorem setBusFaults_busy (r w : List Window) (s : State) : (setBusFaults r w s).busy = s.busy := rfl
@[simp] theorem setBusFaults_done (r w : List Window) (s : State) : (setBusFaults r w s).done = s.done := rfl
@[simp] theorem setBusFaults_err (r w : List Window) (s : State) : (setBusFaults r w s).err = s.err := rfl
@[simp] theorem setBusFaults_ign (r w : List Window) (s : State) : (setBusFaults r w s).ign = s.ign := rfl
@[simp] theorem setBusFaults_mode (r w : List Window) (s : State) : (setBusFaults r w s).mode = s.mode := rfl
@[simp] theorem setBusFaults_cause (r w : List Window) (s : State) : (setBusFaults r w s).cause = s.cause := rfl
@[simp] theorem setBusFaults_errInfo (r w : List Window) (s : State) : (setBusFaults r w s).errInfo = s.errInfo := rfl
@[simp] theorem setBusFaults_srcAddr (r w : List Window) (s : State) : (setBusFaults r w s).srcAddr = s.srcAddr := rfl
@[simp] theorem setBusFaults_srcLen (r w : List Window) (s : State) : (setBusFaults r w s).srcLen = s.srcLen := rfl
@[simp] theorem setBusFaults_dstAddr (r w : List Window) (s : State) : (setBusFaults r w s).dstAddr = s.dstAddr := rfl
@[simp] theorem setBusFaults_dstCap (r w : List Window) (s : State) : (setBusFaults r w s).dstCap = s.dstCap := rfl
@[simp] theorem setBusFaults_inPos (r w : List Window) (s : State) : (setBusFaults r w s).inPos = s.inPos := rfl
@[simp] theorem setBusFaults_outLen (r w : List Window) (s : State) : (setBusFaults r w s).outLen = s.outLen := rfl
@[simp] theorem setBusFaults_codeCount (r w : List Window) (s : State) : (setBusFaults r w s).codeCount = s.codeCount := rfl
@[simp] theorem setBusFaults_dictNext (r w : List Window) (s : State) : (setBusFaults r w s).dictNext = s.dictNext := rfl
@[simp] theorem setBusFaults_cur (r w : List Window) (s : State) : (setBusFaults r w s).cur = s.cur := rfl
@[simp] theorem setBusFaults_prev (r w : List Window) (s : State) : (setBusFaults r w s).prev = s.prev := rfl
@[simp] theorem setBusFaults_ed (r w : List Window) (s : State) : (setBusFaults r w s).ed = s.ed := rfl
@[simp] theorem setBusFaults_dd (r w : List Window) (s : State) : (setBusFaults r w s).dd = s.dd := rfl
@[simp] theorem setBusFaults_mem (r w : List Window) (s : State) : (setBusFaults r w s).mem = s.mem := rfl
@[simp] theorem setBusFaults_platform (r w : List Window) (s : State) : (setBusFaults r w s).platform = { s.platform with readFaults := r, writeFaults := w } := rfl
@[simp] theorem setBusFaults_turns (r w : List Window) (s : State) : (setBusFaults r w s).turns = s.turns := rfl
@[simp] theorem setBusFaults_resp (r w : List Window) (s : State) : (setBusFaults r w s).resp = s.resp := rfl
@[simp] theorem setBusFaults_races (r w : List Window) (s : State) : (setBusFaults r w s).races = s.races := rfl
@[simp] theorem setBusFaults_unspec (r w : List Window) (s : State) : (setBusFaults r w s).unspec = s.unspec := rfl
@[simp] theorem setBusFaults_freeCount (r w : List Window) (s : State) : (setBusFaults r w s).freeCount = s.freeCount := rfl

/-! ### outsideView -/

@[simp] theorem outsideView_decCeil (s : State) : (outsideView s).decCeil = s.decCeil := rfl
@[simp] theorem outsideView_irqEn (s : State) : (outsideView s).irqEn = s.irqEn := rfl
@[simp] theorem outsideView_busy (s : State) : (outsideView s).busy = s.busy := rfl
@[simp] theorem outsideView_done (s : State) : (outsideView s).done = s.done := rfl
@[simp] theorem outsideView_err (s : State) : (outsideView s).err = s.err := rfl
@[simp] theorem outsideView_ign (s : State) : (outsideView s).ign = s.ign := rfl
@[simp] theorem outsideView_mode (s : State) : (outsideView s).mode = s.mode := rfl
@[simp] theorem outsideView_cause (s : State) : (outsideView s).cause = s.cause := rfl
@[simp] theorem outsideView_errInfo (s : State) : (outsideView s).errInfo = s.errInfo := rfl
@[simp] theorem outsideView_srcAddr (s : State) : (outsideView s).srcAddr = s.srcAddr := rfl
@[simp] theorem outsideView_srcLen (s : State) : (outsideView s).srcLen = s.srcLen := rfl
@[simp] theorem outsideView_dstAddr (s : State) : (outsideView s).dstAddr = s.dstAddr := rfl
@[simp] theorem outsideView_dstCap (s : State) : (outsideView s).dstCap = s.dstCap := rfl
@[simp] theorem outsideView_inPos (s : State) : (outsideView s).inPos = s.inPos := rfl
@[simp] theorem outsideView_outLen (s : State) : (outsideView s).outLen = s.outLen := rfl
@[simp] theorem outsideView_codeCount (s : State) : (outsideView s).codeCount = s.codeCount := rfl
@[simp] theorem outsideView_dictNext (s : State) : (outsideView s).dictNext = s.dictNext := rfl
@[simp] theorem outsideView_cur (s : State) : (outsideView s).cur = none := rfl
@[simp] theorem outsideView_prev (s : State) : (outsideView s).prev = none := rfl
@[simp] theorem outsideView_ed (s : State) : (outsideView s).ed = [] := rfl
@[simp] theorem outsideView_dd (s : State) : (outsideView s).dd = [] := rfl
@[simp] theorem outsideView_mem (s : State) : (outsideView s).mem = s.mem := rfl
@[simp] theorem outsideView_platform (s : State) : (outsideView s).platform = s.platform := rfl
@[simp] theorem outsideView_turns (s : State) : (outsideView s).turns = s.turns := rfl
@[simp] theorem outsideView_resp (s : State) : (outsideView s).resp = s.resp := rfl
@[simp] theorem outsideView_races (s : State) : (outsideView s).races = s.races := rfl
@[simp] theorem outsideView_unspec (s : State) : (outsideView s).unspec = s.unspec := rfl
@[simp] theorem outsideView_freeCount (s : State) : (outsideView s).freeCount = s.freeCount := rfl

end Sys2Proof.Machine
end

