-- ==== Sys2Proof/Laws/Memory.lean ====
section
/-! SUPPORT. The laws of data by key, of bus memory, of dictionaries and of windows: read after write, and the canonical form. -/

namespace Sys2Proof.Machine

/-! ### Data by key -/

theorem assocGet_put {α : Type} (k j : Nat) (v : α) (l : List (Nat × α)) :
    assocGet j (assocPut k v l) = if j = k then some v else assocGet j l := by
  induction l with
  | nil =>
    by_cases h : j = k
    · simp [assocPut, assocGet, h]
    · simp [assocPut, assocGet, h, Ne.symm h]
  | cons c r ih =>
    simp only [assocPut]
    split
    · by_cases h : j = k
      · simp [assocGet, h]
      · simp [assocGet, h, Ne.symm h]
    · split
      · rename_i _ hc
        by_cases h : j = k
        · simp [assocGet, h]
        · simp [assocGet, h, Ne.symm h, hc]
      · by_cases hj : c.1 = j
        · have : j ≠ k := by omega
          simp [assocGet, hj, this]
        · simp [assocGet, hj, ih]

theorem assocGet_del {α : Type} (k j : Nat) (l : List (Nat × α)) :
    assocGet j (assocDel k l) = if j = k then none else assocGet j l := by
  induction l with
  | nil => simp [assocDel, assocGet]
  | cons c r ih =>
    simp only [assocDel]
    by_cases hc : c.1 = k
    · simp only [hc, if_true, ih, assocGet]
      by_cases h : j = k
      · simp [h]
      · simp [h, Ne.symm h]
    · by_cases hj : c.1 = j
      · have : j ≠ k := by omega
        rw [if_neg hc, if_neg this]
        simp [assocGet, hj]
      · simp [hc, assocGet, hj, ih]

theorem mem_assocPut {α : Type} {k : Nat} {v : α} {l : List (Nat × α)} {c : Nat × α} (h : c ∈ assocPut k v l) :
    c = (k, v) ∨ c ∈ l := by
  induction l with
  | nil => simpa [assocPut] using h
  | cons d r ih =>
    simp only [assocPut] at h
    split at h
    · simpa using h
    · split at h
      · rcases List.mem_cons.1 h with h | h
        · exact .inl h
        · exact .inr (List.mem_cons_of_mem _ h)
      · rcases List.mem_cons.1 h with h | h
        · exact .inr (by simp [h])
        · rcases ih h with h | h
          · exact .inl h
          · exact .inr (List.mem_cons_of_mem _ h)

theorem mem_assocDel {α : Type} {k : Nat} {l : List (Nat × α)} {c : Nat × α} (h : c ∈ assocDel k l) : c ∈ l := by
  induction l with
  | nil => exact h
  | cons d r ih =>
    simp only [assocDel] at h
    split at h
    · exact List.mem_cons_of_mem _ (ih h)
    · rcases List.mem_cons.1 h with h | h
      · simp [h]
      · exact List.mem_cons_of_mem _ (ih h)

theorem assocPut_rising {α : Type} {k : Nat} {v : α} {l : List (Nat × α)} (h : l.Pairwise (fun x y => x.1 < y.1)) :
    (assocPut k v l).Pairwise (fun x y => x.1 < y.1) := by
  induction l with
  | nil => simp [assocPut]
  | cons c r ih =>
    obtain ⟨hc, hr⟩ := List.pairwise_cons.1 h
    simp only [assocPut]
    split
    · rename_i hk
      refine List.pairwise_cons.2 ⟨fun d hd => ?_, h⟩
      rcases List.mem_cons.1 hd with rfl | hd
      · exact hk
      · exact Nat.lt_trans hk (hc d hd)
    · split
      · rename_i _ hk
        exact List.pairwise_cons.2 ⟨fun d hd => hk ▸ hc d hd, hr⟩
      · rename_i hk hn
        refine List.pairwise_cons.2 ⟨fun d hd => ?_, ih hr⟩
        rcases mem_assocPut hd with rfl | hd
        · show c.1 < k
          omega
        · exact hc d hd

theorem assocDel_rising {α : Type} {k : Nat} {l : List (Nat × α)} (h : l.Pairwise (fun x y => x.1 < y.1)) :
    (assocDel k l).Pairwise (fun x y => x.1 < y.1) := by
  induction l with
  | nil => exact h
  | cons c r ih =>
    obtain ⟨hc, hr⟩ := List.pairwise_cons.1 h
    simp only [assocDel]
    split
    · exact ih hr
    · exact List.pairwise_cons.2 ⟨fun d hd => hc d (mem_assocDel hd), ih hr⟩

/-! ### Bus memory -/

@[simp] theorem Memory.read_nil (a : Nat) : Memory.read [] a = 0 := rfl

theorem Memory.read_write (a b : Nat) (v : Byte) (m : Memory) :
    Memory.read (Memory.write a v m) b = if b = a then v else Memory.read m b := by
  simp only [Memory.read, Memory.write]
  by_cases hv : v = Memory.unlisted
  · simp only [hv, if_true, assocGet_del]
    split <;> simp
  · simp only [hv, if_false, assocGet_put]
    split <;> simp

@[simp] theorem Memory.read_write_same (a : Nat) (v : Byte) (m : Memory) : Memory.read (Memory.write a v m) a = v := by
  simp [Memory.read_write]

theorem Memory.read_write_other {a b : Nat} (v : Byte) (m : Memory) (h : b ≠ a) :
    Memory.read (Memory.write a v m) b = Memory.read m b := by
  simp [Memory.read_write, h]

/-- The one operation that changes memory keeps its canonical form. -/
theorem Memory.wf_write {a : Nat} {v : Byte} {m : Memory} (ha : a < Config.addrSpace) (h : Memory.wf m) :
    Memory.wf (Memory.write a v m) := by
  obtain ⟨hp, hc⟩ := h
  by_cases hv : v = Memory.unlisted
  · simp only [Memory.write, hv, if_true]
    exact ⟨assocDel_rising hp, fun c h => hc c (mem_assocDel h)⟩
  · simp only [Memory.write, hv, if_false]
    refine ⟨assocPut_rising hp, fun c h => ?_⟩
    rcases mem_assocPut h with rfl | h
    · exact ⟨ha, hv⟩
    · exact hc c h

/-! ### Dictionaries -/

theorem Dict.get?_put (d : Dict) (k j : Nat) (e : Entry) :
    (d.put k e).get? j = if j = k then some e else d.get? j := assocGet_put k j e d

/-! ### Windows -/

theorem windowHas_iff (w : Window) (a : Nat) : windowHas w a = true ↔ w.base ≤ a ∧ a < w.base + w.len := by
  simp [windowHas]

theorem covers_iff (ws : List Window) (a : Nat) : covers ws a = true ↔ ∃ w ∈ ws, w.base ≤ a ∧ a < w.base + w.len := by
  simp [covers, windowHas_iff]

@[simp] theorem covers_nil (a : Nat) : covers [] a = false := rfl

theorem windowHas_cut (w : Window) (a b : Nat) : covers (windowCut a w) b = (windowHas w b && b != a) := by
  rw [Bool.eq_iff_iff, covers_iff]
  simp only [Bool.and_eq_true, windowHas_iff, bne_iff_ne, windowCut]
  split
  · rename_i h
    split <;> split <;> simp <;> omega
  · rename_i h
    simp
    omega

/-- Writing a byte takes exactly its address out of the unspecified windows. -/
theorem covers_cut (ws : List Window) (a b : Nat) : covers (ws.flatMap (windowCut a)) b = (covers ws b && b != a) := by
  induction ws with
  | nil => rfl
  | cons w r ih =>
    have h1 : covers ((w :: r).flatMap (windowCut a)) b = (covers (windowCut a w) b || covers (r.flatMap (windowCut a)) b) := by
      simp [covers]
    have h2 : covers (w :: r) b = (windowHas w b || covers r b) := by simp [covers]
    rw [h1, h2, windowHas_cut, ih]
    cases windowHas w b <;> cases covers r b <;> cases b != a <;> rfl

/-- A list of windows that meets no byte of a window covers none of its addresses. -/
theorem covers_of_meetsAny {ws : List Window} {v : Window} {a : Nat} (h : meetsAny ws v = false) (ha : windowHas v a = true) :
    covers ws a = false := by
  rw [Bool.eq_false_iff]
  intro hc
  obtain ⟨w, hw, h1, h2⟩ := (covers_iff ws a).1 hc
  obtain ⟨h3, h4⟩ := (windowHas_iff v a).1 ha
  have : meetsAny ws v = true := by
    simp only [meetsAny, List.any_eq_true]
    refine ⟨w, hw, ?_⟩
    simp [windowMeets]
    omega
  simp [this] at h

end Sys2Proof.Machine
end

