-- ==== Sys2Proof/Laws/Ops.lean ====
section
/-! SUPPORT. For each shared operation, what it can do, said once: the bus primitives, the writing of bytes, the reads of operands.
Provers cite these instead of unfolding the operations. -/

namespace Sys2Proof.Machine

/-! ### Pieces of a step -/

@[simp] theorem Res.bind_ok {α β : Type} (v : α) (s : State) (f : α → State → Res β) : (Res.ok v s).bind f = f v s := rfl

@[simp] theorem Res.bind_raise {α β : Type} (c : Cause) (i : Word) (s : State) (f : α → State → Res β) :
    (Res.raise c i s : Res α).bind f = .raise c i s := rfl

@[simp] theorem Res.bind_stuck {α β : Type} (x : Fault) (f : α → State → Res β) : (Res.stuck x : Res α).bind f = .stuck x := rfl

/-- A piece after another ends well only if both do. -/
theorem Res.bind_eq_ok {α β : Type} {r : Res α} {f : α → State → Res β} {v : β} {t : State} (h : r.bind f = .ok v t) :
    ∃ a s, r = .ok a s ∧ f a s = .ok v t := by
  cases r with
  | ok a s => exact ⟨a, s, rfl, h⟩
  | raise c i s => simp at h
  | stuck x => simp at h

/-- A raise of two pieces is a raise of the first, or of the second after the first. -/
theorem Res.bind_eq_raise {α β : Type} {r : Res α} {f : α → State → Res β} {c : Cause} {i : Word} {t : State}
    (h : r.bind f = .raise c i t) : r = .raise c i t ∨ ∃ a s, r = .ok a s ∧ f a s = .raise c i t := by
  cases r with
  | ok a s => exact .inr ⟨a, s, rfl, h⟩
  | raise c' i' s => simp at h; obtain ⟨rfl, rfl, rfl⟩ := h; exact .inl rfl
  | stuck x => simp at h

/-- A stop of two pieces is a stop of the first, or of the second after the first. -/
theorem Res.bind_eq_stuck {α β : Type} {r : Res α} {f : α → State → Res β} {x : Fault} (h : r.bind f = .stuck x) :
    r = .stuck x ∨ ∃ a s, r = .ok a s ∧ f a s = .stuck x := by
  cases r with
  | ok a s => exact .inr ⟨a, s, rfl, h⟩
  | raise c i s => simp at h
  | stuck y => simp at h; subst h; exact .inl rfl

/-! ### The bus primitives -/

theorem knownByte_busStore (a b : Nat) (v : Byte) (s : State) :
    knownByte (busStore a v s) b = if b = a then some v else knownByte s b := by
  simp only [knownByte, busStore_unspec, busStore_mem, covers_cut, Memory.read_write]
  by_cases h : b = a
  · simp [h]
  · simp [h]

/-- A read that answers draws at most one free value, and changes nothing else. -/
theorem memRead_ok {a : Nat} {i : Word} {s t : State} {b : Byte} (h : memRead a i s = .ok b t) :
    a < Config.addrSpace ∧ busFault s.platform a .read = false ∧ t = { s with freeCount := t.freeCount } := by
  unfold memRead at h
  split at h
  · cases h
  · split at h
    · cases h
    · rename_i h1 h2
      split at h <;> cases h <;> exact ⟨by omega, by simpa using h2, rfl⟩

/-- A read raises only IO_READ, for a bus error, and changes nothing (R73). -/
theorem memRead_raise {a : Nat} {i j : Word} {s t : State} {c : Cause} (h : memRead a i s = .raise c j t) :
    c = .ioRead ∧ j = i ∧ t = s ∧ busFault s.platform a .read = true := by
  unfold memRead at h
  split at h
  · cases h
  · split at h
    · rename_i h2
      cases h
      exact ⟨rfl, rfl, rfl, h2⟩
    · split at h <;> cases h

theorem memRead_stuck {a : Nat} {i : Word} {s : State} {x : Fault} (h : memRead a i s = .stuck x) :
    x = .noAddress ∧ Config.addrSpace ≤ a := by
  unfold memRead at h
  split at h
  · rename_i h1; cases h; exact ⟨rfl, h1⟩
  · split at h
    · cases h
    · split at h <;> cases h

/-- A read of a byte that exists, answers, and is known, gives that byte and changes nothing. -/
theorem memRead_known {a : Nat} {i : Word} {s : State} (ha : a < Config.addrSpace)
    (hf : busFault s.platform a .read = false) (hr : s.races.contains a = false) (hu : covers s.unspec a = false) :
    memRead a i s = .ok (Memory.read s.mem a) s := by
  unfold memRead
  rw [if_neg (by omega), if_neg (by simp [hf]), if_neg (by rw [hr, hu]; simp)]

/-- A write that succeeds stores its byte and changes nothing else. -/
theorem memWrite_ok {a : Nat} {i : Word} {v : Byte} {s t : State} {u : Unit} (h : memWrite a i v s = .ok u t) :
    a < Config.addrSpace ∧ busFault s.platform a .write = false ∧ t = busStore a v s := by
  unfold memWrite at h
  split at h
  · cases h
  · split at h
    · cases h
    · rename_i h1 h2
      cases h
      exact ⟨by omega, by simpa using h2, rfl⟩

/-- A write raises only IO_WRITE, for a bus error, and changes nothing (R73). -/
theorem memWrite_raise {a : Nat} {i j : Word} {v : Byte} {s t : State} {c : Cause} (h : memWrite a i v s = .raise c j t) :
    c = .ioWrite ∧ j = i ∧ t = s ∧ busFault s.platform a .write = true := by
  unfold memWrite at h
  split at h
  · cases h
  · split at h
    · rename_i h2
      cases h
      exact ⟨rfl, rfl, rfl, h2⟩
    · cases h

theorem memWrite_stuck {a : Nat} {i : Word} {v : Byte} {s : State} {x : Fault} (h : memWrite a i v s = .stuck x) :
    x = .noAddress ∧ Config.addrSpace ≤ a := by
  unfold memWrite at h
  split at h
  · rename_i h1; cases h; exact ⟨rfl, h1⟩
  · split at h <;> cases h

theorem memWrite_good {a : Nat} {i : Word} {v : Byte} {s : State} (ha : a < Config.addrSpace)
    (hf : busFault s.platform a .write = false) : memWrite a i v s = .ok () (busStore a v s) := by
  unfold memWrite
  rw [if_neg (by omega), if_neg (by simp [hf])]

/-! ### Runs of bytes -/

@[simp] theorem busStores_nil (a : Nat) (s : State) : busStores a [] s = s := rfl

/-- A run of stores changes memory and what is known of it, nothing else. -/
theorem busStores_frame (a : Nat) (bs : List Byte) (s : State) :
    busStores a bs s = { s with mem := (busStores a bs s).mem, unspec := (busStores a bs s).unspec } := by
  induction bs generalizing a s with
  | nil => rfl
  | cons b r ih =>
    simp only [busStores]
    rw [ih (a + 1) (busStore a b s)]
    rfl

/-- A byte after a run of stores: one of the run inside it, as before outside. -/
theorem read_busStores (a : Nat) (bs : List Byte) (s : State) (x : Nat) :
    Memory.read (busStores a bs s).mem x =
      if a ≤ x then (bs[x - a]?).getD (Memory.read s.mem x) else Memory.read s.mem x := by
  induction bs generalizing a s with
  | nil => simp
  | cons b r ih =>
    simp only [busStores, ih, busStore_mem, Memory.read_write]
    rcases Nat.lt_trichotomy x a with h | h | h
    · rw [if_neg (by omega), if_neg (by omega), if_neg (by omega)]
    · subst h
      rw [if_neg (by omega), if_pos rfl, if_pos (Nat.le_refl x)]
      simp
    · obtain ⟨d, rfl⟩ : ∃ d, x = a + 1 + d := ⟨x - (a + 1), by omega⟩
      rw [if_pos (by omega), if_neg (by omega), if_pos (by omega)]
      simp only [Nat.add_sub_cancel_left, show a + 1 + d - a = d + 1 by omega, List.getElem?_cons_succ]

/-- What is known of a byte after a run of stores. -/
theorem knownByte_busStores (a : Nat) (bs : List Byte) (s : State) (x : Nat) :
    knownByte (busStores a bs s) x =
      if a ≤ x ∧ x < a + bs.length then bs[x - a]? else knownByte s x := by
  induction bs generalizing a s with
  | nil => rw [if_neg (by simp only [List.length_nil]; omega)]; rfl
  | cons b r ih =>
    simp only [busStores, ih, knownByte_busStore, List.length_cons]
    rcases Nat.lt_trichotomy x a with h | h | h
    · rw [if_neg (by omega), if_neg (by omega), if_neg (by omega)]
    · subst h
      rw [if_neg (by omega), if_pos rfl, if_pos (by omega)]
      simp
    · obtain ⟨d, rfl⟩ : ∃ d, x = a + 1 + d := ⟨x - (a + 1), by omega⟩
      by_cases hd : d < r.length
      · rw [if_pos (by omega), if_pos (by omega)]
        simp only [Nat.add_sub_cancel_left, show a + 1 + d - a = d + 1 by omega, List.getElem?_cons_succ]
      · rw [if_neg (by omega), if_neg (by omega), if_neg (by omega)]

/-- A run of stores inside the address space keeps memory in canonical form. -/
theorem busStores_wf {a : Nat} {bs : List Byte} {s : State} (ha : a + bs.length ≤ Config.addrSpace) (h : Memory.wf s.mem) :
    Memory.wf (busStores a bs s).mem := by
  induction bs generalizing a s with
  | nil => exact h
  | cons b r ih =>
    simp only [List.length_cons] at ha
    exact ih (s := busStore a b s) (by omega) (Memory.wf_write (by omega) h)

/-! ### Operands -/

/-- A symbol read that answers takes IN_POS one further, and draws at most one free value (R154). -/
theorem readSymbol_ok {s t : State} {b : Byte} (h : readSymbol s = .ok b t) :
    s.srcAddr.toNat + s.inPos.toNat < Config.addrSpace ∧
      t = { s with inPos := s.inPos + 1, freeCount := t.freeCount } := by
  obtain ⟨x, u, h1, h2⟩ := Res.bind_eq_ok h
  obtain ⟨ha, -, hu⟩ := memRead_ok h1
  cases h2
  refine ⟨ha, ?_⟩
  rw [hu]

/-- A symbol read raises only IO_READ with the offset, IN_POS unchanged (R154). -/
theorem readSymbol_raise {s t : State} {c : Cause} {i : Word} (h : readSymbol s = .raise c i t) :
    c = .ioRead ∧ i = s.inPos ∧ t = s := by
  rcases Res.bind_eq_raise h with h | ⟨a, u, -, h⟩
  · exact ⟨(memRead_raise h).1, (memRead_raise h).2.1, (memRead_raise h).2.2.1⟩
  · cases h

theorem readSymbol_stuck {s : State} {x : Fault} (h : readSymbol s = .stuck x) :
    Config.addrSpace ≤ s.srcAddr.toNat + s.inPos.toNat := by
  rcases Res.bind_eq_stuck h with h | ⟨a, u, -, h⟩
  · exact (memRead_stuck h).2
  · cases h

/-- A symbol read of a byte that exists, answers, and is known. -/
theorem readSymbol_known {s : State} (ha : s.srcAddr.toNat + s.inPos.toNat < Config.addrSpace)
    (hf : busFault s.platform (s.srcAddr.toNat + s.inPos.toNat) .read = false)
    (hr : s.races.contains (s.srcAddr.toNat + s.inPos.toNat) = false)
    (hu : covers s.unspec (s.srcAddr.toNat + s.inPos.toNat) = false) :
    readSymbol s = .ok (Memory.read s.mem (s.srcAddr.toNat + s.inPos.toNat)) { s with inPos := s.inPos + 1 } := by
  have h := memRead_known (i := s.inPos) ha hf hr hu
  rw [readSymbol, srcByteAddr, h, Res.bind_ok]

/-! ### Writing bytes -/

@[simp] theorem putBytes_nil (s : State) : putBytes [] s = .ok () s := rfl

/-- Writing bytes changes memory, what is known of it, and OUT_LEN; nothing else, however it ends. -/
theorem putBytes_frame {bs : List Byte} {s t : State} {u : Unit} (h : putBytes bs s = .ok u t) :
    t = { s with mem := t.mem, unspec := t.unspec, outLen := t.outLen } := by
  induction bs generalizing s with
  | nil => cases h; rfl
  | cons b r ih =>
    obtain ⟨a, s1, h1, h2⟩ := Res.bind_eq_ok h
    obtain ⟨-, -, rfl⟩ := memWrite_ok h1
    rw [ih h2]
    rfl

/-- A raise while writing bytes is IO_WRITE at the offset OUT_LEN then has (R157, R188, R213). -/
theorem putBytes_raise {bs : List Byte} {s t : State} {c : Cause} {i : Word} (h : putBytes bs s = .raise c i t) :
    c = .ioWrite ∧ i = t.outLen ∧ t = { s with mem := t.mem, unspec := t.unspec, outLen := t.outLen } := by
  induction bs generalizing s with
  | nil => cases h
  | cons b r ih =>
    rcases Res.bind_eq_raise h with h1 | ⟨a, s1, h1, h2⟩
    · obtain ⟨rfl, rfl, rfl, -⟩ := memWrite_raise h1
      exact ⟨rfl, rfl, rfl⟩
    · obtain ⟨-, -, rfl⟩ := memWrite_ok h1
      obtain ⟨h3, h4, h5⟩ := ih h2
      refine ⟨h3, h4, ?_⟩
      rw [h5]
      rfl

/-- Bytes written in full: OUT_LEN grows by their number, they stand in order from DST_ADDR + OUT_LEN, and every other byte is
as before (R78). -/
theorem putBytes_ok {bs : List Byte} {s t : State} {u : Unit} (h : putBytes bs s = .ok u t)
    (hl : s.outLen.toNat + bs.length < 2 ^ 32) :
    t.outLen.toNat = s.outLen.toNat + bs.length ∧
      holdsAt t (s.dstAddr.toNat + s.outLen.toNat) bs ∧
      untouchedOutside (s.dstAddr.toNat + s.outLen.toNat) bs.length s t := by
  induction bs generalizing s with
  | nil =>
    cases h
    exact ⟨rfl, fun i hi => absurd hi (by simp), fun a _ => ⟨rfl, rfl⟩⟩
  | cons b r ih =>
    obtain ⟨x, s1, h1, h2⟩ := Res.bind_eq_ok h
    obtain ⟨-, -, rfl⟩ := memWrite_ok h1
    simp only [List.length_cons] at hl
    have hn : (s.outLen + 1).toNat = s.outLen.toNat + 1 := by
      rw [BitVec.toNat_add]; simp; omega
    obtain ⟨e1, e2, e3⟩ := ih h2 (by simp only [busStore_outLen, hn]; omega)
    simp only [busStore_outLen, busStore_dstAddr, hn] at e1 e2 e3
    refine ⟨by simp only [List.length_cons]; omega, ?_, ?_⟩
    · intro i hi
      cases i with
      | zero =>
        have := (e3 (s.dstAddr.toNat + s.outLen.toNat) (.inl (by omega))).2
        simp only [Nat.add_zero, this]
        have hk := knownByte_busStore (s.dstAddr.toNat + s.outLen.toNat) (s.dstAddr.toNat + s.outLen.toNat) b s
        simpa [knownByte] using hk
      | succ j =>
        have := e2 j (by simpa using hi)
        simp only [List.getElem?_cons_succ, ← this]
        congr 1
        omega
    · intro a ha
      simp only [List.length_cons] at ha
      have h4 := e3 a (by omega)
      have hne : a ≠ s.dstAddr.toNat + s.outLen.toNat := by omega
      refine ⟨?_, ?_⟩
      · rw [h4.1]
        simp [Memory.read_write, hne]
      · rw [h4.2]
        have hk := knownByte_busStore (s.dstAddr.toNat + s.outLen.toNat) a b s
        simpa [knownByte, hne] using hk

/-- Bytes are written in full when their addresses exist and the bus answers. -/
theorem putBytes_good {bs : List Byte} {s : State} (hl : s.outLen.toNat + bs.length < 2 ^ 32)
    (ha : s.dstAddr.toNat + s.outLen.toNat + bs.length ≤ Config.addrSpace)
    (hf : ∀ i, i < bs.length → busFault s.platform (s.dstAddr.toNat + s.outLen.toNat + i) .write = false) :
    ∃ t, putBytes bs s = .ok () t := by
  induction bs generalizing s with
  | nil => exact ⟨s, rfl⟩
  | cons b r ih =>
    simp only [List.length_cons] at hl ha hf
    have h0 := hf 0 (by omega)
    rw [Nat.add_zero] at h0
    have hn : (s.outLen + 1).toNat = s.outLen.toNat + 1 := by
      rw [BitVec.toNat_add]; simp; omega
    have h1 := memWrite_good (i := s.outLen) (v := b) (by omega) h0
    simp only [putBytes, h1, Res.bind_ok]
    refine ih ?_ ?_ ?_
    · simp only [busStore_outLen, hn]; omega
    · simp only [busStore_outLen, busStore_dstAddr, hn]; omega
    · intro i hi
      simp only [busStore_outLen, busStore_dstAddr, busStore_platform, hn]
      have := hf (i + 1) (by omega)
      rwa [show s.dstAddr.toNat + s.outLen.toNat + (i + 1) = s.dstAddr.toNat + (s.outLen.toNat + 1) + i by omega] at this

/-- Writing bytes leaves OUT_LEN as it was or at an offset whose bytes all exist, however it ends. -/
theorem putBytes_reach {bs : List Byte} {s t : State} (hl : s.outLen.toNat + bs.length < 2 ^ 32)
    (h : (∃ u, putBytes bs s = .ok u t) ∨ ∃ c i, putBytes bs s = .raise c i t) :
    t.outLen = s.outLen ∨ s.dstAddr.toNat + t.outLen.toNat ≤ Config.addrSpace := by
  induction bs generalizing s with
  | nil =>
    rcases h with ⟨u, h⟩ | ⟨c, i, h⟩
    · cases h; exact .inl rfl
    · cases h
  | cons b r ih =>
    simp only [List.length_cons] at hl
    have hn : (s.outLen + 1).toNat = s.outLen.toNat + 1 := by
      rw [BitVec.toNat_add]; simp; omega
    have key : ∀ s1 u1, memWrite (s.dstAddr.toNat + s.outLen.toNat) s.outLen b s = .ok u1 s1 →
        ((∃ u, putBytes r { s1 with outLen := s1.outLen + 1 } = .ok u t) ∨
          ∃ c i, putBytes r { s1 with outLen := s1.outLen + 1 } = .raise c i t) →
        s.dstAddr.toNat + t.outLen.toNat ≤ Config.addrSpace := by
      intro s1 u1 h1 h2
      obtain ⟨ha, -, rfl⟩ := memWrite_ok h1
      rcases ih (by simp only [busStore_outLen, hn]; omega) h2 with e | e
      · rw [e]
        simp only [busStore_outLen, hn]
        omega
      · exact e
    rcases h with ⟨u, h⟩ | ⟨c, i, h⟩
    · obtain ⟨u1, s1, h1, h2⟩ := Res.bind_eq_ok h
      exact .inr (key s1 u1 h1 (.inl ⟨u, h2⟩))
    · rcases Res.bind_eq_raise h with h1 | ⟨u1, s1, h1, h2⟩
      · obtain ⟨-, -, rfl, -⟩ := memWrite_raise h1
        exact .inl rfl
      · exact .inr (key s1 u1 h1 (.inr ⟨c, i, h2⟩))

/-- Writing bytes keeps memory in canonical form, however it ends. -/
theorem putBytes_wf {bs : List Byte} {s : State} (h : Memory.wf s.mem) :
    (∀ u t, putBytes bs s = .ok u t → Memory.wf t.mem) ∧ (∀ c i t, putBytes bs s = .raise c i t → Memory.wf t.mem) := by
  induction bs generalizing s with
  | nil => exact ⟨fun u t e => by cases e; exact h, fun c i t e => by cases e⟩
  | cons b r ih =>
    refine ⟨fun u t e => ?_, fun c i t e => ?_⟩
    · obtain ⟨a, s1, h1, h2⟩ := Res.bind_eq_ok e
      obtain ⟨ha, -, rfl⟩ := memWrite_ok h1
      exact (ih (s := { busStore _ b s with outLen := _ }) (Memory.wf_write ha h)).1 u t h2
    · rcases Res.bind_eq_raise e with h1 | ⟨a, s1, h1, h2⟩
      · obtain ⟨-, -, rfl, -⟩ := memWrite_raise h1
        exact h
      · obtain ⟨ha, -, rfl⟩ := memWrite_ok h1
        exact (ih (s := { busStore _ b s with outLen := _ }) (Memory.wf_write ha h)).2 c i t h2

/-! ### Completions -/

/-- A completion changes what is known of memory only after a race. -/
theorem endRaces_clean {s : State} (h : s.races = []) : endRaces s = s := by
  cases s
  simp only at h
  subst h
  rfl

end Sys2Proof.Machine
end

