-- ==== Sys2Proof/Laws/Engine.lean ====
section
/-! SUPPORT. What each piece of an engine step can do, said once: code packing, string output, growth, and the five steps. -/

namespace Sys2Proof.Machine

/-! ### The encoder -/

@[simp] theorem pack1_length (c : Nat) : (pack1 c).length = 2 := rfl

/-- emit_code that succeeds had room, wrote the two bytes, and counts the code (R157). -/
theorem emitCode_ok {c : Nat} {s t : State} {u : Unit} (h : emitCode c s = .ok u t) :
    s.outLen.toNat + 2 ≤ s.dstCap.toNat ∧
      ∃ s1, putBytes (pack1 c) s = .ok () s1 ∧ t = { s1 with codeCount := s1.codeCount + 1 } := by
  unfold emitCode at h
  simp only [Config.codeBytes] at h
  split at h
  · cases h
  · rename_i hc
    obtain ⟨a, s1, h1, h2⟩ := Res.bind_eq_ok h
    cases h2
    exact ⟨by omega, s1, h1, rfl⟩

/-- emit_code raises DST_FULL with 2, nothing written, or the IO_WRITE of its bytes (R157). -/
theorem emitCode_raise {c : Nat} {s t : State} {k : Cause} {i : Word} (h : emitCode c s = .raise k i t) :
    (k = .dstFull ∧ i = 2 ∧ t = s ∧ s.dstCap.toNat < s.outLen.toNat + 2) ∨
      (s.outLen.toNat + 2 ≤ s.dstCap.toNat ∧ putBytes (pack1 c) s = .raise k i t) := by
  unfold emitCode at h
  simp only [Config.codeBytes] at h
  split at h
  · rename_i hc
    cases h
    exact .inl ⟨rfl, rfl, rfl, by omega⟩
  · rename_i hc
    rcases Res.bind_eq_raise h with h1 | ⟨a, s1, -, h2⟩
    · exact .inr ⟨by omega, h1⟩
    · cases h2

theorem emitCode_stuck {c : Nat} {s : State} {x : Fault} (h : emitCode c s = .stuck x) :
    s.outLen.toNat + 2 ≤ s.dstCap.toNat ∧ putBytes (pack1 c) s = .stuck x := by
  unfold emitCode at h
  simp only [Config.codeBytes] at h
  split at h
  · cases h
  · rename_i hc
    rcases Res.bind_eq_stuck h with h1 | ⟨a, s1, -, h2⟩
    · exact ⟨by omega, h1⟩
    · cases h2

/-- The growth of ED changes ED and DICT_NEXT, by one entry below the ceiling and not at all above it (R155). -/
theorem enterE_cases (p : Nat) (b : Byte) (s : State) :
    (s.dictNext.toNat ≤ Config.maxTableSize ∧
        enterE p b s = { s with ed := s.ed.put s.dictNext.toNat ⟨p, b⟩, dictNext := s.dictNext + 1 }) ∨
      (Config.maxTableSize < s.dictNext.toNat ∧ enterE p b s = s) := by
  unfold enterE addOkE
  by_cases h : s.dictNext.toNat ≤ Config.maxTableSize
  · exact .inl ⟨h, by simp [h]⟩
  · exact .inr ⟨by omega, by simp [h]⟩

/-- The symbol step that succeeds starts, extends, or emits and resets (R154). -/
theorem encSymbol_ok {b : Byte} {s t : State} {u : Unit} (h : encSymbol b s = .ok u t) :
    (s.cur = none ∧ t = { s with cur := some b.toNat }) ∨
      (∃ p k, s.cur = some p ∧ find s.ed s.dictNext.toNat p b = some k ∧ t = { s with cur := some k }) ∨
      (∃ p s1, s.cur = some p ∧ find s.ed s.dictNext.toNat p b = none ∧ emitCode p s = .ok () s1 ∧
        t = { enterE p b s1 with cur := some b.toNat }) := by
  unfold encSymbol at h
  split at h
  · rename_i hc
    cases h
    exact .inl ⟨hc, rfl⟩
  · rename_i p hc
    split at h
    · rename_i k hf
      cases h
      exact .inr (.inl ⟨p, k, hc, hf, rfl⟩)
    · rename_i hf
      obtain ⟨a, s1, h1, h2⟩ := Res.bind_eq_ok h
      cases h2
      exact .inr (.inr ⟨p, s1, hc, hf, h1, rfl⟩)

/-- After its read, the symbol step raises only from an emission (R154). -/
theorem encSymbol_raise {b : Byte} {s t : State} {k : Cause} {i : Word} (h : encSymbol b s = .raise k i t) :
    ∃ p, s.cur = some p ∧ find s.ed s.dictNext.toNat p b = none ∧ emitCode p s = .raise k i t := by
  unfold encSymbol at h
  split at h
  · cases h
  · rename_i p hc
    split at h
    · cases h
    · rename_i hf
      rcases Res.bind_eq_raise h with h1 | ⟨a, s1, -, h2⟩
      · exact ⟨p, hc, hf, h1⟩
      · cases h2

theorem encSymbol_stuck {b : Byte} {s : State} {x : Fault} (h : encSymbol b s = .stuck x) :
    ∃ p, s.cur = some p ∧ emitCode p s = .stuck x := by
  unfold encSymbol at h
  split at h
  · cases h
  · rename_i p hc
    split at h
    · cases h
    · rcases Res.bind_eq_stuck h with h1 | ⟨a, s1, -, h2⟩
      · exact ⟨p, hc, h1⟩
      · cases h2

/-- The flush step that succeeds completes, after emitting the pending match if there is one (R158). -/
theorem encFlushStep_ok {s t : State} {u : Unit} (h : encFlushStep s = .ok u t) :
    (s.cur = none ∧ t = completeOk s) ∨
      ∃ p s1, s.cur = some p ∧ emitCode p s = .ok () s1 ∧ t = completeOk s1 := by
  unfold encFlushStep at h
  split at h
  · rename_i hc
    cases h
    exact .inl ⟨hc, rfl⟩
  · rename_i p hc
    obtain ⟨a, s1, h1, h2⟩ := Res.bind_eq_ok h
    cases h2
    exact .inr ⟨p, s1, hc, h1, rfl⟩

theorem encFlushStep_raise {s t : State} {k : Cause} {i : Word} (h : encFlushStep s = .raise k i t) :
    ∃ p, s.cur = some p ∧ emitCode p s = .raise k i t := by
  unfold encFlushStep at h
  split at h
  · cases h
  · rename_i p hc
    rcases Res.bind_eq_raise h with h1 | ⟨a, s1, -, h2⟩
    · exact ⟨p, hc, h1⟩
    · cases h2

theorem encFlushStep_stuck {s : State} {x : Fault} (h : encFlushStep s = .stuck x) :
    ∃ p, s.cur = some p ∧ emitCode p s = .stuck x := by
  unfold encFlushStep at h
  split at h
  · cases h
  · rename_i p hc
    rcases Res.bind_eq_stuck h with h1 | ⟨a, s1, -, h2⟩
    · exact ⟨p, hc, h1⟩
    · cases h2

/-! ### The decoder -/

/-- put_string that succeeds had room and wrote its bytes (R188). -/
theorem putString_ok {bs : List Byte} {s t : State} {u : Unit} (h : putString bs s = .ok u t) :
    s.outLen.toNat + bs.length ≤ s.dstCap.toNat ∧ putBytes bs s = .ok u t := by
  unfold putString at h
  split at h
  · cases h
  · exact ⟨by omega, h⟩

/-- put_string raises DST_FULL with the length, nothing written, or the IO_WRITE of its bytes (R188). -/
theorem putString_raise {bs : List Byte} {s t : State} {k : Cause} {i : Word} (h : putString bs s = .raise k i t) :
    (k = .dstFull ∧ i = BitVec.ofNat 32 bs.length ∧ t = s ∧ s.dstCap.toNat < s.outLen.toNat + bs.length) ∨
      (s.outLen.toNat + bs.length ≤ s.dstCap.toNat ∧ putBytes bs s = .raise k i t) := by
  unfold putString at h
  split at h
  · rename_i hc
    cases h
    exact .inl ⟨rfl, rfl, rfl, by omega⟩
  · exact .inr ⟨by omega, h⟩

theorem putString_stuck {bs : List Byte} {s : State} {x : Fault} (h : putString bs s = .stuck x) :
    s.outLen.toNat + bs.length ≤ s.dstCap.toNat ∧ putBytes bs s = .stuck x := by
  unfold putString at h
  split at h
  · cases h
  · exact ⟨by omega, h⟩

/-- The growth of DD changes DD and DICT_NEXT, by one entry after every code but the first while the ceiling allows (R187). -/
theorem enterD_cases (b : Byte) (s : State) :
    (∃ p, s.prev = some p ∧ addOkD s.decCeil s.dictNext.toNat = true ∧
        enterD b s = { s with dd := s.dd.put s.dictNext.toNat ⟨p, b⟩, dictNext := s.dictNext + 1 }) ∨
      ((s.prev = none ∨ addOkD s.decCeil s.dictNext.toNat = false) ∧ enterD b s = s) := by
  unfold enterD
  split
  · rename_i hp
    exact .inr ⟨.inl hp, rfl⟩
  · rename_i p hp
    split
    · rename_i ho
      exact .inl ⟨p, hp, ho, rfl⟩
    · rename_i ho
      exact .inr ⟨.inr (by simpa using ho), rfl⟩

/-- dec_code that succeeds resolved its code, wrote the string, grew the dictionary, and counts the code (R182). -/
theorem decCode_ok {c : Nat} {s t : State} {u : Unit} (h : decCode c s = .ok u t) :
    ∃ w s1, resolve c s = .str w ∧ putString w.bytes s = .ok () s1 ∧
      t = { enterD w.first s1 with prev := some c, codeCount := s1.codeCount + 1 } := by
  unfold decCode at h
  split at h
  · cases h
  · cases h
  · rename_i w hr
    obtain ⟨a, s1, h1, h2⟩ := Res.bind_eq_ok h
    cases h2
    exact ⟨w, s1, hr, h1, rfl⟩

/-- dec_code raises the DecodeError of its resolution with the code, or what its output raises (R182). -/
theorem decCode_raise {c : Nat} {s t : State} {k : Cause} {i : Word} (h : decCode c s = .raise k i t) :
    (resolve c s = .error k ∧ i = BitVec.ofNat 32 c ∧ t = s) ∨
      ∃ w, resolve c s = .str w ∧ putString w.bytes s = .raise k i t := by
  unfold decCode at h
  split at h
  · rename_i hr
    cases h
    exact .inl ⟨hr, rfl, rfl⟩
  · cases h
  · rename_i w hr
    rcases Res.bind_eq_raise h with h1 | ⟨a, s1, -, h2⟩
    · exact .inr ⟨w, hr, h1⟩
    · cases h2

theorem decCode_stuck {c : Nat} {s : State} {x : Fault} (h : decCode c s = .stuck x) :
    resolve c s = .dead ∨ ∃ w, resolve c s = .str w ∧ putString w.bytes s = .stuck x := by
  unfold decCode at h
  split at h
  · cases h
  · rename_i hr
    exact .inl hr
  · rename_i w hr
    rcases Res.bind_eq_stuck h with h1 | ⟨a, s1, -, h2⟩
    · exact .inr ⟨w, hr, h1⟩
    · cases h2

/-- A code read that answers takes IN_POS two further, and draws at most two free values (R182). -/
theorem readCode_ok {s t : State} {c : Nat} (h : readCode s = .ok c t) :
    c < 65536 ∧ t = { s with inPos := s.inPos + 2, freeCount := t.freeCount } := by
  obtain ⟨hi, s1, h1, h2⟩ := Res.bind_eq_ok h
  obtain ⟨lo, s2, h3, h4⟩ := Res.bind_eq_ok h2
  obtain ⟨-, e1⟩ := readSymbol_ok h1
  obtain ⟨-, e2⟩ := readSymbol_ok h3
  cases h4
  refine ⟨(hi ++ lo : BitVec 16).isLt, ?_⟩
  rw [e2, e1]
  simp only [State.mk.injEq, true_and, and_true]
  rw [BitVec.add_assoc]
  rfl

/-- A code read raises only IO_READ, at the offset IN_POS then has: the high byte's or the low byte's (R182). -/
theorem readCode_raise {s t : State} {k : Cause} {i : Word} (h : readCode s = .raise k i t) :
    k = .ioRead ∧ i = t.inPos ∧
      (t = s ∨ t = { s with inPos := s.inPos + 1, freeCount := t.freeCount }) := by
  rcases Res.bind_eq_raise h with h1 | ⟨hi, s1, h1, h2⟩
  · obtain ⟨rfl, rfl, rfl⟩ := readSymbol_raise h1
    exact ⟨rfl, rfl, .inl rfl⟩
  · rcases Res.bind_eq_raise h2 with h3 | ⟨lo, s2, -, h4⟩
    · obtain ⟨-, e1⟩ := readSymbol_ok h1
      obtain ⟨rfl, rfl, rfl⟩ := readSymbol_raise h3
      exact ⟨rfl, rfl, .inr e1⟩
    · cases h4

/-- A code read of two bytes that exist, answer, and are known. -/
theorem readCode_known {s : State} (ha : s.srcAddr.toNat + s.inPos.toNat + 1 < Config.addrSpace)
    (hp : s.inPos.toNat + 1 < 2 ^ 32)
    (hf : ∀ i, i < 2 → busFault s.platform (s.srcAddr.toNat + s.inPos.toNat + i) .read = false)
    (hr : ∀ i, i < 2 → s.races.contains (s.srcAddr.toNat + s.inPos.toNat + i) = false)
    (hu : ∀ i, i < 2 → covers s.unspec (s.srcAddr.toNat + s.inPos.toNat + i) = false) :
    readCode s = .ok (codeOf (Memory.read s.mem (s.srcAddr.toNat + s.inPos.toNat))
      (Memory.read s.mem (s.srcAddr.toNat + s.inPos.toNat + 1))) { s with inPos := s.inPos + 2 } := by
  have hn : (s.inPos + 1).toNat = s.inPos.toNat + 1 := by
    rw [BitVec.toNat_add]; simp; omega
  have h1 := readSymbol_known (s := s) (by omega) (hf 0 (by omega)) (hr 0 (by omega)) (hu 0 (by omega))
  have e : s.srcAddr.toNat + (s.inPos + 1).toNat = s.srcAddr.toNat + s.inPos.toNat + 1 := by omega
  have h2 := readSymbol_known (s := { s with inPos := s.inPos + 1 }) (by simp only [e]; omega)
    (by simp only [e]; exact hf 1 (by omega)) (by simp only [e]; exact hr 1 (by omega)) (by simp only [e]; exact hu 1 (by omega))
  rw [readCode, h1, Res.bind_ok, h2, Res.bind_ok]
  simp only [e]
  rw [BitVec.add_assoc]
  rfl

/-! ### The engine's move -/

/-- How an engine step ends: as its pieces end, or in the completion of their raise (R214). -/
theorem finish_next {r : Res Unit} {t : State} (h : finish r = .next t) :
    (∃ u, r = .ok u t) ∨ ∃ c i s1, r = .raise c i s1 ∧ t = completeError c i s1 := by
  cases r with
  | ok u s => cases h; exact .inl ⟨u, rfl⟩
  | raise c i s1 => cases h; exact .inr ⟨c, i, s1, rfl, rfl⟩
  | stuck x => cases h

theorem finish_fault {r : Res Unit} {x : Fault} (h : finish r = .fault x) : r = .stuck x := by
  cases r with
  | ok u s => cases h
  | raise c i s1 => cases h
  | stuck y => cases h; rfl

theorem engineStep_idle {s : State} (h : s.busy = false) : engineStep s = .next s := by simp [engineStep, h]

theorem engineStep_busy {s : State} (h : s.busy = true) : engineStep s = finish (enabledStep s) := by simp [engineStep, h]

/-! ### A step cut off by reset -/

theorem stepBytes_length (s t : State) : (stepBytes s t).length = t.outLen.toNat - s.outLen.toNat := by simp [stepBytes]

theorem cutStep_idle (cut : Nat) {s : State} (h : s.busy = false) : cutStep cut s = s := by simp [cutStep, h]

/-- A cut step either does nothing, or puts a prefix of its bytes on the bus. -/
theorem cutStep_cases (cut : Nat) (s : State) :
    cutStep cut s = s ∨
      ∃ t, s.busy = true ∧ (enabledStep s).last = some t ∧
        cutStep cut s =
          busStores (s.dstAddr.toNat + s.outLen.toNat) ((stepBytes s t).take cut) { s with freeCount := t.freeCount } := by
  unfold cutStep
  split
  · rename_i hb
    split
    · rename_i t ht
      exact .inr ⟨t, hb, ht, rfl⟩
    · exact .inl rfl
  · exact .inl rfl

/-- A cut step changes memory, what is known of it, and the count of free values, nothing else. -/
theorem cutStep_frame (cut : Nat) (s : State) :
    cutStep cut s =
      { s with
        mem := (cutStep cut s).mem, unspec := (cutStep cut s).unspec, freeCount := (cutStep cut s).freeCount } := by
  rcases cutStep_cases cut s with h | ⟨t, -, -, h⟩
  · rw [h]
  · rw [h, busStores_frame]

/-- A cut step leaves every byte outside the next `cut` destination bytes as it was. -/
theorem cutStep_outside (cut : Nat) (s : State) : untouchedOutside (s.dstAddr.toNat + s.outLen.toNat) cut s (cutStep cut s) := by
  intro a ha
  rcases cutStep_cases cut s with h | ⟨t, -, -, h⟩
  · rw [h]
    exact ⟨rfl, rfl⟩
  · have hl : ((stepBytes s t).take cut).length ≤ cut := by simp [List.length_take]
    rw [h, read_busStores, knownByte_busStores]
    constructor
    · split
      · rw [List.getElem?_eq_none (by omega)]
        rfl
      · rfl
    · rw [if_neg (by omega)]
      rfl

/-- An emission leaves OUT_LEN as it was or at an offset whose bytes all exist, however it ends. -/
theorem emitCode_reach {c : Nat} {s t : State} (h : (∃ u, emitCode c s = .ok u t) ∨ ∃ k i, emitCode c s = .raise k i t) :
    t.outLen = s.outLen ∨ s.dstAddr.toNat + t.outLen.toNat ≤ Config.addrSpace := by
  have hc := s.dstCap.isLt
  rcases h with ⟨u, h⟩ | ⟨k, i, h⟩
  · obtain ⟨hr, s1, h1, rfl⟩ := emitCode_ok h
    exact putBytes_reach (t := s1) (by simp only [pack1_length]; omega) (.inl ⟨_, h1⟩)
  · rcases emitCode_raise h with ⟨-, -, rfl, -⟩ | ⟨hr, h1⟩
    · exact .inl rfl
    · exact putBytes_reach (by simp only [pack1_length]; omega) (.inr ⟨_, _, h1⟩)

/-- A decoded string leaves OUT_LEN as it was or at an offset whose bytes all exist, however it ends. -/
theorem putString_reach {bs : List Byte} {s t : State}
    (h : (∃ u, putString bs s = .ok u t) ∨ ∃ k i, putString bs s = .raise k i t) :
    t.outLen = s.outLen ∨ s.dstAddr.toNat + t.outLen.toNat ≤ Config.addrSpace := by
  have hc := s.dstCap.isLt
  rcases h with ⟨u, h⟩ | ⟨k, i, h⟩
  · obtain ⟨hr, h1⟩ := putString_ok h
    exact putBytes_reach (by omega) (.inl ⟨_, h1⟩)
  · rcases putString_raise h with ⟨-, -, rfl, -⟩ | ⟨hr, h1⟩
    · exact .inl rfl
    · exact putBytes_reach (by omega) (.inr ⟨_, _, h1⟩)

theorem enterE_outLen (p : Nat) (b : Byte) (s : State) : (enterE p b s).outLen = s.outLen := by
  rcases enterE_cases p b s with ⟨-, h⟩ | ⟨-, h⟩ <;> rw [h]

theorem enterD_outLen (b : Byte) (s : State) : (enterD b s).outLen = s.outLen := by
  rcases enterD_cases b s with ⟨p, -, -, h⟩ | ⟨-, h⟩ <;> rw [h]

theorem Res.last_eq_some {r : Res Unit} {t : State} (h : r.last = some t) : (∃ u, r = .ok u t) ∨ ∃ c i, r = .raise c i t := by
  cases r with
  | ok u s => cases h; exact .inl ⟨u, rfl⟩
  | raise c i s => cases h; exact .inr ⟨c, i, rfl⟩
  | stuck x => cases h

/-- The enabled step leaves OUT_LEN as it was or at an offset whose bytes all exist. -/
theorem enabledStep_reach {s t : State} (h : (enabledStep s).last = some t) :
    t.outLen = s.outLen ∨ s.dstAddr.toNat + t.outLen.toNat ≤ Config.addrSpace := by
  have sym : (encSymbolStep s).last = some t → t.outLen = s.outLen ∨ s.dstAddr.toNat + t.outLen.toNat ≤ Config.addrSpace := by
    intro h
    rcases Res.last_eq_some h with ⟨u, h⟩ | ⟨c, i, h⟩
    · obtain ⟨b, s1, h1, h2⟩ := Res.bind_eq_ok h
      obtain ⟨-, e1⟩ := readSymbol_ok h1
      rcases encSymbol_ok h2 with ⟨-, rfl⟩ | ⟨p, k, -, -, rfl⟩ | ⟨p, s2, -, -, h3, rfl⟩
      · rw [e1]; exact .inl rfl
      · rw [e1]; exact .inl rfl
      · have := emitCode_reach (.inl ⟨_, h3⟩)
        rw [e1] at this
        simpa only [enterE_outLen] using this
    · rcases Res.bind_eq_raise h with h1 | ⟨b, s1, h1, h2⟩
      · obtain ⟨-, -, rfl⟩ := readSymbol_raise h1
        exact .inl rfl
      · obtain ⟨-, e1⟩ := readSymbol_ok h1
        obtain ⟨p, -, -, h3⟩ := encSymbol_raise h2
        have := emitCode_reach (.inr ⟨_, _, h3⟩)
        rw [e1] at this
        exact this
  have flush : (encFlushStep s).last = some t → t.outLen = s.outLen ∨ s.dstAddr.toNat + t.outLen.toNat ≤ Config.addrSpace := by
    intro h
    rcases Res.last_eq_some h with ⟨u, h⟩ | ⟨c, i, h⟩
    · rcases encFlushStep_ok h with ⟨-, rfl⟩ | ⟨p, s1, -, h1, rfl⟩
      · exact .inl rfl
      · exact emitCode_reach (t := s1) (.inl ⟨_, h1⟩)
    · obtain ⟨p, -, h1⟩ := encFlushStep_raise h
      exact emitCode_reach (.inr ⟨_, _, h1⟩)
  have code : (decCodeStep s).last = some t → t.outLen = s.outLen ∨ s.dstAddr.toNat + t.outLen.toNat ≤ Config.addrSpace := by
    intro h
    rcases Res.last_eq_some h with ⟨u, h⟩ | ⟨c, i, h⟩
    · obtain ⟨b, s1, h1, h2⟩ := Res.bind_eq_ok h
      obtain ⟨-, e1⟩ := readCode_ok h1
      obtain ⟨w, s2, -, h3, rfl⟩ := decCode_ok h2
      have := putString_reach (.inl ⟨_, h3⟩)
      rw [e1] at this
      simpa only [enterD_outLen] using this
    · rcases Res.bind_eq_raise h with h1 | ⟨b, s1, h1, h2⟩
      · obtain ⟨-, -, rfl | e1⟩ := readCode_raise h1
        · exact .inl rfl
        · rw [e1]; exact .inl rfl
      · obtain ⟨-, e1⟩ := readCode_ok h1
        rcases decCode_raise h2 with ⟨-, -, rfl⟩ | ⟨w, -, h3⟩
        · rw [e1]; exact .inl rfl
        · have := putString_reach (.inr ⟨_, _, h3⟩)
          rw [e1] at this
          exact this
  have tail : (decTailStep s).last = some t → t.outLen = s.outLen := by
    intro h
    rcases Res.last_eq_some h with ⟨u, h⟩ | ⟨c, i, h⟩
    · obtain ⟨b, s1, h1, h2⟩ := Res.bind_eq_ok h
      obtain ⟨-, e1⟩ := readSymbol_ok h1
      cases h2
      rw [e1]
      rfl
    · rcases Res.bind_eq_raise h with h1 | ⟨b, s1, -, h2⟩
      · obtain ⟨-, -, rfl⟩ := readSymbol_raise h1
        rfl
      · cases h2
  unfold enabledStep at h
  split at h
  · split at h
    · exact sym h
    · exact flush h
  · split at h
    · exact code h
    · split at h
      · exact .inl (tail h)
      · cases h
        exact .inl rfl

/-- A cut step keeps memory in canonical form. -/
theorem cutStep_wf (cut : Nat) {s : State} (h : Memory.wf s.mem) : Memory.wf (cutStep cut s).mem := by
  rcases cutStep_cases cut s with e | ⟨t, -, ht, e⟩
  · rw [e]
    exact h
  · rw [e]
    have hl : ((stepBytes s t).take cut).length ≤ t.outLen.toNat - s.outLen.toNat := by
      rw [List.length_take, stepBytes_length]
      omega
    have hs := s.dstAddr.isLt
    rcases enabledStep_reach ht with h1 | h1
    · rw [h1, Nat.sub_self] at hl
      rw [List.eq_nil_of_length_eq_zero (Nat.le_zero.1 hl)]
      exact h
    · by_cases hz : t.outLen.toNat ≤ s.outLen.toNat
      · rw [List.eq_nil_of_length_eq_zero (l := (stepBytes s t).take cut) (by omega)]
        exact h
      · exact busStores_wf (by omega) h

/-- The engine never refuses: its windows were checked at the launch. -/
theorem engineStep_not_refused (s : State) (r : Refusal) : engineStep s ≠ .refused r := by
  unfold engineStep
  split
  · cases enabledStep s <;> simp [finish]
  · simp

end Sys2Proof.Machine
end

