-- ==== Sys2Proof/Laws/Step.lean ====
section
/-! SUPPORT. What a command, a register write and a turn can do, said once: inversion lemmas for launch, exec, the register port and
step. -/

namespace Sys2Proof.Machine

/-! ### Commands -/

/-- ENCODE and DECODE answer a next state in three ways: ignored, rejected for range, accepted (R120). -/
theorem launch_next {m : Mode} {s t : State} (h : launch m s = .next t) :
    (s.busy = true ∧ t = setIgn s) ∨
      (s.busy = false ∧ rangeCheck s ≠ 0 ∧
        t = reject .cmdBadRange ((rangeCheck s).zeroExtend 32) { clearForIssue s with mode := m }) ∨
      (s.busy = false ∧ rangeCheck s = 0 ∧ onDevice s = false ∧ t = accept m { clearForIssue s with mode := m }) := by
  have hr : rangeCheck { clearForIssue s with mode := m } = rangeCheck s := rfl
  have hd : onDevice { clearForIssue s with mode := m } = onDevice s := rfl
  unfold launch at h
  simp only [hr, hd] at h
  split at h
  · rename_i hb
    cases h
    exact .inl ⟨hb, rfl⟩
  · rename_i hb
    have hb : s.busy = false := by simpa using hb
    split at h
    · rename_i h1
      cases h
      exact .inr (.inl ⟨hb, h1, rfl⟩)
    · rename_i h1
      split at h
      · cases h
      · rename_i h2
        cases h
        exact .inr (.inr ⟨hb, by simpa using h1, by simpa using h2, rfl⟩)

theorem launch_busy (m : Mode) {s : State} (h : s.busy = true) : launch m s = .next (setIgn s) := by
  simp [launch, h]

theorem launch_bad_range (m : Mode) {s : State} (hb : s.busy = false) (hr : rangeCheck s ≠ 0) :
    launch m s = .next (reject .cmdBadRange ((rangeCheck s).zeroExtend 32) { clearForIssue s with mode := m }) := by
  have e : rangeCheck { clearForIssue s with mode := m } = rangeCheck s := rfl
  unfold launch
  simp only [hb, e]
  simp
  exact fun h => absurd h hr

theorem launch_device (m : Mode) {s : State} (hb : s.busy = false) (hr : rangeCheck s = 0) (hd : onDevice s = true) :
    launch m s = .refused .deviceWindow := by
  have e : rangeCheck { clearForIssue s with mode := m } = rangeCheck s := rfl
  have d : onDevice { clearForIssue s with mode := m } = onDevice s := rfl
  unfold launch
  simp only [hb, e, d]
  simp [hr, hd]

theorem launch_accept (m : Mode) {s : State} (hb : s.busy = false) (hr : rangeCheck s = 0) (hd : onDevice s = false) :
    launch m s = .next (accept m { clearForIssue s with mode := m }) := by
  have e : rangeCheck { clearForIssue s with mode := m } = rangeCheck s := rfl
  have d : onDevice { clearForIssue s with mode := m } = onDevice s := rfl
  unfold launch
  simp only [hb, e, d]
  simp [hr, hd]

/-- A launch never faults, and is refused only on a device (R81). -/
theorem launch_not_fault (m : Mode) (s : State) (x : Fault) : launch m s ≠ .fault x := by
  unfold launch
  split
  · simp
  · dsimp only
    split
    · simp
    · split <;> simp

/-- A command that answers a next state leaves it, ignores the command, rejects it, accepts it, or aborts (R120). -/
theorem exec_next {i : Instr} {s t : State} (h : exec i s = .next t) :
    t = s ∨ (s.busy = true ∧ t = setIgn s) ∨
      (∃ m, s.busy = false ∧ rangeCheck s ≠ 0 ∧
        t = reject .cmdBadRange ((rangeCheck s).zeroExtend 32) { clearForIssue s with mode := m }) ∨
      (∃ m, s.busy = false ∧ rangeCheck s = 0 ∧ onDevice s = false ∧
        t = accept m { clearForIssue s with mode := m }) ∨
      (s.busy = true ∧ t = completeError .aborted 0 s) := by
  cases i with
  | nop => cases h; exact .inl rfl
  | encode =>
    rcases launch_next h with h | h | h
    · exact .inr (.inl h)
    · exact .inr (.inr (.inl ⟨_, h⟩))
    · exact .inr (.inr (.inr (.inl ⟨_, h⟩)))
  | decode =>
    rcases launch_next h with h | h | h
    · exact .inr (.inl h)
    · exact .inr (.inr (.inl ⟨_, h⟩))
    · exact .inr (.inr (.inr (.inl ⟨_, h⟩)))
  | abort =>
    simp only [exec, execAbort, Host.Outcome.next.injEq] at h
    subst h
    by_cases hb : s.busy = true
    · exact .inr (.inr (.inr (.inr ⟨hb, by simp [hb]⟩)))
    · exact .inl (by simp [hb])

theorem exec_not_fault (i : Instr) (s : State) (x : Fault) : exec i s ≠ .fault x := by
  cases i with
  | nop => simp [exec, execNop]
  | encode => exact launch_not_fault .encode s x
  | decode => exact launch_not_fault .decode s x
  | abort => simp [exec, execAbort]

/-- A CMD write is a command, or an illegal word: ignored or rejected (R120). -/
theorem writeCmd_next {w : Word} {s t : State} (h : writeCmd w s = .next t) :
    (∃ i, decode w = .ok i ∧ exec i s = .next t) ∨
      (s.busy = true ∧ t = setIgn s) ∨ (s.busy = false ∧ t = reject .cmdIllegal w (clearForIssue s)) := by
  unfold writeCmd at h
  split at h
  · rename_i i hd
    exact .inl ⟨i, hd, h⟩
  · simp only [execIllegal, Host.Outcome.next.injEq] at h
    subst h
    by_cases hb : s.busy = true
    · exact .inr (.inl ⟨hb, by simp [hb]⟩)
    · exact .inr (.inr ⟨by simpa using hb, by simp [hb]⟩)

/-! ### The register port -/

theorem regOffset_lt (r : RegName) : regOffset r < 0x100 := by cases r <;> decide

theorem regOffset_aligned (r : RegName) : regOffset r % 4 = 0 := by cases r <;> decide

theorem regAt_offset (r : RegName) : regAt (regOffset r) = some r := by cases r <;> rfl

/-- An aligned 32-bit transaction at a register's bus address reaches that register, wherever LZWC_BASE is (R21, R71). -/
@[simp] theorem target_regAddr (p : Platform) (r : RegName) : target p 32 (regAddr p r) = .reg r := by
  have h0 : p.base + BitVec.ofNat 32 (regOffset r) - p.base = BitVec.ofNat 32 (regOffset r) := by
    rw [BitVec.add_comm, BitVec.add_sub_cancel]
  have h1 := regOffset_lt r
  have h2 : (BitVec.ofNat 32 (regOffset r)).toNat = regOffset r := by
    rw [BitVec.toNat_ofNat]
    omega
  unfold target regAddr
  simp only [h0, h2, regOffset_aligned, regAt_offset]
  rw [if_neg (by omega), if_neg (by simp)]

/-- What a register-port write that answers a next state can be: a CMD write, a STATUS write, a write to one of the five
configuration registers, or nothing but an answer. -/
theorem portWrite_next {width : Nat} {addr data : Word} {s t : State} (h : portWrite width addr data s = .next t) :
    writeCmd data { s with resp := .written } = .next t ∨
      t = statusClear data { s with resp := .written } ∨
      t = writeCtrl data { s with resp := .written } ∨
      t = whenIdle { s with resp := .written } { s with resp := .written, srcAddr := data } ∨
      t = whenIdle { s with resp := .written } { s with resp := .written, srcLen := data } ∨
      t = whenIdle { s with resp := .written } { s with resp := .written, dstAddr := data } ∨
      t = whenIdle { s with resp := .written } { s with resp := .written, dstCap := data } ∨
      ∃ r, t = { s with resp := r } := by
  unfold portWrite at h
  split at h
  · rename_i r _
    cases r <;> simp only [writeReg, Host.Outcome.next.injEq] at h
    all_goals first
      | exact .inl h
      | (subst h; simp)
  · cases h; simp
  · cases h; simp
  · cases h

/-- A register-port read that answers a next state changes only the answer (R81). -/
theorem portRead_next {width : Nat} {addr : Word} {s t : State} (h : portRead width addr s = .next t) :
    ∃ r, t = { s with resp := r } := by
  unfold portRead at h
  split at h <;> cases h <;> exact ⟨_, rfl⟩

theorem portRead_not_fault (width : Nat) (addr : Word) (s : State) (x : Fault) : portRead width addr s ≠ .fault x := by
  unfold portRead
  split <;> simp

theorem portWrite_not_fault (width : Nat) (addr data : Word) (s : State) (x : Fault) :
    portWrite width addr data s ≠ .fault x := by
  unfold portWrite
  split
  · rename_i r _
    cases r <;> simp only [writeReg, ne_eq] <;> try simp
    unfold writeCmd
    split
    · exact exec_not_fault _ _ _
    · simp [execIllegal]
  · simp
  · simp
  · simp

/-! ### Steps -/

/-- A step is the engine's move when nothing is pending, else the oldest turn (R44). -/
theorem step_next {s t : State} (h : step s = .next t) :
    (s.turns = [] ∧ engineStep s = .next t) ∨
      ∃ u us, s.turns = u :: us ∧ takeTurn u { s with turns := us } = .next t := by
  unfold step at h
  split at h
  · rename_i ht
    exact .inl ⟨ht, h⟩
  · rename_i u us ht
    exact .inr ⟨u, us, ht, h⟩

theorem step_alone {s : State} (h : s.turns = []) : step s = engineStep s := by simp [step, h]

theorem step_turn {s : State} {u : Turn} {us : List Turn} (h : s.turns = u :: us) :
    step s = takeTurn u { s with turns := us } := by simp [step, h]

/-- What a turn that answers a next state can be. -/
theorem takeTurn_next {u : Turn} {s t : State} (h : takeTurn u s = .next t) :
    (u = .engine ∧ engineStep s = .next t) ∨
      (∃ cut, u = .reset cut ∧ t = resetBlock (cutStep cut s)) ∨
      (∃ width addr data, u = .write width addr data ∧ portWrite width addr data s = .next t) ∨
      (∃ width addr r, u = .read width addr ∧ t = { s with resp := r }) ∨
      (∃ r m v, u = .poll r m v ∧ t = pollReg r m v s) ∨
      (∃ a v, u = .memWrite a v ∧ covers s.platform.devices a.toNat = false ∧ t = agentStore a.toNat v s) ∨
      (∃ a, u = .memRead a ∧ covers s.platform.devices a.toNat = false ∧ t = agentLoad a.toNat s) ∨
      (∃ r w, u = .busFaults r w ∧ t = setBusFaults r w s) := by
  cases u with
  | engine => exact .inl ⟨rfl, h⟩
  | reset cut => cases h; simp
  | write width addr data => exact .inr (.inr (.inl ⟨_, _, _, rfl, h⟩))
  | read width addr =>
    obtain ⟨r, hr⟩ := portRead_next h
    exact .inr (.inr (.inr (.inl ⟨_, _, r, rfl, hr⟩)))
  | poll r m v => cases h; simp
  | memWrite a v =>
    simp only [takeTurn, agentWrite] at h
    split at h
    · cases h
    · rename_i hd
      cases h
      simp only [Bool.not_eq_true] at hd
      simp [hd]
  | memRead a =>
    simp only [takeTurn, agentRead] at h
    split at h
    · cases h
    · rename_i hd
      cases h
      simp only [Bool.not_eq_true] at hd
      simp [hd]
  | busFaults r w => cases h; simp

/-- Only the engine's move can fault. -/
theorem takeTurn_fault {u : Turn} {s : State} {x : Fault} (h : takeTurn u s = .fault x) :
    u = .engine ∧ engineStep s = .fault x := by
  cases u with
  | engine => exact ⟨rfl, h⟩
  | reset cut => cases h
  | write width addr data => exact absurd h (portWrite_not_fault _ _ _ _ _)
  | read width addr => exact absurd h (portRead_not_fault _ _ _ _)
  | poll r m v => cases h
  | memWrite a v => simp only [takeTurn, agentWrite] at h; split at h <;> cases h
  | memRead a => simp only [takeTurn, agentRead] at h; split at h <;> cases h
  | busFaults r w => cases h

/-- Reset's memory is in canonical form. -/
theorem reset_mem_wf : Memory.wf State.reset.mem := by decide

end Sys2Proof.Machine
end

