-- ==== Sys2Proof/Certificates/Slice0/Obligations.lean ====
section
/-! DEFINITION. The statements for the provers. Each docstring says which rule of spec/ it formalises; the entry of
OBLIGATIONS.json says what it claims in words. -/

open Sys2Proof Sys2Proof.Machine

/-! ### Encodings -/

/-- R105: the four OP values with MBZ = 0, and the twelve reserved ones. -/
def Obligations.CommandWordsOfTheOpcodeMap : Prop :=
  decode 0x00000000 = .ok .nop ∧ decode 0x00000001 = .ok .encode ∧ decode 0x00000002 = .ok .decode ∧
    decode 0x00000003 = .ok .abort ∧
    ∀ op : BitVec 4, 4 ≤ op.toNat → decode ((0 : BitVec 28) ++ op) = .error (.reservedOp op)

/-- R101, R105, R106: the decoder accepts exactly the words that the encoder writes, each for its own command, and a word with a
non-zero MBZ is illegal whatever its OP. -/
def Obligations.DecodeAcceptsExactlyTheFourWords : Prop :=
  (∀ i : Instr, i.wf = true → decode (encode i) = .ok i) ∧
    (∀ (w : Word) (i : Instr), decode w = .ok i → w = encode i) ∧
    ∀ w : Word, w.toNat / 16 ≠ 0 → decode w = .error .mbzNotZero

/-- R103: unpacking cuts a byte string into big-endian codes, drops a final odd byte, and inverts packing over 0..65535. -/
def Obligations.UnpackCutsAndInvertsPack : Prop :=
  (∀ y : List Byte, (unpack y).length = y.length / 2) ∧
    (∀ (y : List Byte) (i : Nat), i < y.length / 2 →
      ∃ hi lo, y[2 * i]? = some hi ∧ y[2 * i + 1]? = some lo ∧ (unpack y)[i]? = some (hi.toNat * 256 + lo.toNat)) ∧
    ∀ cs : List Nat, (∀ c ∈ cs, c ≤ 65535) → unpack (pack cs) = cs

/-- R102, R75: a code sequence packs into two bytes a code, the high byte first. -/
def Obligations.PackWritesHighByteFirst : Prop :=
  ∀ cs : List Nat, (pack cs).length = 2 * cs.length ∧
    ∀ (i c : Nat), cs[i]? = some c → c ≤ 65535 →
      (pack cs)[2 * i]? = some (BitVec.ofNat 8 (c / 256)) ∧ (pack cs)[2 * i + 1]? = some (BitVec.ofNat 8 (c % 256))

/-! ### Reset -/

/-- R241: after reset every register reads the value of R50, and IRQ is low; from any state, the reset turn leads there. -/
def Obligations.ResetSetsEveryRegister : Prop :=
  (∀ r : RegName, readReg r State.reset = if r = .id then 0x0001020C else 0) ∧ irq State.reset = false ∧
    ∀ (s : State) (cut : Nat) (ts : List Turn), s.turns = .reset cut :: ts →
      ∃ t, step s = .next t ∧ (∀ r : RegName, readReg r t = readReg r State.reset) ∧ irq t = false

/-- R243: reset abandons a running operation: no completion is reported, the bytes on the bus stay, the counters are lost. Of the
engine's next step the first `cut` bytes, and no others, may stand on the bus too, so that any prefix of the result can be left
(93_implementation_defined.md I8). That the turn counts those bytes is the model's form (log 17). -/
def Obligations.ResetAbandonsTheOperation : Prop :=
  ∀ (s : State) (cut : Nat) (ts : List Turn), s.busy = true → s.turns = .reset cut :: ts →
    ∃ t, step s = .next t ∧ t.busy = false ∧ t.done = false ∧ irq t = false ∧
      (∀ a, a < s.dstAddr.toNat + s.outLen.toNat ∨ s.dstAddr.toNat + s.outLen.toNat + cut ≤ a →
        Memory.read t.mem a = Memory.read s.mem a ∧ (s.races = [] → knownByte t a = knownByte s a)) ∧
      (∀ u i, engineStep s = .next u → i < cut →
        Memory.read t.mem (s.dstAddr.toNat + s.outLen.toNat + i) =
          if i < u.outLen.toNat - s.outLen.toNat then Memory.read u.mem (s.dstAddr.toNat + s.outLen.toNat + i)
          else Memory.read s.mem (s.dstAddr.toNat + s.outLen.toNat + i)) ∧
      t.inPos = 0 ∧ t.outLen = 0 ∧ t.codeCount = 0 ∧ t.dictNext = 0 ∧ t.platform = s.platform ∧ t.turns = ts

/-- The state after reset meets the invariant of the machine. -/
def Obligations.ResetMeetsTheInvariant : Prop := Inv State.reset

/-! ### Steps -/

/-- R26, R120: a step whose oldest turn is a write to CMD of a word that decodes to a command runs that command, the turn taken
and the write answered. The same for the word that `withFetchWord` places. -/
def Obligations.StepRunsTheDecodedCommand : Prop :=
  (∀ (s : State) (w : Word) (i : Instr) (ts : List Turn),
    s.turns = .write 32 (regAddr s.platform .cmd) w :: ts → decode w = .ok i →
      step s = exec i { s with turns := ts, resp := .written }) ∧
    ∀ (s : State) (i : Instr), i.wf = true → decodeTableWord 32 (encode i).toNat = some i ∧
      step (s.withFetchWord 32 (encode i).toNat) = exec i { s with resp := .written }

/-- R44, R130: the engine moves when its turn is the oldest, or when none is pending (the model's form of I18, log 1); its move is the
one enabled step, chosen from MODE, IN_POS and SRC_LEN, and none while BUSY = 0. -/
def Obligations.TheEngineTakesItsEnabledStep : Prop :=
  (∀ (s : State) (ts : List Turn), s.turns = .engine :: ts → step s = engineStep { s with turns := ts }) ∧
    (∀ s : State, s.turns = [] → step s = engineStep s) ∧
    ∀ s : State,
      (s.busy = false → engineStep s = .next s) ∧
        (s.busy = true → s.mode = .encode → s.inPos.toNat < s.srcLen.toNat → engineStep s = finish (encSymbolStep s)) ∧
        (s.busy = true → s.mode = .encode → s.srcLen.toNat ≤ s.inPos.toNat → engineStep s = finish (encFlushStep s)) ∧
        (s.busy = true → s.mode = .decode → s.inPos.toNat + 2 ≤ s.srcLen.toNat → engineStep s = finish (decCodeStep s)) ∧
        (s.busy = true → s.mode = .decode → s.inPos.toNat + 1 = s.srcLen.toNat → engineStep s = finish (decTailStep s)) ∧
        (s.busy = true → s.mode = .decode → s.srcLen.toNat ≤ s.inPos.toNat → engineStep s = finish (decEndStep s))

/-! ### Commands -/

/-- R121: NOP changes nothing, in every state. -/
def Obligations.NopChangesNothing : Prop := ∀ s : State, exec .nop s = .next s

/-- R120, R122, R123, R126, R151, R181: an idle ENCODE or DECODE with legal windows is accepted: this and no other change. -/
def Obligations.LaunchIsAccepted : Prop :=
  ∀ s : State, s.busy = false → rangeCheck s = 0 → onDevice s = false →
    exec .encode s = .next { s with
      mode := .encode, busy := true, done := false, err := false, cause := .none, errInfo := 0
      inPos := 0, outLen := 0, codeCount := 0, dictNext := 256, cur := none, races := [] } ∧
    exec .decode s = .next { s with
      mode := .decode, busy := true, done := false, err := false, cause := .none, errInfo := 0
      inPos := 0, outLen := 0, codeCount := 0, dictNext := 256, prev := none, races := [] }

/-- R127: the three bits of the range check over unbounded naturals, and the rejection they cause, with no memory accessed. -/
def Obligations.BadRangeIsRejected : Prop :=
  ∀ s : State,
    ((rangeCheck s).getLsbD 0 = true ↔ s.srcAddr.toNat + s.srcLen.toNat > 2 ^ 32) ∧
    ((rangeCheck s).getLsbD 1 = true ↔ s.dstAddr.toNat + s.dstCap.toNat > 2 ^ 32) ∧
    ((rangeCheck s).getLsbD 2 = true ↔ 0 < s.srcLen.toNat ∧ 0 < s.dstCap.toNat ∧
      s.srcAddr.toNat < s.dstAddr.toNat + s.dstCap.toNat ∧ s.dstAddr.toNat < s.srcAddr.toNat + s.srcLen.toNat) ∧
    (s.busy = false → rangeCheck s ≠ 0 →
      exec .encode s = .next { s with
        mode := .encode, done := true, err := true, cause := .cmdBadRange, errInfo := (rangeCheck s).zeroExtend 32
        inPos := 0, outLen := 0, codeCount := 0, dictNext := 0 } ∧
      exec .decode s = .next { s with
        mode := .decode, done := true, err := true, cause := .cmdBadRange, errInfo := (rangeCheck s).zeroExtend 32
        inPos := 0, outLen := 0, codeCount := 0, dictNext := 0 })

/-- R128: while BUSY = 1 a CMD write of ENCODE, DECODE or an illegal word only sets IGN. -/
def Obligations.CommandsWhileBusyAreIgnored : Prop :=
  ∀ (s : State) (w : Word) (ts : List Turn), s.busy = true → s.turns = .write 32 (regAddr s.platform .cmd) w :: ts →
    (decode w = .ok .encode ∨ decode w = .ok .decode ∨ ∃ r, decode w = .error r) →
      step s = .next { s with turns := ts, resp := .written, ign := true }

/-- R125: an illegal word written while idle: cleared for issue, then rejected with CMD_ILLEGAL and the word; MODE is not
written, no memory is accessed; ERRCODE then reads 0x320. -/
def Obligations.IllegalWordIsRejected : Prop :=
  ∀ (s : State) (w : Word) (ts : List Turn), s.busy = false → s.turns = .write 32 (regAddr s.platform .cmd) w :: ts →
    (w.toNat / 16 ≠ 0 ∨ 4 ≤ w.toNat % 16) →
      ∃ t, step s = .next t ∧ readReg .errcode t = 0x320 ∧
        t = { s with
          turns := ts, resp := .written, done := true, err := true, cause := .cmdIllegal, errInfo := w
          inPos := 0, outLen := 0, codeCount := 0, dictNext := 0 }

/-- R124: ABORT completes a running operation with ABORTED, the progress counters and the bytes written kept; ERRCODE then reads
0x330. While idle it does nothing. That e.cur,
e.prev, ED and DD keep their values past a completion is the model's choice (log 3). -/
def Obligations.AbortCompletesARunningOperation : Prop :=
  (∀ s : State, s.busy = true →
    ∃ t, exec .abort s = .next t ∧
      t = { s with
        busy := false, done := true, err := true, cause := .aborted, errInfo := 0, races := [], unspec := t.unspec } ∧
      (s.races = [] → t.unspec = s.unspec) ∧ readReg .errcode t = 0x330) ∧
    ∀ s : State, s.busy = false → exec .abort s = .next s

/-- R81: a launch with a window on a device is refused, once its ranges are legal. -/
def Obligations.LaunchOnADeviceIsRefused : Prop :=
  ∀ s : State, s.busy = false → rangeCheck s = 0 → onDevice s = true →
    exec .encode s = .refused .deviceWindow ∧ exec .decode s = .refused .deviceWindow

/-- The frame of all four commands (R120, R126): no byte of memory, no configuration register, no dictionary entry, no platform
parameter and no pending turn changes; nor, for a command that writes no counter (NOP, ABORT), a counter. That e.cur,
e.prev, ED and DD keep their values past a completion is the model's choice (log 3). -/
def Obligations.CommandsLeaveMemoryAndConfiguration : Prop :=
  (∀ (i : Instr) (s t : State), exec i s = .next t →
    t.mem = s.mem ∧ t.ed = s.ed ∧ t.dd = s.dd ∧ t.decCeil = s.decCeil ∧ t.irqEn = s.irqEn ∧ t.srcAddr = s.srcAddr ∧
      t.srcLen = s.srcLen ∧ t.dstAddr = s.dstAddr ∧ t.dstCap = s.dstCap ∧ t.platform = s.platform ∧ t.turns = s.turns ∧
      t.resp = s.resp ∧ t.freeCount = s.freeCount ∧ (s.races = [] → ∀ a, knownByte t a = knownByte s a) ∧
      (s.ign = true → t.ign = true)) ∧
    ∀ (i : Instr) (s t : State), (i = .nop ∨ i = .abort) → exec i s = .next t →
      t.inPos = s.inPos ∧ t.outLen = s.outLen ∧ t.codeCount = s.codeCount ∧ t.dictNext = s.dictNext ∧ t.mode = s.mode ∧
        t.cur = s.cur ∧ t.prev = s.prev ∧ t.ign = s.ign

/-! ### Registers -/

/-- R35: while BUSY = 1 a write to a configuration register only sets IGN; while BUSY = 0 it takes effect; so the engine's steps
leave all five as they are. -/
def Obligations.ConfigurationIsFrozenWhileBusy : Prop :=
  (∀ (s : State) (r : RegName) (w : Word) (ts : List Turn), s.busy = true →
    (r = .ctrl ∨ r = .srcAddr ∨ r = .srcLen ∨ r = .dstAddr ∨ r = .dstCap) →
    s.turns = .write 32 (regAddr s.platform r) w :: ts →
      step s = .next { s with turns := ts, resp := .written, ign := true }) ∧
    (∀ (s : State) (w : Word) (ts : List Turn), s.busy = false →
      (s.turns = .write 32 (regAddr s.platform .ctrl) w :: ts →
        step s = .next { s with turns := ts, resp := .written, decCeil := w.getLsbD 0, irqEn := w.getLsbD 1 }) ∧
      (s.turns = .write 32 (regAddr s.platform .srcAddr) w :: ts →
        step s = .next { s with turns := ts, resp := .written, srcAddr := w }) ∧
      (s.turns = .write 32 (regAddr s.platform .srcLen) w :: ts →
        step s = .next { s with turns := ts, resp := .written, srcLen := w }) ∧
      (s.turns = .write 32 (regAddr s.platform .dstAddr) w :: ts →
        step s = .next { s with turns := ts, resp := .written, dstAddr := w }) ∧
      (s.turns = .write 32 (regAddr s.platform .dstCap) w :: ts →
        step s = .next { s with turns := ts, resp := .written, dstCap := w })) ∧
    ∀ s t : State, engineStep s = .next t →
      t.decCeil = s.decCeil ∧ t.irqEn = s.irqEn ∧ t.srcAddr = s.srcAddr ∧ t.srcLen = s.srcLen ∧ t.dstAddr = s.dstAddr ∧
        t.dstCap = s.dstCap

/-- R28: a STATUS write clears DONE, ERR and IGN by bits 1 to 3, whatever BUSY is, ignores every other bit, and never sets IGN;
while BUSY = 1 it can clear only IGN. -/
def Obligations.StatusWriteClearsByOnes : Prop :=
  ∀ (s : State) (w : Word) (ts : List Turn), s.turns = .write 32 (regAddr s.platform .status) w :: ts →
    ∃ t, step s = .next t ∧
      t = { s with turns := ts, resp := .written, done := t.done, err := t.err, ign := t.ign } ∧
      (t.done = true ↔ s.done = true ∧ w.getLsbD 1 = false) ∧
      (t.err = true ↔ s.err = true ∧ w.getLsbD 2 = false) ∧
      (t.ign = true ↔ s.ign = true ∧ w.getLsbD 3 = false) ∧
      (Inv s → s.busy = true → t.done = s.done ∧ t.err = s.err)

/-- R24, R27, R29, R39: the layout of the registers that are made of fields, read through the register port's view. -/
def Obligations.FieldedRegistersReadTheirFields : Prop :=
  ∀ s : State,
    ((readReg .status s).getLsbD 0 = s.busy ∧ (readReg .status s).getLsbD 1 = s.done ∧
      (readReg .status s).getLsbD 2 = s.err ∧ (readReg .status s).getLsbD 3 = s.ign ∧
      ((readReg .status s).getLsbD 4 = true ↔ s.mode = .decode) ∧
      ∀ i, 5 ≤ i → (readReg .status s).getLsbD i = false) ∧
    ((readReg .ctrl s).getLsbD 0 = s.decCeil ∧ (readReg .ctrl s).getLsbD 1 = s.irqEn ∧
      ∀ i, 2 ≤ i → (readReg .ctrl s).getLsbD i = false) ∧
    ((readReg .errcode s).extractLsb' 0 8 = s.cause.code ∧ (readReg .errcode s).extractLsb' 8 2 = s.cause.cls ∧
      ∀ i, 10 ≤ i → (readReg .errcode s).getLsbD i = false) ∧
    ((readReg .dictNext s).toNat = s.dictNext.toNat ∧ ∀ i, 17 ≤ i → (readReg .dictNext s).getLsbD i = false)

/-- R211, R212: the cause codes, their classes, and ERRCODE = CLASS * 256 + CAUSE. -/
def Obligations.ErrcodeIsClassAndCause : Prop :=
  (∀ (s : State), (readReg .errcode s).toNat = s.cause.cls.toNat * 256 + s.cause.code.toNat) ∧
    [Cause.none, .ioRead, .ioWrite, .dstFull, .decFirstCode, .decUnknownCode, .cmdIllegal, .cmdBadRange, .aborted].map
        (fun c => (errCodeWord c).toNat) = [0x000, 0x101, 0x102, 0x103, 0x210, 0x211, 0x320, 0x321, 0x330]

/-- R45: a reserved offset reads 0, and a write there is ignored and does not set IGN. -/
def Obligations.ReservedOffsetsReadZeroAndIgnoreWrites : Prop :=
  ∀ (s : State) (off : Nat) (w : Word) (ts : List Turn), off % 4 = 0 → 0x38 ≤ off → off ≤ 0xFC →
    (s.turns = .read 32 (s.platform.base + BitVec.ofNat 32 off) :: ts →
      step s = .next { s with turns := ts, resp := .data 0 }) ∧
    (s.turns = .write 32 (s.platform.base + BitVec.ofNat 32 off) w :: ts →
      step s = .next { s with turns := ts, resp := .written })

/-- R21, R47: a write to a read-only register is ignored, busy or idle, and does not set IGN. -/
def Obligations.ReadOnlyRegistersIgnoreWrites : Prop :=
  ∀ (s : State) (r : RegName) (w : Word) (ts : List Turn),
    (r = .id ∨ r = .errcode ∨ r = .errinfo ∨ r = .inPos ∨ r = .outLen ∨ r = .codeCount ∨ r = .dictNext) →
    s.turns = .write 32 (regAddr s.platform r) w :: ts → step s = .next { s with turns := ts, resp := .written }

/-- R22, R81: an access inside the block's 0x100 bytes that is not 32 bits wide or not aligned gets a bus error and changes no state
of the block; an aligned 32-bit read of a register gives its value and changes no state of the block. An access outside the 0x100
bytes is refused, the model's own form of I17 (log 10). -/
def Obligations.RegisterAccessesAreWholeAlignedWords : Prop :=
  (∀ (s : State) (width off : Nat) (w : Word) (ts : List Turn), off < 2 ^ 32 →
    (s.turns = .read width (s.platform.base + BitVec.ofNat 32 off) :: ts ∨
      s.turns = .write width (s.platform.base + BitVec.ofNat 32 off) w :: ts) →
      (off < 0x100 → (width ≠ 32 ∨ off % 4 ≠ 0) → step s = .next { s with turns := ts, resp := .busError }) ∧
      (0x100 ≤ off → step s = .refused .outsideBlock)) ∧
    ∀ (s : State) (r : RegName) (ts : List Turn), s.turns = .read 32 (regAddr s.platform r) :: ts →
      step s = .next { s with turns := ts, resp := .data (readReg r s) }

/-- R223: IRQ_EN enables, DONE is pending, a 1 to DONE or a new command clears, clearing IRQ_EN drops the line without clearing
DONE and setting it with DONE = 1 raises it, and IRQ_EN cannot change while BUSY = 1. -/
def Obligations.InterruptLineFollowsEnableAndDone : Prop :=
  irq State.reset = false ∧
    (∀ (s : State) (w : Word) (ts : List Turn), s.turns = .write 32 (regAddr s.platform .ctrl) w :: ts →
      ∃ t, step s = .next t ∧ t.done = s.done ∧
        (s.busy = false → irq t = (w.getLsbD 1 && s.done)) ∧ (s.busy = true → t.irqEn = s.irqEn ∧ irq t = irq s)) ∧
    (∀ (s : State) (w : Word) (ts : List Turn), s.turns = .write 32 (regAddr s.platform .status) w :: ts →
      w.getLsbD 1 = true → ∃ t, step s = .next t ∧ irq t = false) ∧
    (∀ s : State, s.busy = false → rangeCheck s = 0 → onDevice s = false →
      (∃ t, exec .encode s = .next t ∧ irq t = false) ∧ ∃ t, exec .decode s = .next t ∧ irq t = false) ∧
    ∀ (c : Cause) (i : Word) (s : State),
      irq (completeOk s) = s.irqEn ∧ irq (completeError c i s) = s.irqEn ∧ irq (reject c i s) = s.irqEn

/-! ### Premises that several step statements share -/

/-- The premises of a decoder code step that reads the known code `c`. -/
def codeIsRead (s : State) (c : Nat) : Prop :=
  s.busy = true ∧ s.mode = .decode ∧ s.inPos.toNat + 2 ≤ s.srcLen.toNat ∧ s.races = [] ∧
    s.srcAddr.toNat + s.srcLen.toNat ≤ 2 ^ 32 ∧
    (∀ i, i < 2 → busFault s.platform (s.srcAddr.toNat + s.inPos.toNat + i) .read = false ∧
      covers s.unspec (s.srcAddr.toNat + s.inPos.toNat + i) = false) ∧
    c = (Memory.read s.mem (s.srcAddr.toNat + s.inPos.toNat)).toNat * 256 +
      (Memory.read s.mem (s.srcAddr.toNat + s.inPos.toNat + 1)).toNat

/-- The premises of writing `n` decoded bytes: they fit, and the bus answers. -/
def bytesCanBeWritten (s : State) (n : Nat) : Prop :=
  s.outLen.toNat + n ≤ s.dstCap.toNat ∧ s.dstAddr.toNat + s.dstCap.toNat ≤ 2 ^ 32 ∧
    ∀ i, i < n → busFault s.platform (s.dstAddr.toNat + s.outLen.toNat + i) .write = false

/-- The engine's step emits the code `p`, with IN_POS then at `pos`: a symbol step with a mismatch (R154), or the flush (R158). -/
def emissionIsDue (s : State) (p : Nat) (pos : Word) : Prop :=
  s.busy = true ∧ s.mode = .encode ∧ s.races = [] ∧ s.cur = some p ∧
    ((s.inPos.toNat < s.srcLen.toNat ∧ pos = s.inPos + 1 ∧ s.srcAddr.toNat + s.inPos.toNat < 2 ^ 32 ∧
        busFault s.platform (s.srcAddr.toNat + s.inPos.toNat) .read = false ∧
        covers s.unspec (s.srcAddr.toNat + s.inPos.toNat) = false ∧
        find s.ed s.dictNext.toNat p (Memory.read s.mem (s.srcAddr.toNat + s.inPos.toNat)) = none) ∨
      (s.inPos = s.srcLen ∧ pos = s.inPos))

/-- The engine's step decodes the code `c` to the string `w`: a first code (R183), a known one (R184), or the special case (R185). -/
def stringIsDue (s : State) (c : Nat) (w : Str) : Prop :=
  codeIsRead s c ∧
    ((s.prev = none ∧ c < 256 ∧ w = ⟨BitVec.ofNat 8 c, []⟩) ∨
      (s.prev ≠ none ∧ c < s.dictNext.toNat ∧ s.dd.str s.dictNext.toNat c = some w) ∨
      ∃ p v, s.prev = some p ∧ c = s.dictNext.toNat ∧ addOkD s.decCeil s.dictNext.toNat = true ∧
        s.dd.str s.dictNext.toNat p = some v ∧ w = v.snoc v.first)

/-- Of the bytes to be written from OUT_LEN on, the one at index `j` is the first whose write gets a bus error. -/
def firstWriteErrorAt (s : State) (j : Nat) : Prop :=
  (∀ i, i < j → busFault s.platform (s.dstAddr.toNat + s.outLen.toNat + i) .write = false) ∧
    busFault s.platform (s.dstAddr.toNat + s.outLen.toNat + j) .write = true

/-- The registers after an IO_WRITE on the byte at index `j` (R213, R214). -/
def ioWriteAt (s : State) (j : Nat) : State :=
  { s with
    busy := false, done := true, err := true, cause := .ioWrite
    errInfo := s.outLen + BitVec.ofNat 32 j, outLen := s.outLen + BitVec.ofNat 32 j }

/-! ### The encoder's steps -/

/-- R156: lookup is exact; over a dictionary without two equal valid entries it is the inverse of the entries. -/
def Obligations.LookupIsExact : Prop :=
  ∀ (d : Dict) (n p : Nat) (b : Byte),
    (∀ k, find d n p b = some k → 256 ≤ k ∧ k < n ∧ d.get? k = some ⟨p, b⟩) ∧
    (find d n p b = none ↔ ∀ k, 256 ≤ k → k < n → d.get? k ≠ some ⟨p, b⟩) ∧
    ((∀ i j, 256 ≤ i → i < n → 256 ≤ j → j < n → d.get? i = d.get? j → i = j) →
      ∀ k, find d n p b = some k ↔ 256 ≤ k ∧ k < n ∧ d.get? k = some ⟨p, b⟩)

/-- R154: a symbol step without an emission starts the current string or extends it, and writes no memory. -/
def Obligations.SymbolStepStartsOrExtends : Prop :=
  ∀ s : State, s.busy = true → s.mode = .encode → s.inPos.toNat < s.srcLen.toNat →
    s.srcAddr.toNat + s.inPos.toNat < 2 ^ 32 →
    busFault s.platform (s.srcAddr.toNat + s.inPos.toNat) .read = false →
    s.races = [] → covers s.unspec (s.srcAddr.toNat + s.inPos.toNat) = false →
      (s.cur = none → engineStep s = .next { s with
        inPos := s.inPos + 1, cur := some (Memory.read s.mem (s.srcAddr.toNat + s.inPos.toNat)).toNat }) ∧
      ∀ p k, s.cur = some p →
        find s.ed s.dictNext.toNat p (Memory.read s.mem (s.srcAddr.toNat + s.inPos.toNat)) = some k →
          engineStep s = .next { s with inPos := s.inPos + 1, cur := some k }

/-- R154, R155, R157: a symbol step with a mismatch and room emits the current string's code in two bytes, high first, enters the
candidate while DICT_NEXT is at most MAX_TABLE_SIZE, and restarts from the symbol; every other byte and field is as before. -/
def Obligations.SymbolStepEmitsAndGrows : Prop :=
  ∀ (s : State) (p : Nat), s.busy = true → s.mode = .encode → s.inPos.toNat < s.srcLen.toNat →
    s.srcAddr.toNat + s.inPos.toNat < 2 ^ 32 →
    busFault s.platform (s.srcAddr.toNat + s.inPos.toNat) .read = false →
    s.races = [] → covers s.unspec (s.srcAddr.toNat + s.inPos.toNat) = false →
    s.cur = some p →
    find s.ed s.dictNext.toNat p (Memory.read s.mem (s.srcAddr.toNat + s.inPos.toNat)) = none →
    s.outLen.toNat + 2 ≤ s.dstCap.toNat → s.dstAddr.toNat + s.dstCap.toNat ≤ 2 ^ 32 →
    (∀ i, i < 2 → busFault s.platform (s.dstAddr.toNat + s.outLen.toNat + i) .write = false) →
      ∃ t, engineStep s = .next t ∧
        t = { s with
          inPos := s.inPos + 1, outLen := s.outLen + 2, codeCount := s.codeCount + 1
          ed := if s.dictNext.toNat ≤ 4096 then
              s.ed.put s.dictNext.toNat ⟨p, Memory.read s.mem (s.srcAddr.toNat + s.inPos.toNat)⟩ else s.ed
          dictNext := if s.dictNext.toNat ≤ 4096 then s.dictNext + 1 else s.dictNext
          cur := some (Memory.read s.mem (s.srcAddr.toNat + s.inPos.toNat)).toNat
          mem := t.mem, unspec := t.unspec } ∧
        holdsAt t (s.dstAddr.toNat + s.outLen.toNat) (pack1 p) ∧
        untouchedOutside (s.dstAddr.toNat + s.outLen.toNat) 2 s t

/-- R157, R154, R158, R218: with no room for both bytes an emission raises DST_FULL with 2 before anything is written, at a symbol step,
whose symbol IN_POS then counts, and at the flush; neither ED nor DICT_NEXT is updated. That e.cur,
e.prev, ED and DD keep their values past a completion is the model's choice (log 3). -/
def Obligations.EmissionWithoutRoomRaisesDstFull : Prop :=
  ∀ (s : State) (p : Nat) (pos : Word), emissionIsDue s p pos → s.dstCap.toNat < s.outLen.toNat + 2 →
    engineStep s = .next { s with
      inPos := pos, busy := false, done := true, err := true, cause := .dstFull, errInfo := 2 }

/-- R157, R188, R213, R216: a bus error on the byte at index j of a code (its high byte, j = 0, or its low byte, j = 1), emitted by a
symbol step or by the flush, or on the byte at index j of a decoded string, leaves the j bytes before it written, OUT_LEN at the
faulting offset, and CODE_COUNT, the dictionary and e.cur or e.prev as they were, and reports IO_WRITE at that offset. That e.cur,
e.prev, ED and DD keep their values past a completion is the model's choice (log 3). -/
def Obligations.WriteBusErrorKeepsTheBytesBeforeIt : Prop :=
  (∀ (s : State) (p j : Nat) (pos : Word), emissionIsDue s p pos → s.outLen.toNat + 2 ≤ s.dstCap.toNat →
    s.dstAddr.toNat + s.dstCap.toNat ≤ 2 ^ 32 → j < 2 → firstWriteErrorAt s j →
      ∃ t, engineStep s = .next t ∧ t = { ioWriteAt s j with inPos := pos, mem := t.mem, unspec := t.unspec } ∧
        holdsAt t (s.dstAddr.toNat + s.outLen.toNat) ((pack1 p).take j) ∧
        untouchedOutside (s.dstAddr.toNat + s.outLen.toNat) j s t) ∧
    ∀ (s : State) (c j : Nat) (w : Str), stringIsDue s c w → s.outLen.toNat + w.bytes.length ≤ s.dstCap.toNat →
      s.dstAddr.toNat + s.dstCap.toNat ≤ 2 ^ 32 → j < w.bytes.length → firstWriteErrorAt s j →
        ∃ t, engineStep s = .next t ∧ t = { ioWriteAt s j with inPos := s.inPos + 2, mem := t.mem, unspec := t.unspec } ∧
          holdsAt t (s.dstAddr.toNat + s.outLen.toNat) (w.bytes.take j) ∧
          untouchedOutside (s.dstAddr.toNat + s.outLen.toNat) j s t

/-- R158: the flush emits the pending match, if there is one, and completes with success; it never adds an entry. That e.cur,
e.prev, ED and DD keep their values past a completion is the model's choice (log 3). -/
def Obligations.FlushEmitsThePendingMatch : Prop :=
  ∀ s : State, s.busy = true → s.mode = .encode → s.inPos = s.srcLen → s.races = [] →
    (s.cur = none → engineStep s = .next { s with busy := false, done := true }) ∧
    ∀ p, s.cur = some p → s.outLen.toNat + 2 ≤ s.dstCap.toNat → s.dstAddr.toNat + s.dstCap.toNat ≤ 2 ^ 32 →
      (∀ i, i < 2 → busFault s.platform (s.dstAddr.toNat + s.outLen.toNat + i) .write = false) →
        ∃ t, engineStep s = .next t ∧
          t = { s with
            busy := false, done := true, outLen := s.outLen + 2, codeCount := s.codeCount + 1
            mem := t.mem, unspec := t.unspec } ∧
          holdsAt t (s.dstAddr.toNat + s.outLen.toNat) (pack1 p) ∧
          untouchedOutside (s.dstAddr.toNat + s.outLen.toNat) 2 s t

/-! ### The decoder's steps -/

/-- R73, R154, R182, R190, R213: when the next source byte gets a bus error (a symbol, the high byte of a code, the odd tail byte),
the step only reports IO_READ with the offset IN_POS; when the low byte of a code does, IN_POS counts the high byte, and the step
reports IO_READ with the offset after it. A high byte that is not specified costs a free value (log 6). That e.cur,
e.prev, ED and DD keep their values past a completion is the model's choice (log 3). -/
def Obligations.SourceBusErrorRaisesIoRead : Prop :=
  (∀ s : State, s.busy = true → s.inPos.toNat < s.srcLen.toNat → s.races = [] →
    s.srcAddr.toNat + s.inPos.toNat < 2 ^ 32 →
    busFault s.platform (s.srcAddr.toNat + s.inPos.toNat) .read = true →
      engineStep s = .next { s with
        busy := false, done := true, err := true, cause := .ioRead, errInfo := s.inPos }) ∧
    ∀ s : State, s.busy = true → s.mode = .decode → s.inPos.toNat + 2 ≤ s.srcLen.toNat → s.races = [] →
      s.srcAddr.toNat + s.inPos.toNat + 1 < 2 ^ 32 →
      busFault s.platform (s.srcAddr.toNat + s.inPos.toNat) .read = false →
      busFault s.platform (s.srcAddr.toNat + s.inPos.toNat + 1) .read = true →
        engineStep s = .next { s with
          inPos := s.inPos + 1, busy := false, done := true, err := true, cause := .ioRead, errInfo := s.inPos + 1
          freeCount := if covers s.unspec (s.srcAddr.toNat + s.inPos.toNat) then s.freeCount + 1 else s.freeCount }

/-- R183: a first code below 256 decodes to its byte and adds no entry; a first code of 256 or more is DEC_FIRST_CODE, its two
bytes read and nothing else changed. That e.cur,
e.prev, ED and DD keep their values past a completion is the model's choice (log 3). -/
def Obligations.FirstCodeDecodesOrRaises : Prop :=
  ∀ (s : State) (c : Nat), codeIsRead s c → s.prev = none →
    (c < 256 → bytesCanBeWritten s 1 →
      ∃ t, engineStep s = .next t ∧
        t = { s with
          inPos := s.inPos + 2, outLen := s.outLen + 1, codeCount := s.codeCount + 1, prev := some c
          mem := t.mem, unspec := t.unspec } ∧
        holdsAt t (s.dstAddr.toNat + s.outLen.toNat) [BitVec.ofNat 8 c] ∧
        untouchedOutside (s.dstAddr.toNat + s.outLen.toNat) 1 s t) ∧
    (256 ≤ c → engineStep s = .next { s with
      inPos := s.inPos + 2, busy := false, done := true, err := true, cause := .decFirstCode
      errInfo := BitVec.ofNat 32 c })

/-- R186: after the first code, a code above DICT_NEXT, or equal to it when no entry may be added, is DEC_UNKNOWN_CODE, before any
capacity check; its two bytes are read, nothing of it is written, DD, DICT_NEXT, e.prev and CODE_COUNT are unchanged. That e.cur,
e.prev, ED and DD keep their values past a completion is the model's choice (log 3). -/
def Obligations.UnresolvableCodeRaisesUnknownCode : Prop :=
  ∀ (s : State) (c : Nat), codeIsRead s c → s.prev ≠ none →
    (s.dictNext.toNat < c ∨ c = s.dictNext.toNat ∧ addOkD s.decCeil s.dictNext.toNat = false) →
      engineStep s = .next { s with
        inPos := s.inPos + 2, busy := false, done := true, err := true, cause := .decUnknownCode
        errInfo := BitVec.ofNat 32 c }

/-- R184, R187, R188, R189: a known code after the first decodes to its string, which is written in order; while add_ok_D allows,
the next code gets (e.prev, first byte of the string). -/
def Obligations.KnownCodeDecodesToItsString : Prop :=
  ∀ (s : State) (c p : Nat) (w : Str), codeIsRead s c → s.prev = some p → c < s.dictNext.toNat →
    s.dd.str s.dictNext.toNat c = some w → bytesCanBeWritten s w.bytes.length →
      ∃ t, engineStep s = .next t ∧
        t = { s with
          inPos := s.inPos + 2, outLen := s.outLen + BitVec.ofNat 32 w.bytes.length, codeCount := s.codeCount + 1
          prev := some c
          dd := if addOkD s.decCeil s.dictNext.toNat then s.dd.put s.dictNext.toNat ⟨p, w.first⟩ else s.dd
          dictNext := if addOkD s.decCeil s.dictNext.toNat then s.dictNext + 1 else s.dictNext
          mem := t.mem, unspec := t.unspec } ∧
        holdsAt t (s.dstAddr.toNat + s.outLen.toNat) w.bytes ∧
        untouchedOutside (s.dstAddr.toNat + s.outLen.toNat) w.bytes.length s t

/-- R185, R187: the special case, code = DICT_NEXT with room for the entry: the previous string and its first byte are written, one
entry is made, and the code then stands for that same string. -/
def Obligations.SpecialCaseDecodesAndDefinesItsCode : Prop :=
  ∀ (s : State) (c p : Nat) (w : Str), Inv s → codeIsRead s c → s.prev = some p → c = s.dictNext.toNat →
    addOkD s.decCeil s.dictNext.toNat = true → s.dd.str s.dictNext.toNat p = some w →
    bytesCanBeWritten s (w.bytes.length + 1) →
      ∃ t, engineStep s = .next t ∧
        t = { s with
          inPos := s.inPos + 2, outLen := s.outLen + BitVec.ofNat 32 (w.bytes.length + 1), codeCount := s.codeCount + 1
          prev := some c, dd := s.dd.put c ⟨p, w.first⟩, dictNext := s.dictNext + 1
          mem := t.mem, unspec := t.unspec } ∧
        holdsAt t (s.dstAddr.toNat + s.outLen.toNat) (w.bytes ++ [w.first]) ∧
        untouchedOutside (s.dstAddr.toNat + s.outLen.toNat) (w.bytes.length + 1) s t ∧
        t.dd.str t.dictNext.toNat c = some (w.snoc w.first)

/-- R188, R195: a decoded string that does not fit, of a first code, a known code or the special case, raises DST_FULL with its
length, nothing of it written and no entry made. That e.cur,
e.prev, ED and DD keep their values past a completion is the model's choice (log 3). -/
def Obligations.StringWithoutRoomRaisesDstFull : Prop :=
  ∀ (s : State) (c : Nat) (w : Str), stringIsDue s c w → s.dstCap.toNat < s.outLen.toNat + w.bytes.length →
    engineStep s = .next { s with
      inPos := s.inPos + 2, busy := false, done := true, err := true, cause := .dstFull
      errInfo := BitVec.ofNat 32 w.bytes.length }

/-- R190, R191: an odd last byte is read and dropped, and the decode completes; with no byte left it completes at once. Nothing is
written. That e.cur,
e.prev, ED and DD keep their values past a completion is the model's choice (log 3). -/
def Obligations.DecodeEndsWithTailOrEnd : Prop :=
  ∀ s : State, s.busy = true → s.mode = .decode → s.races = [] →
    (s.inPos = s.srcLen → engineStep s = .next { s with busy := false, done := true }) ∧
    (s.inPos.toNat + 1 = s.srcLen.toNat → s.srcAddr.toNat + s.srcLen.toNat ≤ 2 ^ 32 →
      busFault s.platform (s.srcAddr.toNat + s.inPos.toNat) .read = false →
      covers s.unspec (s.srcAddr.toNat + s.inPos.toNat) = false →
        engineStep s = .next { s with inPos := s.srcLen, busy := false, done := true })

/-! ### Other agents -/

/-- R84, R86: a write of another agent outside the windows of a running operation changes its byte and no other, and is no race; a
read of a known byte outside the destination window gives that byte and changes no memory. That such an access lands and is answered
whatever bus_fault says, and that an address of the register space is a memory byte, is the model's choice (log 8, log 23). -/
def Obligations.AgentsOutsideTheWindowsSeeMemory : Prop :=
  (∀ (s : State) (a : Word) (v : Byte) (ts : List Turn), s.turns = .memWrite a v :: ts →
    covers s.platform.devices a.toNat = false →
    (s.busy = true → windowHas (srcWindow s) a.toNat = false ∧ windowHas (dstWindow s) a.toNat = false) →
      ∃ t, step s = .next t ∧ t = { s with turns := ts, resp := .written, mem := t.mem, unspec := t.unspec } ∧
        ∀ b, knownByte t b = if b = a.toNat then some v else knownByte s b) ∧
    ∀ (s : State) (a : Word) (ts : List Turn) (v : Byte), s.turns = .memRead a :: ts →
      covers s.platform.devices a.toNat = false →
      (s.busy = true → windowHas (dstWindow s) a.toNat = false) → knownByte s a.toNat = some v →
        step s = .next { s with turns := ts, resp := .byte v }

/-- R86, in the model's own form (log 5): while BUSY = 1 a read of the destination by another agent gives a free value; a write to
either window is recorded as a race; the engine reads a free value from a source byte that was raced on; and a raced operation leaves
the destination window's contents unknown when it ends. -/
def Obligations.RacesGiveFreeValues : Prop :=
  (∀ (s : State) (a : Word) (ts : List Turn), s.turns = .memRead a :: ts → covers s.platform.devices a.toNat = false →
    s.busy = true → windowHas (dstWindow s) a.toNat = true →
      step s = .next { s with
        turns := ts, resp := .byte (Config.freeByte s.freeCount), freeCount := s.freeCount + 1 }) ∧
    (∀ (s : State) (a : Word) (v : Byte) (ts : List Turn), s.turns = .memWrite a v :: ts →
      covers s.platform.devices a.toNat = false → s.busy = true →
      (windowHas (srcWindow s) a.toNat = true ∨ windowHas (dstWindow s) a.toNat = true) →
        ∃ t, step s = .next t ∧ t.busy = true ∧ a.toNat ∈ t.races) ∧
    (∀ s : State, s.busy = true → s.mode = .encode → s.inPos.toNat < s.srcLen.toNat →
      s.srcAddr.toNat + s.inPos.toNat < 2 ^ 32 →
      busFault s.platform (s.srcAddr.toNat + s.inPos.toNat) .read = false →
      s.srcAddr.toNat + s.inPos.toNat ∈ s.races → s.cur = none →
        engineStep s = .next { s with
          inPos := s.inPos + 1, cur := some (Config.freeByte s.freeCount).toNat, freeCount := s.freeCount + 1 }) ∧
    ∀ (s t : State), s.races ≠ [] → s.busy = true → engineStep s = .next t → t.busy = false →
      ∀ a, windowHas (dstWindow s) a = true → knownByte t a = none

/-! ### Whole-machine rules -/

/-- The invariant is kept by every step (R39, R41, R42, R47 to R49, R160). -/
def Obligations.StepKeepsTheInvariant : Prop := ∀ s t : State, Inv s → step s = .next t → Inv t

/-- From a state that meets the invariant no step faults: no engine address wraps (R48), and only valid entries are read (R42). -/
def Obligations.NoStepFaultsUnderTheInvariant : Prop := ∀ (s : State) (x : Fault), Inv s → step s ≠ .fault x

/-- From every state, each step keeps memory in canonical form: addresses rising, inside the 2^32 bytes of R72, no byte listed
that reads as unlisted. -/
def Obligations.StepKeepsMemoryCanonical : Prop :=
  ∀ s t : State, Memory.wf s.mem → step s = .next t → Memory.wf t.mem

/-- A write to CMD of `w` comes next. -/
def cmdWriteIsNext (s : State) (w : Word) : Prop := ∃ ts, s.turns = .write 32 (regAddr s.platform .cmd) w :: ts

/-- A write to STATUS of `w` comes next. -/
def statusWriteIsNext (s : State) (w : Word) : Prop := ∃ ts, s.turns = .write 32 (regAddr s.platform .status) w :: ts

/-- Reset comes next. -/
def resetIsNext (s : State) : Prop := ∃ cut ts, s.turns = .reset cut :: ts

/-- The engine moves next, or ABORT is written: what can complete an operation (R214). -/
def completionIsNext (s : State) : Prop :=
  s.turns = [] ∨ (∃ ts, s.turns = .engine :: ts) ∨ ∃ w, cmdWriteIsNext s w ∧ decode w = .ok .abort

/-- A CMD write issues, while idle (R120): anything but NOP and ABORT. -/
def issueIsNext (s : State) : Prop :=
  s.busy = false ∧ ∃ w, cmdWriteIsNext s w ∧ decode w ≠ .ok .nop ∧ decode w ≠ .ok .abort

/-- R47: each flag's only writers, the invariant under BUSY = 1, which every step keeps, and that no read writes a flag. -/
def Obligations.FlagsHaveOnlyTheirWriters : Prop :=
  ∀ s t : State, step s = .next t →
    (s.busy = false → t.busy = true → ∃ w, cmdWriteIsNext s w ∧ (decode w = .ok .encode ∨ decode w = .ok .decode) ∧
      rangeCheck s = 0) ∧
    (s.busy = true → t.busy = false → resetIsNext s ∨ completionIsNext s ∧ t.done = true) ∧
    (s.done = false → t.done = true → s.busy = true ∧ t.busy = false ∧ completionIsNext s ∨
      issueIsNext s ∧ t.busy = false ∧ t.err = true ∧ (t.cause = .cmdIllegal ∨ t.cause = .cmdBadRange)) ∧
    (s.done = true → t.done = false → resetIsNext s ∨ issueIsNext s ∨ ∃ w, statusWriteIsNext s w ∧ w.getLsbD 1 = true) ∧
    (s.err = false → t.err = true → t.done = true ∧ t.cause ≠ .none ∧
      (s.busy = true ∧ t.busy = false ∧ completionIsNext s ∨
        issueIsNext s ∧ t.busy = false ∧ (t.cause = .cmdIllegal ∨ t.cause = .cmdBadRange))) ∧
    (s.err = true → t.err = false → resetIsNext s ∨ issueIsNext s ∨ ∃ w, statusWriteIsNext s w ∧ w.getLsbD 2 = true) ∧
    (s.ign = false → t.ign = true → s.busy = true ∧
      ((∃ w, cmdWriteIsNext s w ∧ decode w ≠ .ok .nop ∧ decode w ≠ .ok .abort) ∨
        ∃ r w ts, s.turns = .write 32 (regAddr s.platform r) w :: ts ∧
          (r = .ctrl ∨ r = .srcAddr ∨ r = .srcLen ∨ r = .dstAddr ∨ r = .dstCap))) ∧
    (s.ign = true → t.ign = false → resetIsNext s ∨ ∃ w, statusWriteIsNext s w ∧ w.getLsbD 3 = true) ∧
    (t.mode ≠ s.mode → resetIsNext s ∧ t.mode = .encode ∨
      s.busy = false ∧ ∃ w, cmdWriteIsNext s w ∧
        (decode w = .ok .encode ∧ t.mode = .encode ∨ decode w = .ok .decode ∧ t.mode = .decode)) ∧
    ((s.busy = true → s.done = false ∧ s.err = false) → t.busy = true → t.done = false ∧ t.err = false) ∧
    (((∃ width a ts, s.turns = .read width a :: ts) ∨ (∃ r m v ts, s.turns = .poll r m v :: ts) ∨
        ∃ a ts, s.turns = .memRead a :: ts) →
      t.busy = s.busy ∧ t.done = s.done ∧ t.err = s.err ∧ t.ign = s.ign ∧ t.mode = s.mode)

/-- R78, R79: an engine step writes only the destination bytes from OUT_LEN before it to OUT_LEN after it, inside the destination
window, and nothing else in memory; it never writes in the source window. -/
def Obligations.EngineWritesOnlyItsNextBytes : Prop :=
  ∀ s t : State, Inv s → s.busy = true → engineStep s = .next t →
    s.outLen.toNat ≤ t.outLen.toNat ∧ t.outLen.toNat ≤ s.dstCap.toNat ∧
      s.inPos.toNat ≤ t.inPos.toNat ∧ t.inPos.toNat ≤ s.srcLen.toNat ∧
      (∀ a, a < s.dstAddr.toNat + s.outLen.toNat ∨ s.dstAddr.toNat + t.outLen.toNat ≤ a →
        Memory.read t.mem a = Memory.read s.mem a) ∧
      ∀ a, windowHas (srcWindow s) a = true → Memory.read t.mem a = Memory.read s.mem a

/-- R48 and R49 as they are written, for every reachable state: IN_POS <= SRC_LEN and OUT_LEN <= DST_CAP. Expected to FAIL: after a
completion the host may write smaller values to SRC_LEN and DST_CAP, as program P5's end state (c) does (log 19). -/
def Obligations.CountersStayBelowTheRegistersAlways : Prop :=
  ∀ s : State, Reachable s → s.inPos.toNat ≤ s.srcLen.toNat ∧ s.outLen.toNat ≤ s.dstCap.toNat

/-- R131: from any running operation that meets the invariant, the engine alone ends it, whatever the bus answers: ENCODE within
one step a symbol and a flush, DECODE within one step a code and a last one. -/
def Obligations.EveryOperationEnds : Prop :=
  ∀ s : State, Inv s → s.busy = true → s.turns = [] →
    (s.mode = .encode → ∃ t, runSteps (s.srcLen.toNat - s.inPos.toNat + 1) s = .next t ∧ t.busy = false ∧ t.done = true) ∧
    (s.mode = .decode →
      ∃ t, runSteps ((s.srcLen.toNat - s.inPos.toNat) / 2 + 1) s = .next t ∧ t.busy = false ∧ t.done = true)

/-! ### What the two units compute -/

/-- R122, R16, R159: a launched ENCODE with room for its codes ends in success after SRC_LEN + 1 steps, its result is the packed
lzw_codes of the source bytes, the counters are those of R159, and every byte outside the result is as before. -/
def Obligations.EncodeComputesPackedLzwCodes : Prop :=
  ∀ s : State, LaunchReady s → (encodeBytes (sourceBytes s)).length ≤ s.dstCap.toNat →
    ∃ a t, exec .encode s = .next a ∧ runSteps (s.srcLen.toNat + 1) a = .next t ∧
      t.busy = false ∧ t.done = true ∧ t.err = false ∧ t.cause = .none ∧
      holdsAt t s.dstAddr.toNat (encodeBytes (sourceBytes s)) ∧
      t.outLen.toNat = (encodeBytes (sourceBytes s)).length ∧
      t.codeCount.toNat = (lzwCodes (sourceBytes s)).length ∧
      t.inPos = s.srcLen ∧ t.dictNext.toNat = (encScan (sourceBytes s)).size ∧
      untouchedOutside s.dstAddr.toNat (encodeBytes (sourceBytes s)).length s t

/-- R122, R157, R215: a launched ENCODE without room for its codes ends in DST_FULL, after writing every whole code that fits. -/
def Obligations.EncodeWithoutRoomWritesWholeCodes : Prop :=
  ∀ s : State, LaunchReady s → s.dstCap.toNat < (encodeBytes (sourceBytes s)).length →
    ∃ a t, exec .encode s = .next a ∧ runSteps (s.srcLen.toNat + 1) a = .next t ∧
      t.busy = false ∧ t.done = true ∧ t.err = true ∧ t.cause = .dstFull ∧ t.errInfo = 2 ∧
      t.codeCount.toNat = s.dstCap.toNat / 2 ∧ t.outLen.toNat = 2 * (s.dstCap.toNat / 2) ∧
      holdsAt t s.dstAddr.toNat ((encodeBytes (sourceBytes s)).take (2 * (s.dstCap.toNat / 2))) ∧
      untouchedOutside s.dstAddr.toNat (2 * (s.dstCap.toNat / 2)) s t

/-- R123, R17: a launched DECODE of a stream that the reconstruction accepts, with room for its bytes, ends in success after
floor(SRC_LEN / 2) + 1 steps with exactly those bytes, a final odd byte read and dropped. -/
def Obligations.DecodeComputesTheReconstruction : Prop :=
  ∀ (s : State) (v : DecVars), LaunchReady s → decScan s.decCeil (unpack (sourceBytes s)) decVars0 = (v, none) →
    v.out.length ≤ s.dstCap.toNat →
      ∃ a t, exec .decode s = .next a ∧ runSteps (s.srcLen.toNat / 2 + 1) a = .next t ∧
        decodeBytes s.decCeil (sourceBytes s) = .bytes v.out ∧
        t.busy = false ∧ t.done = true ∧ t.err = false ∧ t.cause = .none ∧
        holdsAt t s.dstAddr.toNat v.out ∧ t.outLen.toNat = v.out.length ∧ t.inPos = s.srcLen ∧
        t.codeCount.toNat = v.count ∧ t.dictNext.toNat = 256 + v.learned.length ∧
        untouchedOutside s.dstAddr.toNat v.out.length s t

/-- R123, R186, R38, R213: a launched DECODE of a stream with an unresolvable code reports that code's error; the bytes of the codes
before it stand in the destination, CODE_COUNT is the code's index, and IN_POS is after its two bytes. -/
def Obligations.DecodeReportsTheFirstBadCode : Prop :=
  ∀ (s : State) (v : DecVars) (k : Cause) (c : Nat), LaunchReady s →
    decScan s.decCeil (unpack (sourceBytes s)) decVars0 = (v, some (k, c)) → v.out.length ≤ s.dstCap.toNat →
      ∃ a t, exec .decode s = .next a ∧ runSteps (s.srcLen.toNat / 2 + 1) a = .next t ∧
        t.busy = false ∧ t.done = true ∧ t.err = true ∧ t.cause = k ∧ t.errInfo.toNat = c ∧
        (k = .decFirstCode ∨ k = .decUnknownCode) ∧ (unpack (sourceBytes s))[v.count]? = some c ∧
        t.codeCount.toNat = v.count ∧ t.inPos.toNat = 2 * (v.count + 1) ∧
        holdsAt t s.dstAddr.toNat v.out ∧ t.outLen.toNat = v.out.length ∧
        untouchedOutside s.dstAddr.toNat v.out.length s t

/-- R18: decode(encode(x)) = x for every byte string and either value of DEC_CEIL. -/
def Obligations.DecodeInvertsEncode : Prop :=
  ∀ (decCeil : Bool) (x : List Byte), decodeBytes decCeil (encodeBytes x) = .bytes x

/-- R161: the encoder in codes emits the same codes as the source's string-keyed dictionary, input for input. -/
def Obligations.CodesMatchTheSourceDictionary : Prop := ∀ x : List Byte, lzwCodes x = sourceCodes x

/-- R165, R163, R167: the codes of an output are at most ENC_MAX_CODE, there are never more codes than symbols, and a scan makes at
most 3841 entries, one an emission until the ceiling. -/
def Obligations.EncoderOutputIsBounded : Prop :=
  ∀ x : List Byte, (∀ c ∈ lzwCodes x, c ≤ 4096) ∧ (lzwCodes x).length ≤ x.length ∧
    (encScan x).size = 256 + min (encScan x).out.length 3841

/-- R163: when no adjacent pair occurs twice, every symbol emits its own seed code. -/
def Obligations.NoRepeatedPairPassesThrough : Prop :=
  ∀ x : List Byte,
    (∀ i j a b, x[i]? = some a → x[i + 1]? = some b → x[j]? = some a → x[j + 1]? = some b → i = j) →
      lzwCodes x = x.map BitVec.toNat

/-- R164: the codes of a run of one byte that does not reach the ceiling. -/
def Obligations.RunOfOneByteCodes : Prop :=
  ∀ (b : Byte) (k r : Nat), 1 ≤ r → r ≤ k → k - 1 ≤ 3841 →
    lzwCodes (List.replicate ((k - 1) * k / 2 + r) b) =
        (if k = 1 then [] else b.toNat :: List.range' 256 (k - 2)) ++ [if r = 1 then b.toNat else 256 + r - 2] ∧
      (encScan (List.replicate ((k - 1) * k / 2 + r) b)).size = 255 + k

/-- R192, R193: for a stream, of this encoder or not, that names no code above 4096, the ceiling toggle changes nothing. -/
def Obligations.CeilingToggleMattersOnlyAbove4096 : Prop :=
  ∀ cs : List Nat, (∀ c ∈ cs, c ≤ 4096) → decodeCodes true cs = decodeCodes false cs

/-- R197, R52: under the invariant every valid code of a running decode has a string, of at most k - 254 bytes for a learned code k
and of one byte for a seed. -/
def Obligations.DecodedStringsAreBounded : Prop :=
  ∀ (s : State) (k : Nat), Inv s → s.busy = true → s.mode = .decode → k < s.dictNext.toNat →
    ∃ w, s.dd.str s.dictNext.toNat k = some w ∧
      w.bytes.length ≤ (if k < 256 then 1 else k - 254)

/-- R19, R53, R242: no state survives from one operation to the next. Two idle states that differ only in e.cur, e.prev, ED and DD
go on alike for ever, as far as anything outside the block can tell. -/
def Obligations.NothingSurvivesInsideTheBlock : Prop :=
  ∀ (s t : State) (n : Nat), s.busy = false → outsideView s = outsideView t → sameOutside (runSteps n s) (runSteps n t)

/-- R112: the turns of the script line ENCODE or DECODE write the four operand registers and then run the command. -/
def Obligations.ScriptLaunchRunsTheCommand : Prop :=
  ∀ (s : State) (a n d k : Word), s.busy = false →
    runSteps 5 { s with turns := scriptTurns s.platform [.encode a n d k] } =
        exec .encode { s with turns := [], resp := .written, srcAddr := a, srcLen := n, dstAddr := d, dstCap := k } ∧
      runSteps 5 { s with turns := scriptTurns s.platform [.decode a n d k] } =
        exec .decode { s with turns := [], resp := .written, srcAddr := a, srcLen := n, dstAddr := d, dstCap := k }
end

