-- ==== Sys2Proof/Laws/Encoding.lean ====
section
/-! SUPPORT. Concatenations as numbers: the code of two bytes (R109), and the lanes of a register word (R76). -/

namespace Sys2Proof.Machine

/-- A concatenation as a number (R10). -/
theorem toNat_append_eq {m n : Nat} (x : BitVec m) (y : BitVec n) : (x ++ y).toNat = x.toNat * 2 ^ n + y.toNat := by
  rw [BitVec.toNat_append, ← Nat.shiftLeft_add_eq_or_of_lt y.isLt, Nat.shiftLeft_eq]

/-- `{hi, lo}` = hi * 256 + lo (R109). -/
theorem codeOf_eq (hi lo : Byte) : codeOf hi lo = hi.toNat * 256 + lo.toNat := toNat_append_eq hi lo

/-- The two bytes of a 16-bit code give it back (R103). -/
theorem codeOf_pack1 {c : Nat} (h : c < 65536) :
    codeOf ((BitVec.ofNat 16 c).extractLsb' 8 8) ((BitVec.ofNat 16 c).extractLsb' 0 8) = c := by
  rw [codeOf_eq]
  simp only [BitVec.extractLsb'_toNat, BitVec.toNat_ofNat, Nat.shiftRight_eq_div_pow]
  omega

/-- Lanes and words are two views of the same bits (R76). -/
theorem wordOfLanes_lanesOfWord (w : Word) :
    wordOfLanes (w.extractLsb' 0 8) (w.extractLsb' 8 8) (w.extractLsb' 16 8) (w.extractLsb' 24 8) = w := by
  apply BitVec.eq_of_toNat_eq
  have h := w.isLt
  simp only [wordOfLanes, toNat_append_eq, BitVec.extractLsb'_toNat, Nat.shiftRight_eq_div_pow]
  omega

end Sys2Proof.Machine
end

