-- ==== Sys2Proof/Laws/PerInstr.lean ====
section
/-! SUPPORT. One statement per command, by constructor: the fields of its word (30_encoding.md R101, R105). -/

namespace Sys2Proof.Laws.CommandFields

/-- The command's word has MBZ = 0 and one of the four defined OP values. -/
def Statement (i : Instr) : Prop := mbzField (encode i) = 0 ∧ (opField (encode i)).toNat ≤ 3

theorem nop : Statement .nop := by unfold Statement; decide

theorem encode : Statement .encode := by unfold Statement; decide

theorem decode : Statement .decode := by unfold Statement; decide

theorem abort : Statement .abort := by unfold Statement; decide

end Sys2Proof.Laws.CommandFields
end

