-- ==== Sys2Proof/Tests/Slice0.lean ====
section
/-! SUPPORT. The model's own tests: decoding of words written out from 30_encoding.md, refusal of ill-formed terms, single steps
with results taken from 95_test_vectors.md, and for each obligation with hypotheses a concrete input that meets them. -/

namespace Sys2Proof.Tests

open Sys2Proof Sys2Proof.Machine

/-! ### Small states -/

/-- A memory of given bytes, none of them zero, from an address on. -/
def cells : Nat → List Byte → Memory
  | _, [] => []
  | a, b :: bs => (a, b) :: cells (a + 1) bs

/-- An idle block with a source at 0x1000 and a destination of some capacity at 0x100000 (95_test_vectors.md, conventions). -/
def idle (src : Memory) (len cap : Word) : State :=
  { State.reset with mem := src, srcAddr := 0x1000, srcLen := len, dstAddr := 0x100000, dstCap := cap }

/-- The source "aaa" of V-E3. -/
def aaa (cap : Word) : State := idle (cells 0x1000 [0x61, 0x61, 0x61]) 3 cap

/-- The stream 00 61 01 00 of V-D3. -/
def stream (cap : Word) : State := idle [(0x1001, 0x61), (0x1002, 0x01)] 4 cap

/-- ENCODE of "aaa", just accepted. -/
def enc0 (cap : Word) : State := { aaa cap with busy := true, dictNext := 256 }

/-- ENCODE of "aaa" after its first symbol: e.cur = 97. -/
def enc1 (cap : Word) : State := { enc0 cap with inPos := 1, cur := some 97 }

/-- ENCODE of "aaa" after its second symbol: code 97 is written and entry 256 made. -/
def enc2 : State :=
  { enc0 0x10 with
    inPos := 2, cur := some 97, outLen := 2, codeCount := 1, dictNext := 257, ed := [(256, ⟨97, 0x61⟩)]
    mem := cells 0x1000 [0x61, 0x61, 0x61] ++ [(0x100001, 0x61)] }

/-- ENCODE of "aaa" with its input read: e.cur = 256. -/
def enc3 : State := { enc2 with inPos := 3, cur := some 256 }

/-- DECODE of 00 61 01 00, just accepted. -/
def dec0 (cap : Word) : State := { stream cap with busy := true, mode := .decode, dictNext := 256 }

/-- DECODE of 00 61 01 00 after its first code. -/
def dec1 (cap : Word) : State :=
  { dec0 cap with
    inPos := 2, prev := some 97, outLen := 1, codeCount := 1
    mem := [(0x1001, 0x61), (0x1002, 0x01), (0x100000, 0x61)] }

/-- DECODE of 00 61 01 00 after its second code. -/
def dec2 : State :=
  { dec1 0x10 with
    inPos := 4, prev := some 256, outLen := 3, codeCount := 2, dictNext := 257, dd := [(256, ⟨97, 0x61⟩)]
    mem := [(0x1001, 0x61), (0x1002, 0x01), (0x100000, 0x61), (0x100001, 0x61), (0x100002, 0x61)] }

/-- A view of an outcome's next state. -/
def seen {α : Type} (f : State → α) : Host.Outcome State Fault Refusal → Option α
  | .next s => some (f s)
  | .fault _ => none
  | .refused _ => none

/-- What RD would give for STATUS, ERRCODE, ERRINFO, IN_POS, OUT_LEN, CODE_COUNT, DICT_NEXT. -/
def report (s : State) : List Nat :=
  [RegName.status, .errcode, .errinfo, .inPos, .outLen, .codeCount, .dictNext].map fun r => (readReg r s).toNat

/-! ### Well-formed terms -/

theorem test_wf_commands : [Instr.nop, .encode, .decode, .abort].all Instr.wf = true := by decide

theorem test_wf_poll_accepts : (HostLine.poll .status 0x6 0x2).wf = true := by decide

theorem test_wf_poll_value_outside_mask_refused : (HostLine.poll .status 0x2 0x4).wf = false := by decide

theorem test_wf_mem_to_the_end_accepts : (HostLine.mem 0xFFFFFFFE [1, 2]).wf = true := by decide

theorem test_wf_mem_past_the_end_refused : (HostLine.mem 0xFFFFFFFE [1, 2, 3]).wf = false := by decide

theorem test_wf_expect_past_the_end_refused : (HostLine.expectMem 0xFFFFFFFF [1, 2]).wf = false := by decide

/-! ### Decoding: words written out bit by bit from R101 and R105 -/

theorem test_decode_nop : decode 0b00000000000000000000000000000000 = .ok .nop := by decide

theorem test_decode_encode : decode 0b00000000000000000000000000000001 = .ok .encode := by decide

theorem test_decode_decode : decode 0b00000000000000000000000000000010 = .ok .decode := by decide

theorem test_decode_abort : decode 0b00000000000000000000000000000011 = .ok .abort := by decide

theorem test_decode_reserved_op : decode 0b00000000000000000000000000000100 = .error (.reservedOp 4) := by decide

theorem test_decode_mbz_low : decode 0b00000000000000000000000000010000 = .error .mbzNotZero := by decide

theorem test_decode_mbz_high : decode 0b10000000000000000000000000000001 = .error .mbzNotZero := by decide

theorem test_encode_words : [Instr.nop, .encode, .decode, .abort].map encode = [0, 1, 2, 3] := by decide

theorem test_decodeTableWord : decodeTableWord 32 2 = some .decode ∧ decodeTableWord 32 4 = none := by decide

/-- V-P1. -/
theorem test_pack_vectors :
    [0, 97, 255, 256, 4095, 4096, 4097, 65535].map pack1 =
      [[0x00, 0x00], [0x00, 0x61], [0x00, 0xFF], [0x01, 0x00], [0x0F, 0xFF], [0x10, 0x00], [0x10, 0x01], [0xFF, 0xFF]] := by
  decide

/-- V-P1: unpack(00 61 01) = [97]. -/
theorem test_unpack_odd : unpack [0x00, 0x61, 0x01] = [97] ∧ unpack [] = [] := by decide

/-- R76: bits 7:0 in the lane of the lowest address. -/
theorem test_lanes : lanesOfWord 0x0001020C = [0x0C, 0x02, 0x01, 0x00] ∧ wordOfLanes 0x0C 0x02 0x01 0x00 = 0x0001020C := by
  decide

/-! ### Commands, one step each -/

/-- R121: `WR CMD, 0x0` with STATUS = 0x2 leaves it. -/
theorem test_nop_keeps_done :
    seen (readReg .status) (exec .nop { State.reset with done := true }) = some 0x2 := by decide

/-- R122: an accepted ENCODE reads BUSY with DICT_NEXT 256. -/
theorem test_encode_accepted : seen report (exec .encode (aaa 0x10000)) = some [0x1, 0, 0, 0, 0, 0, 256] := by decide

/-- R127: source and destination overlap by one byte: ERRCODE 0x321, ERRINFO 4. -/
theorem test_encode_overlap :
    seen report (exec .encode { State.reset with srcAddr := 0x1000, srcLen := 3, dstAddr := 0x1002, dstCap := 8 }) =
      some [0x6, 0x321, 4, 0, 0, 0, 0] := by decide

/-- R123: an accepted DECODE reads BUSY and MODE. -/
theorem test_decode_accepted : seen report (exec .decode (stream 0x10000)) = some [0x11, 0, 0, 0, 0, 0, 256] := by decide

/-- R127: a source that ends at 2^32 is legal, a destination one past it is not: ERRINFO 2. -/
theorem test_decode_dst_wraps :
    seen report (exec .decode
        { State.reset with srcAddr := 0xFFFFFFFE, srcLen := 2, dstAddr := 0xFFFFFFF0, dstCap := 0x11, done := true }) =
      some [0x16, 0x321, 6, 0, 0, 0, 0] := by decide

/-- R124: `WR CMD, 0x3` during an ENCODE, then `RD STATUS -> 0x6`, ERRCODE 0x330, the counters kept. -/
theorem test_abort_running : seen report (exec .abort enc2) = some [0x6, 0x330, 0, 2, 2, 1, 257] := by decide

/-- R124: ABORT while idle does not clear DONE. -/
theorem test_abort_idle : seen report (exec .abort { State.reset with done := true }) = some [0x2, 0, 0, 0, 0, 0, 0] := by decide

/-- R125: `WR CMD, 0x10`, then ERRCODE 0x320, ERRINFO 0x10. -/
theorem test_illegal_word :
    seen report (step { State.reset with turns := [.write 32 0x8 0x10] }) = some [0x6, 0x320, 0x10, 0, 0, 0, 0] := by decide

/-! ### Engine steps -/

/-- V-E3, second symbol: 97 is written, entry 256 made (R154's example). -/
theorem test_symbol_emits : seen report (step (enc1 0x10)) = some [0x1, 0, 0, 2, 2, 1, 257] := by decide

/-- V-E3: at the end the output is 00 61 01 00. -/
theorem test_flush_bytes :
    seen (fun s => (report s, [0, 1, 2, 3].map fun i => Memory.read s.mem (0x100000 + i))) (step enc3) =
      some ([0x2, 0, 0, 3, 4, 2, 257], [0x00, 0x61, 0x01, 0x00]) := by decide

/-- V-E14: no room at the second symbol. -/
theorem test_symbol_dst_full : seen report (step (enc1 0)) = some [0x6, 0x103, 2, 2, 0, 0, 256] := by decide

/-- V-E16's fault: the low byte of a code. -/
theorem test_low_byte_fault :
    seen report (step { enc1 0x10 with platform := ⟨0, [], [⟨0x100001, 1⟩], []⟩ }) = some [0x6, 0x102, 1, 2, 1, 0, 256] := by
  decide

/-- V-D3: the special case at the second code. -/
theorem test_special_case :
    seen (fun s => (report s, [0, 1, 2].map fun i => Memory.read s.mem (0x100000 + i))) (step (dec1 0x10)) =
      some ([0x11, 0, 0, 4, 3, 2, 257], [0x61, 0x61, 0x61]) := by decide

/-- V-D13: "aa" does not fit. -/
theorem test_string_dst_full : seen report (step (dec1 2)) = some [0x16, 0x103, 2, 4, 1, 1, 256] := by decide

/-- V-D7: the first code is 256. -/
theorem test_first_code :
    seen report (step { dec0 0x10 with mem := [(0x1000, 1)] }) = some [0x16, 0x210, 0x100, 2, 0, 0, 256] := by decide

/-- V-D9: code 257 with DICT_NEXT 256. -/
theorem test_unknown_code :
    seen report (step { dec1 0x10 with mem := [(0x1002, 1), (0x1003, 1)] }) = some [0x16, 0x211, 0x101, 4, 1, 1, 256] := by
  decide

/-- V-D16: the odd tail byte faults. -/
theorem test_tail_fault :
    seen report (step { dec1 0x10 with srcLen := 3, platform := ⟨0, [⟨0x1002, 1⟩], [], []⟩ }) =
      some [0x16, 0x101, 2, 2, 1, 1, 256] := by decide

/-- I8: reset cuts the flush of "aaa" (code 256 = 01 00) before and after its high byte; "aaa" of V-D3 after one byte of two. -/
theorem test_reset_cuts_a_step :
    seen (fun s => (report s, Memory.read s.mem 0x100002)) (step { enc3 with turns := [.reset 0] }) =
        some ([0, 0, 0, 0, 0, 0, 0], 0x00) ∧
      seen (fun s => (report s, Memory.read s.mem 0x100002)) (step { enc3 with turns := [.reset 1] }) =
        some ([0, 0, 0, 0, 0, 0, 0], 0x01) ∧
      seen (fun s => [0, 1, 2].map fun i => Memory.read s.mem (0x100000 + i)) (step { dec1 0x10 with turns := [.reset 1] }) =
        some [0x61, 0x61, 0x00] := by decide

/-- R159's example. -/
theorem test_lzw_codes_tobeornot :
    lzwCodes [84, 79, 66, 69, 79, 82, 78, 79, 84, 84, 79, 66, 69, 79, 82, 84, 79, 66, 69, 79, 82, 78, 79, 84] =
      [84, 79, 66, 69, 79, 82, 78, 79, 84, 256, 258, 260, 265, 259, 261, 263] := by decide +kernel

/-! ### Memory -/

theorem test_write_zero_unlists : Memory.write 5 0 [(4, 1), (5, 2), (6, 3)] = [(4, 1), (6, 3)] := by decide

theorem test_write_keeps_order : Memory.write 5 9 [(4, 1), (6, 3)] = [(4, 1), (5, 9), (6, 3)] := by decide

/-! ### Witnesses: encodings -/

theorem witness_CommandWordsOfTheOpcodeMap : 4 ≤ (4 : BitVec 4).toNat ∧ 4 ≤ (15 : BitVec 4).toNat := by decide

theorem witness_DecodeAcceptsExactlyTheFourWords :
    Instr.abort.wf = true ∧ decode 3 = .ok .abort ∧ (0x10 : Word).toNat / 16 ≠ 0 ∧ (0xFFFFFFFF : Word).toNat / 16 ≠ 0 := by
  decide

theorem witness_UnpackCutsAndInvertsPack :
    1 < [0x00, 0x61, 0x01, 0x00, 0x07].length / 2 ∧ ∀ c ∈ [0, 4096, 65535], c ≤ 65535 := by decide

theorem witness_PackWritesHighByteFirst :
    [0, 65535][0]? = some 0 ∧ [0, 65535][1]? = some 65535 ∧ 65535 ≤ 65535 := by decide

/-! ### Witnesses: reset and steps -/

theorem witness_ResetSetsEveryRegister : { enc2 with turns := [.reset 1] }.turns = [Turn.reset 1] := rfl

/-- A running flush of two bytes: the cut index below, at and above the bytes of the step. -/
theorem witness_ResetAbandonsTheOperation :
    { enc3 with turns := [.reset 3] }.busy = true ∧ { enc3 with turns := [.reset 3] }.turns = [Turn.reset 3] ∧ enc3.races = [] ∧
      seen (fun u => u.outLen.toNat - enc3.outLen.toNat) (engineStep { enc3 with turns := [.reset 3] }) = some 2 ∧
      1 < 2 ∧ ¬ 2 < 2 ∧ 2 < 3 := by decide

theorem witness_StepRunsTheDecodedCommand :
    { aaa 8 with turns := [.write 32 0x8 1] }.turns = [.write 32 (regAddr (aaa 8).platform .cmd) 1] ∧
      decode 1 = .ok .encode ∧ Instr.encode.wf = true := by decide

theorem witness_TheEngineTakesItsEnabledStep :
    { enc0 8 with turns := [.engine, .read 32 0xC] }.turns = [.engine, .read 32 0xC] ∧ (aaa 8).turns = [] ∧ (aaa 8).busy = false ∧
      (enc0 8).turns = [] ∧ (enc0 8).busy = true ∧ (enc0 8).mode = .encode ∧ (enc0 8).inPos.toNat < (enc0 8).srcLen.toNat ∧
      enc3.turns = [] ∧ enc3.busy = true ∧ enc3.mode = .encode ∧ enc3.srcLen.toNat ≤ enc3.inPos.toNat ∧
      (dec1 8).turns = [] ∧ (dec1 8).busy = true ∧ (dec1 8).mode = .decode ∧
      (dec1 8).inPos.toNat + 2 ≤ (dec1 8).srcLen.toNat ∧
      { dec1 8 with srcLen := 3 }.inPos.toNat + 1 = { dec1 8 with srcLen := 3 }.srcLen.toNat ∧
      dec2.turns = [] ∧ dec2.busy = true ∧ dec2.mode = .decode ∧ dec2.srcLen.toNat ≤ dec2.inPos.toNat := by decide

/-! ### Witnesses: commands -/

/-- Windows that end exactly at 2^32, and empty ones, are legal. -/
theorem witness_LaunchIsAccepted :
    State.reset.busy = false ∧ rangeCheck State.reset = 0 ∧ onDevice State.reset = false ∧
      rangeCheck { State.reset with srcAddr := 0xFFFFFFFE, srcLen := 2, dstAddr := 0xFFFFFFF0, dstCap := 0xE } = 0 ∧
      rangeCheck { State.reset with srcAddr := 5, srcLen := 0, dstAddr := 0, dstCap := 0xFFFFFFFF } = 0 := by decide

theorem witness_BadRangeIsRejected :
    rangeCheck { State.reset with srcAddr := 0xFFFFFFFF, srcLen := 2 } = 1 ∧
      rangeCheck { State.reset with dstAddr := 0xFFFFFFFF, dstCap := 2 } = 2 ∧
      rangeCheck { State.reset with srcAddr := 0x10, srcLen := 1, dstAddr := 0x10, dstCap := 1 } = 4 ∧
      State.reset.busy = false := by decide

theorem witness_CommandsWhileBusyAreIgnored :
    { enc2 with turns := [.write 32 0x8 2] }.busy = true ∧
      { enc2 with turns := [.write 32 0x8 2] }.turns = [.write 32 (regAddr enc2.platform .cmd) 2] ∧
      decode 1 = .ok .encode ∧ decode 2 = .ok .decode ∧ decode 0x80000000 = .error .mbzNotZero := by decide

theorem witness_IllegalWordIsRejected :
    { State.reset with turns := [.write 32 0x8 4] }.busy = false ∧
      { State.reset with turns := [.write 32 0x8 4] }.turns = [.write 32 (regAddr State.reset.platform .cmd) 4] ∧
      4 ≤ (4 : Word).toNat % 16 ∧ (0x10 : Word).toNat / 16 ≠ 0 := by decide

theorem witness_AbortCompletesARunningOperation : enc2.busy = true ∧ enc2.races = [] ∧ (aaa 8).busy = false := by decide

theorem witness_LaunchOnADeviceIsRefused :
    { aaa 8 with platform := ⟨0, [], [], [⟨0x1002, 1⟩]⟩ }.busy = false ∧
      rangeCheck { aaa 8 with platform := ⟨0, [], [], [⟨0x1002, 1⟩]⟩ } = 0 ∧
      onDevice { aaa 8 with platform := ⟨0, [], [], [⟨0x1002, 1⟩]⟩ } = true := by decide

theorem witness_CommandsLeaveMemoryAndConfiguration :
    (∃ t, exec .nop enc2 = .next t) ∧ (∃ t, exec .encode (aaa 8) = .next t) ∧ (∃ t, exec .decode (stream 8) = .next t) ∧
      ∃ t, exec .abort enc2 = .next t :=
  ⟨⟨_, rfl⟩, ⟨_, rfl⟩, ⟨_, rfl⟩, ⟨_, rfl⟩⟩

/-! ### Witnesses: registers -/

theorem witness_ConfigurationIsFrozenWhileBusy :
    { enc2 with turns := [.write 32 0x1C 9] }.turns = [.write 32 (regAddr enc2.platform .srcLen) 9] ∧ enc2.busy = true ∧
      [RegName.ctrl, .srcAddr, .srcLen, .dstAddr, .dstCap].map (regAddr State.reset.platform) =
        [0x04, 0x18, 0x1C, 0x20, 0x24] ∧
      State.reset.busy = false ∧ (engineStep State.reset matches .next _) = true ∧
      (engineStep (enc1 0x10) matches .next _) = true := by decide

/-- A STATUS write meets its hypotheses at both ends of BUSY. -/
theorem witness_StatusWriteClearsByOnes :
    { aaa 8 with turns := [.write 32 0xC 0xE] }.turns = [.write 32 (regAddr (aaa 8).platform .status) 0xE] ∧
      { enc0 8 with turns := [.write 32 0xC 8] }.busy = true := by decide

theorem witness_ReservedOffsetsReadZeroAndIgnoreWrites :
    0x38 % 4 = 0 ∧ 0xFC % 4 = 0 ∧ 0xFC ≤ 0xFC ∧
      { State.reset with turns := [.read 32 0x38] }.turns = [.read 32 (State.reset.platform.base + BitVec.ofNat 32 0x38)] ∧
      { State.reset with turns := [.write 32 0xFC 1] }.turns =
        [.write 32 (State.reset.platform.base + BitVec.ofNat 32 0xFC) 1] := by decide

theorem witness_ReadOnlyRegistersIgnoreWrites :
    [RegName.id, .errcode, .errinfo, .inPos, .outLen, .codeCount, .dictNext].map (regAddr State.reset.platform) =
        [0x00, 0x10, 0x14, 0x28, 0x2C, 0x30, 0x34] ∧
      { State.reset with turns := [.write 32 0x34 7] }.turns = [.write 32 (regAddr State.reset.platform .dictNext) 7] := by
  decide

theorem witness_RegisterAccessesAreWholeAlignedWords :
    { State.reset with turns := [.read 8 0x0] }.turns = [.read 8 (State.reset.platform.base + BitVec.ofNat 32 0)] ∧
      (8 ≠ 32 ∨ 0 % 4 ≠ 0) ∧
      { State.reset with turns := [.write 32 0xFF 1] }.turns =
        [.write 32 (State.reset.platform.base + BitVec.ofNat 32 0xFF) 1] ∧ 0xFF % 4 ≠ 0 ∧ 0xFF < 0x100 ∧
      { State.reset with turns := [.read 32 0x100] }.turns = [.read 32 (State.reset.platform.base + BitVec.ofNat 32 0x100)] ∧
      0x100 < 2 ^ 32 ∧
      { State.reset with turns := [.read 32 0x34] }.turns = [.read 32 (regAddr State.reset.platform .dictNext)] := by decide

theorem witness_InterruptLineFollowsEnableAndDone :
    { State.reset with turns := [.write 32 0x4 2], done := true }.turns = [.write 32 (regAddr State.reset.platform .ctrl) 2] ∧
      { State.reset with turns := [.write 32 0xC 2] }.turns = [.write 32 (regAddr State.reset.platform .status) 2] ∧
      (2 : Word).getLsbD 1 = true ∧ (aaa 8).busy = false ∧ rangeCheck (aaa 8) = 0 ∧ onDevice (aaa 8) = false ∧
      enc2.busy = true := by decide

/-! ### Witnesses: the invariant -/

theorem witness_Inv_idle : Inv (aaa 8) := ⟨by decide, by decide, fun _ => rfl, fun h => by cases h⟩

theorem witness_Inv_enc0 : Inv (enc0 0x10) where
  mem_wf := by decide
  next_le := by decide
  idle_races := fun _ => rfl
  busy_inv := fun _ =>
    { no_report := by decide
      range_ok := by decide
      off_device := by decide
      in_pos_le := by decide
      out_len_le := by decide
      next_ge := by decide
      next_count := by decide
      enc := fun _ =>
        { out_len := by decide
          next_le := by decide
          parents := fun k h1 (h2 : k < 256) => absurd h1 (by simp only [Config.seedCount]; omega)
          unique := fun j _ h1 (h2 : j < 256) => absurd h1 (by simp only [Config.seedCount]; omega)
          cur_ok := .inl ⟨rfl, rfl, rfl⟩ }
      dec := fun h => by cases h }

theorem witness_Inv_enc2 : Inv enc2 where
  mem_wf := by decide
  next_le := by decide
  idle_races := fun _ => rfl
  busy_inv := fun _ =>
    { no_report := by decide
      range_ok := by decide
      off_device := by decide
      in_pos_le := by decide
      out_len_le := by decide
      next_ge := by decide
      next_count := by decide
      enc := fun _ =>
        { out_len := by decide
          next_le := by decide
          parents := fun k h1 (h2 : k < 257) => by
            simp only [Config.seedCount] at h1
            obtain rfl : k = 256 := by omega
            exact ⟨⟨97, 0x61⟩, rfl, by decide⟩
          unique := fun j k h1 (h2 : j < 257) h3 (h4 : k < 257) _ => by
            simp only [Config.seedCount] at h1 h3
            omega
          cur_ok := .inr ⟨97, rfl, by decide, by decide⟩ }
      dec := fun h => by cases h }

theorem witness_Inv_dec1 : Inv (dec1 0x10) where
  mem_wf := by decide
  next_le := by decide
  idle_races := fun _ => rfl
  busy_inv := fun _ =>
    { no_report := by decide
      range_ok := by decide
      off_device := by decide
      in_pos_le := by decide
      out_len_le := by decide
      next_ge := by decide
      next_count := by decide
      enc := fun h => by cases h
      dec := fun _ =>
        { next_le := by decide
          parents := fun k h1 (h2 : k < 256) => absurd h1 (by simp only [Config.seedCount]; omega)
          in_pos := by decide
          prev_ok := .inr ⟨97, rfl, by decide, by decide⟩ } }

theorem witness_Inv_dec2 : Inv dec2 where
  mem_wf := by decide
  next_le := by decide
  idle_races := fun _ => rfl
  busy_inv := fun _ =>
    { no_report := by decide
      range_ok := by decide
      off_device := by decide
      in_pos_le := by decide
      out_len_le := by decide
      next_ge := by decide
      next_count := by decide
      enc := fun h => by cases h
      dec := fun _ =>
        { next_le := by decide
          parents := fun k h1 (h2 : k < 257) => by
            simp only [Config.seedCount] at h1
            obtain rfl : k = 256 := by omega
            exact ⟨⟨97, 0x61⟩, rfl, by decide⟩
          in_pos := by decide
          prev_ok := .inr ⟨256, rfl, by decide, by decide⟩ } }

/-- The last clause of StatusWriteClearsByOnes: a state with Inv, BUSY = 1 and a STATUS write to come. -/
theorem witness_StatusWriteClearsByOnes_busy :
    Inv { enc2 with turns := [.write 32 0xC 8] } ∧ { enc2 with turns := [.write 32 0xC 8] }.busy = true ∧
      { enc2 with turns := [.write 32 0xC 8] }.turns = [.write 32 (regAddr enc2.platform .status) 8] := by
  refine ⟨⟨witness_Inv_enc2.mem_wf, witness_Inv_enc2.next_le, fun _ => rfl, fun _ => ?_⟩, rfl, by decide⟩
  obtain ⟨h1, h2, h3, h4, h5, h6, h7, h8, h9⟩ := witness_Inv_enc2.busy_inv rfl
  refine ⟨h1, h2, h3, h4, h5, h6, h7, fun h => ?_, fun h => by cases h⟩
  obtain ⟨g1, g2, g3, g4, g5⟩ := h8 h
  exact ⟨g1, g2, g3, g4, g5⟩

/-! ### Witnesses: the encoder's steps -/

theorem witness_LookupIsExact :
    find [(256, ⟨97, 0x61⟩)] 257 97 0x61 = some 256 ∧ find [(256, ⟨97, 0x61⟩)] 256 97 0x61 = none ∧
      find [(256, ⟨97, 0x61⟩), (257, ⟨97, 0x62⟩)] 258 97 0x62 = some 257 := by decide

theorem witness_LookupIsExact_unique :
    ∀ i j, 256 ≤ i → i < 257 → 256 ≤ j → j < 257 →
      Dict.get? [(256, ⟨97, 0x61⟩)] i = Dict.get? [(256, ⟨97, 0x61⟩)] j → i = j := by
  intros
  omega

/-- The premises shared by the symbol steps, at the first and at the last source byte. -/
theorem witness_SymbolStepStartsOrExtends :
    (enc0 8).busy = true ∧ (enc0 8).mode = .encode ∧ (enc0 8).inPos.toNat < (enc0 8).srcLen.toNat ∧
      (enc0 8).srcAddr.toNat + (enc0 8).inPos.toNat < 2 ^ 32 ∧
      busFault (enc0 8).platform ((enc0 8).srcAddr.toNat + (enc0 8).inPos.toNat) .read = false ∧ (enc0 8).races = [] ∧
      covers (enc0 8).unspec ((enc0 8).srcAddr.toNat + (enc0 8).inPos.toNat) = false ∧ (enc0 8).cur = none ∧
      enc2.busy = true ∧ enc2.mode = .encode ∧ enc2.inPos.toNat + 1 = enc2.srcLen.toNat ∧
      enc2.srcAddr.toNat + enc2.inPos.toNat < 2 ^ 32 ∧
      busFault enc2.platform (enc2.srcAddr.toNat + enc2.inPos.toNat) .read = false ∧ enc2.races = [] ∧
      covers enc2.unspec (enc2.srcAddr.toNat + enc2.inPos.toNat) = false ∧ enc2.cur = some 97 ∧
      find enc2.ed enc2.dictNext.toNat 97 (Memory.read enc2.mem (enc2.srcAddr.toNat + enc2.inPos.toNat)) = some 256 := by
  decide

/-- Room for exactly the two bytes. -/
theorem witness_SymbolStepEmitsAndGrows :
    (enc1 2).busy = true ∧ (enc1 2).mode = .encode ∧ (enc1 2).inPos.toNat < (enc1 2).srcLen.toNat ∧
      (enc1 2).srcAddr.toNat + (enc1 2).inPos.toNat < 2 ^ 32 ∧
      busFault (enc1 2).platform ((enc1 2).srcAddr.toNat + (enc1 2).inPos.toNat) .read = false ∧ (enc1 2).races = [] ∧
      covers (enc1 2).unspec ((enc1 2).srcAddr.toNat + (enc1 2).inPos.toNat) = false ∧ (enc1 2).cur = some 97 ∧
      find (enc1 2).ed (enc1 2).dictNext.toNat 97 (Memory.read (enc1 2).mem ((enc1 2).srcAddr.toNat + (enc1 2).inPos.toNat)) =
        none ∧
      (enc1 2).outLen.toNat + 2 ≤ (enc1 2).dstCap.toNat ∧ (enc1 2).dstAddr.toNat + (enc1 2).dstCap.toNat ≤ 2 ^ 32 ∧
      ∀ i, i < 2 → busFault (enc1 2).platform ((enc1 2).dstAddr.toNat + (enc1 2).outLen.toNat + i) .write = false := by
  decide

/-- Room for one byte only, at a symbol step and at the flush (V-E13). -/
theorem witness_EmissionWithoutRoomRaisesDstFull :
    emissionIsDue (enc1 1) 97 2 ∧ (enc1 1).dstCap.toNat < (enc1 1).outLen.toNat + 2 ∧
      emissionIsDue { enc3 with dstCap := 3 } 256 3 ∧ { enc3 with dstCap := 3 }.dstCap.toNat < enc3.outLen.toNat + 2 := by
  unfold emissionIsDue
  decide

/-- A state whose bus answers writes to one address with an error. -/
def writeFault (a : Nat) (s : State) : State := { s with platform := ⟨0, [], [⟨a, 1⟩], []⟩ }

/-- The high and the low byte of a code, at a symbol step (V-E16's fault) and at the flush. -/
theorem witness_WriteBusErrorKeepsTheBytesBeforeIt :
    emissionIsDue (writeFault 0x100000 (enc1 2)) 97 2 ∧ firstWriteErrorAt (writeFault 0x100000 (enc1 2)) 0 ∧
      emissionIsDue (writeFault 0x100001 (enc1 2)) 97 2 ∧ firstWriteErrorAt (writeFault 0x100001 (enc1 2)) 1 ∧
      (enc1 2).outLen.toNat + 2 ≤ (enc1 2).dstCap.toNat ∧ (enc1 2).dstAddr.toNat + (enc1 2).dstCap.toNat ≤ 2 ^ 32 ∧
      emissionIsDue (writeFault 0x100003 enc3) 256 3 ∧ firstWriteErrorAt (writeFault 0x100003 enc3) 1 ∧
      enc3.outLen.toNat + 2 ≤ enc3.dstCap.toNat := by
  unfold emissionIsDue firstWriteErrorAt
  decide

theorem witness_FlushEmitsThePendingMatch :
    { enc0 8 with srcLen := 0 }.busy = true ∧
      { enc0 8 with srcLen := 0 }.mode = .encode ∧ { enc0 8 with srcLen := 0 }.inPos = { enc0 8 with srcLen := 0 }.srcLen ∧
      { enc0 8 with srcLen := 0 }.races = [] ∧ { enc0 8 with srcLen := 0 }.cur = none ∧
      enc3.busy = true ∧ enc3.mode = .encode ∧ enc3.inPos = enc3.srcLen ∧ enc3.races = [] ∧
      enc3.cur = some 256 ∧ enc3.outLen.toNat + 2 ≤ enc3.dstCap.toNat ∧ enc3.dstAddr.toNat + enc3.dstCap.toNat ≤ 2 ^ 32 ∧
      ∀ i, i < 2 → busFault enc3.platform (enc3.dstAddr.toNat + enc3.outLen.toNat + i) .write = false := by decide

/-! ### Witnesses: the decoder's steps -/

/-- A tail byte whose read faults. -/
def tailFault : State := { dec1 0x10 with srcLen := 3, platform := ⟨0, [⟨0x1002, 1⟩], [], []⟩ }

/-- V-D15: the low byte of the first code faults. -/
def lowFault : State := { dec0 0x10 with platform := ⟨0, [⟨0x1001, 1⟩], [], []⟩ }

theorem witness_SourceBusErrorRaisesIoRead :
    tailFault.busy = true ∧ tailFault.inPos.toNat < tailFault.srcLen.toNat ∧ tailFault.races = [] ∧
      tailFault.srcAddr.toNat + tailFault.inPos.toNat < 2 ^ 32 ∧
      busFault tailFault.platform (tailFault.srcAddr.toNat + tailFault.inPos.toNat) .read = true ∧
      lowFault.busy = true ∧ lowFault.mode = .decode ∧ lowFault.inPos.toNat + 2 ≤ lowFault.srcLen.toNat ∧ lowFault.races = [] ∧
      lowFault.srcAddr.toNat + lowFault.inPos.toNat + 1 < 2 ^ 32 ∧
      busFault lowFault.platform (lowFault.srcAddr.toNat + lowFault.inPos.toNat) .read = false ∧
      busFault lowFault.platform (lowFault.srcAddr.toNat + lowFault.inPos.toNat + 1) .read = true := by decide

/-- A first code of 97 with room for its byte, of 255 and of 256. -/
theorem witness_FirstCodeDecodesOrRaises :
    codeIsRead (dec0 1) 97 ∧ (dec0 1).prev = none ∧ bytesCanBeWritten (dec0 1) 1 ∧
      codeIsRead { dec0 1 with mem := [(0x1001, 0xFF)] } 255 ∧ codeIsRead { dec0 1 with mem := [(0x1000, 1)] } 256 := by
  unfold codeIsRead bytesCanBeWritten
  decide

/-- Code 257 above DICT_NEXT = 256; and code 4097 equal to DICT_NEXT with DEC_CEIL = 1 (V-D12). -/
theorem witness_UnresolvableCodeRaisesUnknownCode :
    codeIsRead { dec1 8 with mem := [(0x1002, 1), (0x1003, 1)] } 257 ∧ (dec1 8).prev ≠ none ∧ (dec1 8).dictNext.toNat < 257 ∧
      codeIsRead { dec1 8 with mem := [(0x1002, 0x10), (0x1003, 1)], dictNext := 4097, decCeil := true } 4097 ∧
      (4097 : BitVec 17).toNat = 4097 ∧ addOkD true 4097 = false := by
  unfold codeIsRead
  decide

/-- A state of DECODE in which code 256 is known when it arrives. -/
def decKnown : State := { dec1 8 with dictNext := 257, dd := [(256, ⟨97, 0x61⟩)] }

theorem witness_KnownCodeDecodesToItsString :
    codeIsRead decKnown 256 ∧ decKnown.prev = some 97 ∧ 256 < decKnown.dictNext.toNat ∧
      decKnown.dd.str decKnown.dictNext.toNat 256 = some ⟨0x61, [0x61]⟩ ∧
      bytesCanBeWritten decKnown (Str.bytes ⟨0x61, [0x61]⟩).length := by
  unfold codeIsRead bytesCanBeWritten
  decide

/-- Room for exactly "aa". -/
theorem witness_SpecialCaseDecodesAndDefinesItsCode :
    Inv (dec1 0x10) ∧ codeIsRead (dec1 0x10) 256 ∧ (dec1 0x10).prev = some 97 ∧ 256 = (dec1 0x10).dictNext.toNat ∧
      addOkD (dec1 0x10).decCeil (dec1 0x10).dictNext.toNat = true ∧
      (dec1 0x10).dd.str (dec1 0x10).dictNext.toNat 97 = some ⟨0x61, []⟩ ∧
      bytesCanBeWritten (dec1 0x10) ((Str.bytes ⟨0x61, []⟩).length + 1) := by
  refine ⟨witness_Inv_dec1, ?_⟩
  unfold codeIsRead bytesCanBeWritten
  decide

/-- A first code, a known code and the special case (V-D13), each with one byte of room too few. -/
theorem witness_StringWithoutRoomRaisesDstFull :
    stringIsDue (dec0 0) 97 ⟨0x61, []⟩ ∧ (dec0 0).dstCap.toNat < (dec0 0).outLen.toNat + (Str.bytes ⟨0x61, []⟩).length ∧
      stringIsDue { decKnown with dstCap := 2 } 256 ⟨0x61, [0x61]⟩ ∧
      { decKnown with dstCap := 2 }.dstCap.toNat < decKnown.outLen.toNat + (Str.bytes ⟨0x61, [0x61]⟩).length ∧
      stringIsDue (dec1 2) 256 ⟨0x61, [0x61]⟩ ∧
      (dec1 2).dstCap.toNat < (dec1 2).outLen.toNat + (Str.bytes ⟨0x61, [0x61]⟩).length :=
  ⟨⟨by unfold codeIsRead; decide, .inl (by decide)⟩, by decide,
    ⟨by unfold codeIsRead; decide, .inr (.inl (by decide))⟩, by decide,
    ⟨by unfold codeIsRead; decide, .inr (.inr ⟨97, ⟨0x61, []⟩, by decide⟩)⟩, by decide⟩

/-- V-D17: the second byte of "aa" in the special case faults. -/
theorem witness_WriteBusErrorKeepsTheBytesBeforeIt_string :
    stringIsDue (writeFault 0x100002 (dec1 0x10)) 256 ⟨0x61, [0x61]⟩ ∧
      (dec1 0x10).outLen.toNat + (Str.bytes ⟨0x61, [0x61]⟩).length ≤ (dec1 0x10).dstCap.toNat ∧
      (dec1 0x10).dstAddr.toNat + (dec1 0x10).dstCap.toNat ≤ 2 ^ 32 ∧ 1 < (Str.bytes ⟨0x61, [0x61]⟩).length ∧
      firstWriteErrorAt (writeFault 0x100002 (dec1 0x10)) 1 :=
  ⟨⟨by unfold codeIsRead; decide, .inr (.inr ⟨97, ⟨0x61, []⟩, by decide⟩)⟩, by decide, by decide, by decide,
    by unfold firstWriteErrorAt; decide⟩

theorem witness_DecodeEndsWithTailOrEnd :
    dec2.busy = true ∧ dec2.mode = .decode ∧ dec2.races = [] ∧ dec2.inPos = dec2.srcLen ∧
      { dec1 8 with srcLen := 3 }.inPos.toNat + 1 = { dec1 8 with srcLen := 3 }.srcLen.toNat ∧
      (dec1 8).srcAddr.toNat + 3 ≤ 2 ^ 32 ∧
      busFault (dec1 8).platform ((dec1 8).srcAddr.toNat + (dec1 8).inPos.toNat) .read = false ∧
      covers (dec1 8).unspec ((dec1 8).srcAddr.toNat + (dec1 8).inPos.toNat) = false := by decide

/-! ### Witnesses: other agents -/

theorem witness_AgentsOutsideTheWindowsSeeMemory :
    { enc2 with turns := [.memWrite 0xFFF 7] }.turns = [.memWrite 0xFFF 7] ∧ covers enc2.platform.devices 0xFFF = false ∧
      windowHas (srcWindow enc2) 0xFFF = false ∧ windowHas (dstWindow enc2) 0xFFF = false ∧
      { enc2 with turns := [.memRead 0x1000] }.turns = [.memRead 0x1000] ∧ windowHas (dstWindow enc2) 0x1000 = false ∧
      knownByte { enc2 with turns := [.memRead 0x1000] } 0x1000 = some 0x61 := by decide

theorem witness_RacesGiveFreeValues :
    windowHas (dstWindow enc2) 0x100000 = true ∧ windowHas (dstWindow enc2) 0x10000F = true ∧
      windowHas (srcWindow enc2) 0x1002 = true ∧ windowHas (srcWindow enc2) 0x1003 = false ∧ enc2.busy = true ∧
      covers enc2.platform.devices 0x100000 = false ∧ { enc3 with races := [0x100000] }.busy = true ∧
      seen (fun s => s.busy) (engineStep { enc3 with races := [0x100000] }) = some false := by decide

/-- A launch whose first source byte another agent wrote after acceptance. -/
theorem witness_RacesGiveFreeValues_source :
    { enc0 8 with races := [0x1000] }.busy = true ∧
      { enc0 8 with races := [0x1000] }.mode = .encode ∧ (enc0 8).inPos.toNat < (enc0 8).srcLen.toNat ∧
      (enc0 8).srcAddr.toNat + (enc0 8).inPos.toNat < 2 ^ 32 ∧
      busFault (enc0 8).platform ((enc0 8).srcAddr.toNat + (enc0 8).inPos.toNat) .read = false ∧
      (enc0 8).srcAddr.toNat + (enc0 8).inPos.toNat ∈ { enc0 8 with races := [0x1000] }.races ∧ (enc0 8).cur = none := by
  decide

/-! ### Witnesses: whole-machine rules -/

theorem witness_StepKeepsTheInvariant : Inv enc2 ∧ ∃ t, step enc2 = .next t := ⟨witness_Inv_enc2, _, rfl⟩

theorem witness_StepKeepsTheInvariant_decode : Inv (dec1 0x10) ∧ ∃ t, step (dec1 0x10) = .next t := ⟨witness_Inv_dec1, _, rfl⟩

theorem witness_NoStepFaultsUnderTheInvariant : Inv (enc0 0x10) := witness_Inv_enc0

theorem witness_StepKeepsMemoryCanonical : Memory.wf (dec1 0x10).mem ∧ ∃ t, step (dec1 0x10) = .next t :=
  ⟨by decide, _, rfl⟩

/-- One step for each clause of FlagsHaveOnlyTheirWriters, with the flag it moves. -/
theorem witness_FlagsHaveOnlyTheirWriters :
    seen (fun s => s.busy) (step { aaa 8 with turns := [.write 32 0x8 1] }) = some true ∧
      seen (fun s => (s.busy, s.done)) (step { enc3 with turns := [.engine] }) = some (false, true) ∧
      seen (fun s => (s.busy, s.done, s.err)) (step { enc3 with turns := [.write 32 0x8 3] }) = some (false, true, true) ∧
      seen (fun s => (s.done, s.err)) (step { aaa 8 with turns := [.write 32 0x8 4] }) = some (true, true) ∧
      seen (fun s => (s.done, s.err)) (step { aaa 8 with done := true, err := true, turns := [.write 32 0xC 2] }) =
        some (false, true) ∧
      seen (fun s => (s.done, s.err)) (step { aaa 8 with done := true, err := true, turns := [.write 32 0xC 4] }) =
        some (true, false) ∧
      seen (fun s => (s.done, s.err)) (step { aaa 8 with done := true, err := true, turns := [.write 32 0x8 2] }) =
        some (false, false) ∧
      seen (fun s => s.ign) (step { enc2 with turns := [.write 32 0x18 4] }) = some true ∧
      seen (fun s => s.ign) (step { enc2 with turns := [.write 32 0x8 4] }) = some true ∧
      seen (fun s => s.ign) (step { enc2 with ign := true, turns := [.write 32 0xC 8] }) = some false ∧
      seen (fun s => s.mode) (step { stream 8 with turns := [.write 32 0x8 2] }) = some .decode ∧
      seen (fun s => s.done) (step { aaa 8 with done := true, turns := [.read 32 0xC] }) = some true ∧
      seen (fun s => s.done) (step { aaa 8 with done := true, turns := [.poll .status 2 2] }) = some true ∧
      seen (fun s => (s.busy, s.mode)) (step { dec1 8 with turns := [.reset 0] }) = some (false, .encode) := by decide

theorem witness_EngineWritesOnlyItsNextBytes : Inv (dec1 0x10) ∧ (dec1 0x10).busy = true ∧ ∃ t, engineStep (dec1 0x10) = .next t :=
  ⟨witness_Inv_dec1, rfl, _, rfl⟩

theorem witness_CountersStayBelowTheRegistersAlways : Reachable State.reset := ⟨[], [], 0, by decide, rfl⟩

theorem witness_EveryOperationEnds :
    Inv enc2 ∧ enc2.busy = true ∧ enc2.turns = [] ∧ enc2.mode = .encode ∧ Inv dec2 ∧ dec2.busy = true ∧ dec2.turns = [] ∧
      dec2.mode = .decode :=
  ⟨witness_Inv_enc2, rfl, rfl, rfl, witness_Inv_dec2, rfl, rfl, rfl⟩

/-! ### Witnesses: what the two units compute -/

theorem ready_aaa (cap : Word) (h : rangeCheck (aaa cap) = 0) : LaunchReady (aaa cap) := by
  refine ⟨rfl, rfl, h, rfl, rfl, rfl, rfl⟩

theorem ready_stream (cap : Word) (h : rangeCheck (stream cap) = 0) : LaunchReady (stream cap) := by
  refine ⟨rfl, rfl, h, rfl, rfl, rfl, rfl⟩

/-- Room for exactly the four bytes of V-E3. -/
theorem witness_EncodeComputesPackedLzwCodes :
    LaunchReady (aaa 4) ∧ (encodeBytes (sourceBytes (aaa 4))).length ≤ (aaa 4).dstCap.toNat :=
  ⟨ready_aaa 4 (by decide), by decide⟩

/-- V-E13: one byte too few. -/
theorem witness_EncodeWithoutRoomWritesWholeCodes :
    LaunchReady (aaa 3) ∧ (aaa 3).dstCap.toNat < (encodeBytes (sourceBytes (aaa 3))).length :=
  ⟨ready_aaa 3 (by decide), by decide⟩

/-- V-D3, with room for exactly its three bytes. -/
theorem witness_DecodeComputesTheReconstruction :
    LaunchReady (stream 3) ∧
      decScan (stream 3).decCeil (unpack (sourceBytes (stream 3))) decVars0 =
        (⟨[0x61, 0x61], [[0x61, 0x61]], [0x61, 0x61, 0x61], 2⟩, none) ∧ 3 ≤ (stream 3).dstCap.toNat :=
  ⟨ready_stream 3 (by decide), by decide, by decide⟩

/-- V-D9: 00 61 01 01. -/
def badStream : State := { stream 1 with mem := [(0x1001, 0x61), (0x1002, 1), (0x1003, 1)] }

theorem witness_DecodeReportsTheFirstBadCode :
    LaunchReady badStream ∧
      decScan badStream.decCeil (unpack (sourceBytes badStream)) decVars0 =
        (⟨[0x61], [], [0x61], 1⟩, some (.decUnknownCode, 257)) ∧ 1 ≤ badStream.dstCap.toNat :=
  ⟨⟨rfl, rfl, by decide, rfl, rfl, rfl, rfl⟩, by decide, by decide⟩

theorem witness_NoRepeatedPairPassesThrough :
    ∀ (i j : Nat) (a b : Byte), [(1 : Byte), 2][i]? = some a → [(1 : Byte), 2][i + 1]? = some b →
      [(1 : Byte), 2][j]? = some a → [(1 : Byte), 2][j + 1]? = some b → i = j := by
  intro i j a b _ h2 _ h4
  have hi := (List.getElem?_eq_some_iff.1 h2).1
  have hj := (List.getElem?_eq_some_iff.1 h4).1
  simp only [List.length_cons, List.length_nil] at hi hj
  omega

/-- Both ends of the range of k, r at both of its ends. -/
theorem witness_RunOfOneByteCodes :
    1 ≤ 1 ∧ 1 - 1 ≤ 3841 ∧ 1 ≤ 3842 ∧ 3842 ≤ 3842 ∧ 3842 - 1 ≤ 3841 := by decide

theorem witness_CeilingToggleMattersOnlyAbove4096 : ∀ c ∈ [97, 256, 4096], c ≤ 4096 := by decide

theorem witness_DecodedStringsAreBounded :
    Inv dec2 ∧ dec2.busy = true ∧ dec2.mode = .decode ∧ 256 < dec2.dictNext.toNat ∧ 255 < dec2.dictNext.toNat :=
  ⟨witness_Inv_dec2, by decide⟩

theorem witness_NothingSurvivesInsideTheBlock :
    (aaa 8).busy = false ∧ outsideView (aaa 8) = outsideView { aaa 8 with cur := some 300, ed := [(256, ⟨97, 0x61⟩)] } :=
  ⟨rfl, rfl⟩

theorem witness_ScriptLaunchRunsTheCommand : State.reset.busy = false := rfl

end Sys2Proof.Tests
end

section
/-! Decoding inverts encoding (00_scope.md R18): what the encoder knows after a symbol, the decoder knows too, one entry later. -/

namespace Sys2Proof.Machine

/-! ### Packed codes -/

theorem pack_cons (c : Nat) (cs : List Nat) : pack (c :: cs) = pack1 c ++ pack cs := rfl

theorem pack_append (cs ds : List Nat) : pack (cs ++ ds) = pack cs ++ pack ds := List.flatMap_append

@[simp] theorem pack_length (cs : List Nat) : (pack cs).length = 2 * cs.length := by
  induction cs with
  | nil => rfl
  | cons c cs ih =>
    rw [pack_cons, List.length_append, pack1_length, ih, List.length_cons]
    omega

/-- Unpacking gives back every sequence of 16-bit codes (R103). -/
theorem unpack_pack {cs : List Nat} (h : ∀ c ∈ cs, c < 65536) : unpack (pack cs) = cs := by
  induction cs with
  | nil => rfl
  | cons c cs ih =>
    obtain ⟨hc, hcs⟩ := List.forall_mem_cons.1 h
    show codeOf _ _ :: unpack (pack cs) = c :: cs
    rw [codeOf_pack1 hc, ih hcs]

/-! ### The reconstruction over a sequence -/

/-- A scan that succeeds resolves its first code, and goes on. -/
theorem decScan_cons_ok {decCeil : Bool} {c : Nat} {cs : List Nat} {v w : DecVars} (h : decScan decCeil (c :: cs) v = (w, none)) :
    ∃ t, decLookup decCeil v c = .ok t ∧ decScan decCeil cs (decAppend decCeil v t) = (w, none) := by
  rw [decScan] at h
  cases hl : decLookup decCeil v c with
  | ok t => exact ⟨t, rfl, by simpa only [hl] using h⟩
  | error k => simp [hl] at h

/-- A scan that succeeds goes on with what follows it. -/
theorem decScan_append {decCeil : Bool} {cs ds : List Nat} {v w : DecVars} (h : decScan decCeil cs v = (w, none)) :
    decScan decCeil (cs ++ ds) v = decScan decCeil ds w := by
  induction cs generalizing v with
  | nil =>
    cases h
    rfl
  | cons c cs ih =>
    obtain ⟨t, ht, hrest⟩ := decScan_cons_ok h
    rw [List.cons_append, decScan, ht]
    exact ih hrest

/-- A scan of one more code that resolves. -/
theorem decScan_snoc {decCeil : Bool} {cs : List Nat} {c : Nat} {v w : DecVars} {t : List Byte}
    (h : decScan decCeil cs v = (w, none)) (hl : decLookup decCeil w c = .ok t) :
    decScan decCeil (cs ++ [c]) v = (decAppend decCeil w t, none) := by
  rw [decScan_append h, decScan, hl]
  rfl

/-! ### Strings of codes -/

/-- The string of a code over the learned strings in the order of their codes: a seed, or a learned string (R51, R52). -/
def codeString (learned : List (List Byte)) (c : Nat) : Option (List Byte) :=
  if c < Config.seedCount then some [BitVec.ofNat 8 c] else learned[c - Config.seedCount]?

@[simp] theorem codeString_seed (learned : List (List Byte)) (b : Byte) : codeString learned b.toNat = some [b] := by
  simp [codeString, b.isLt]

theorem codeString_next (learned : List (List Byte)) (t : List Byte) :
    codeString (learned ++ [t]) (Config.seedCount + learned.length) = some t := by
  simp [codeString]

theorem codeString_append {learned : List (List Byte)} {c : Nat} {t : List Byte} (more : List (List Byte))
    (h : codeString learned c = some t) : codeString (learned ++ more) c = some t := by
  unfold codeString at h ⊢
  split at h
  · rename_i hc
    rw [if_pos hc, h]
  · rename_i hc
    rw [if_neg hc, List.getElem?_append_left (List.getElem?_eq_some_iff.1 h).1, h]

theorem codeString_lt {learned : List (List Byte)} {c : Nat} {t : List Byte} (h : codeString learned c = some t) :
    c < Config.seedCount + learned.length := by
  unfold codeString at h
  split at h
  · omega
  · have := (List.getElem?_eq_some_iff.1 h).1
    omega

/-! ### What the decoder will have learned -/

/-- How many entries the encoder can make: the codes 256 to ENC_MAX_CODE (R155). -/
abbrev encEntries : Nat := Config.encMaxCode + 1 - Config.seedCount

/-- The encoder's entries fill the codes from 256 to its ceiling. -/
theorem seedCount_add_encEntries :
    Config.seedCount + encEntries = Config.encMaxCode + 1 ∧ Config.encMaxCode = Config.maxTableSize := by decide

/-- What the decoder's next growth makes of the learned strings when the next string is `w`, the ceiling aside (R187). -/
def nextLearned (d : DecVars) (w : List Byte) : List (List Byte) :=
  if d.string = [] then d.learned else d.learned ++ [d.string ++ w.take 1]

/-- What the encoder has learned when `d` is the decoder after the emitted codes and `w` the pending string. The encoder made its
last entry from the last emitted string and the first byte of `w`, which the decoder sees with the next code only. -/
def encLearned (d : DecVars) (w : List Byte) : List (List Byte) := (nextLearned d w).take encEntries

theorem encLearned_length_le (d : DecVars) (w : List Byte) : (encLearned d w).length ≤ encEntries := by
  rw [encLearned, List.length_take]
  omega

theorem nextLearned_extend (d : DecVars) {w : List Byte} (b : Byte) (h : w ≠ []) :
    nextLearned d (w ++ [b]) = nextLearned d w := by
  cases w with
  | nil => exact absurd rfl h
  | cons a w => rfl

/-- Below the encoder's ceiling the decoder's allows too, whatever the toggle (R187). -/
theorem addOkD_of_le (decCeil : Bool) {next : Nat} (h : next ≤ Config.maxTableSize) : addOkD decCeil next = true := by
  cases decCeil with
  | true => simpa [addOkD] using h
  | false =>
    have : next ≤ Config.decDictCodes - 1 := Nat.le_trans h (by decide)
    simpa [addOkD] using this

/-- Up to the encoder's ceiling the decoder learns what `nextLearned` says, whatever the toggle. -/
theorem decAppend_learned (decCeil : Bool) (d : DecVars) (w : List Byte) :
    (decAppend decCeil d w).learned.take encEntries = encLearned d w := by
  unfold encLearned nextLearned decAppend
  by_cases hs : d.string = []
  · simp [hs]
  · by_cases ho : addOkD decCeil (Config.seedCount + d.learned.length) = true
    · simp [hs, ho]
    · have hl : encEntries ≤ d.learned.length := by
        have := mt (addOkD_of_le decCeil) ho
        have := seedCount_add_encEntries
        omega
      simp [hs, ho, List.take_append_of_le_length hl]

/-- After the code of `w` the decoder is behind by the entry `w ++ [b]`, where `b` starts the next string. -/
theorem encLearned_decAppend (decCeil : Bool) (d : DecVars) {w : List Byte} (b : Byte) (h : w ≠ []) :
    encLearned (decAppend decCeil d w) [b] = (encLearned d w ++ [w ++ [b]]).take encEntries := by
  have e : nextLearned (decAppend decCeil d w) [b] = (decAppend decCeil d w).learned ++ [w ++ [b]] := if_neg h
  rw [encLearned, e, ← decAppend_learned decCeil d w, List.take_append, List.take_append, List.take_take, Nat.min_self,
    List.length_take]
  congr 2
  omega

/-- A code that the encoder knows resolves to the same string at the decoder: as a first code, as a known one, or as the special
case (R183 to R185). -/
theorem decLookup_of_codeString {decCeil : Bool} {d : DecVars} {w : List Byte} {c : Nat} (hw : w ≠ [])
    (hd : d.string = [] → d.learned = []) (h : codeString (encLearned d w) c = some w) : decLookup decCeil d c = .ok w := by
  have hlen := encLearned_length_le d w
  have hlt := codeString_lt h
  unfold codeString at h
  unfold decLookup
  by_cases hs : d.string = []
  · have hl : encLearned d w = [] := by simp [encLearned, nextLearned, hs, hd hs]
    have hc : c < Config.seedCount := by simpa [hl] using hlt
    rw [if_pos hc] at h
    simp only [hs, if_true, if_neg (Nat.not_le.2 hc)]
    cases h
    rfl
  · rw [if_neg hs]
    by_cases hc : c < Config.seedCount
    · rw [if_pos hc] at h ⊢
      cases h
      rfl
    · rw [if_neg hc] at h ⊢
      rw [encLearned, nextLearned, if_neg hs, List.getElem?_take_of_lt (by omega)] at h
      rcases Nat.lt_trichotomy (c - Config.seedCount) d.learned.length with hi | hi | hi
      · rw [List.getElem?_append_left hi] at h
        simp only [h]
      · have hn : c = Config.seedCount + d.learned.length := by omega
        have ho : addOkD decCeil (Config.seedCount + d.learned.length) = true := by
          have := seedCount_add_encEntries
          exact addOkD_of_le decCeil (by omega)
        simp only [hi, List.getElem?_concat_length, Option.some.injEq] at h
        have ht : d.string.take 1 = w.take 1 := by
          cases hds : d.string with
          | nil => exact absurd hds hs
          | cons a r => rw [← h, hds]; rfl
        simp only [hi, List.getElem?_eq_none (Nat.le_refl _), ho, and_true, if_pos hn, ht, h]
      · rw [List.getElem?_eq_none (by simp; omega)] at h
        cases h

/-! ### One turn of lzw_codes -/

theorem encLoop_start {v : EncVars} (b : Byte) (hc : v.cur = none) : encLoop v b = { v with cur := some b.toNat } := by
  simp only [encLoop, hc]

theorem encLoop_extend {v : EncVars} {b : Byte} {p k : Nat} (hc : v.cur = some p) (hl : v.map.lookup (p, b) = some k) :
    encLoop v b = { v with cur := some k } := by
  simp only [encLoop, hc, hl]

theorem encLoop_emit {v : EncVars} {b : Byte} {p : Nat} (hc : v.cur = some p) (hl : v.map.lookup (p, b) = none) :
    encLoop v b =
      { size := if v.size ≤ Config.maxTableSize then v.size + 1 else v.size
        cur := some b.toNat
        out := v.out ++ [p]
        map := if v.size ≤ Config.maxTableSize then v.map ++ [((p, b), v.size)] else v.map } := by
  simp only [encLoop, hc, hl]

/-! ### The two units side by side -/

/-- After the symbols `x`: `v` is the encoder, `d` the decoder after the codes emitted so far, and `w` the string of e.cur, the
part of `x` that no code stands for yet. -/
structure InStep (decCeil : Bool) (x : List Byte) (v : EncVars) (d : DecVars) (w : List Byte) : Prop where
  text : d.out ++ w = x
  scanned : decScan decCeil v.out decVars0 = (d, none)
  codes_le : ∀ c ∈ v.out, c ≤ Config.encMaxCode
  size : v.size = Config.seedCount + (encLearned d w).length
  map_ok : ∀ p b k, v.map.lookup (p, b) = some k →
    ∃ t, codeString (encLearned d w) p = some t ∧ codeString (encLearned d w) k = some (t ++ [b])
  first_code : d.string = [] → d.learned = []
  cur_ok : (v.cur = none ∧ w = [] ∧ d.string = []) ∨
    ∃ c, v.cur = some c ∧ w ≠ [] ∧ codeString (encLearned d w) c = some w

theorem inStep_start (decCeil : Bool) : InStep decCeil [] encVars0 decVars0 [] where
  text := rfl
  scanned := rfl
  codes_le := by simp [encVars0]
  size := rfl
  map_ok := by simp [encVars0]
  first_code := fun _ => rfl
  cur_ok := .inl ⟨rfl, rfl, rfl⟩

/-- The map after an emission knows the new entry, if the ceiling allowed it, and what it knew (R154, R155). -/
theorem lookup_grown {v : EncVars} {p : Nat} {b : Byte} {q : Nat} {a : Byte} {k : Nat}
    (h : (v.map ++ [((p, b), v.size)]).lookup (q, a) = some k) :
    v.map.lookup (q, a) = some k ∨ (q = p ∧ a = b ∧ k = v.size) := by
  rw [List.lookup_append, Option.or_eq_some_iff] at h
  rcases h with h | ⟨-, h⟩
  · exact .inl h
  · simp only [List.lookup] at h
    split at h
    · rename_i e
      cases h
      simp at e
      exact .inr ⟨e.1, e.2, rfl⟩
    · cases h

/-- The emission of the code `c` of `w`: the decoder takes it, the encoder enters `w ++ [b]` and starts again at `b`. -/
theorem InStep.emit {decCeil : Bool} {x : List Byte} {v : EncVars} {d : DecVars} {w : List Byte} {c : Nat} {b : Byte}
    (h : InStep decCeil x v d w) (hw : w ≠ []) (hc : codeString (encLearned d w) c = some w) (hcur : v.cur = some c)
    (hl : v.map.lookup (c, b) = none) : InStep decCeil (x ++ [b]) (encLoop v b) (decAppend decCeil d w) [b] := by
  have hlen := encLearned_length_le d w
  have hlt := codeString_lt hc
  have hE := encLearned_decAppend decCeil d b hw
  have hmax := seedCount_add_encEntries
  rw [encLoop_emit hcur hl]
  refine ⟨?_, decScan_snoc h.scanned (decLookup_of_codeString hw h.first_code hc), ?_, ?_, ?_, fun h => absurd h hw,
    .inr ⟨_, rfl, by simp, codeString_seed _ b⟩⟩
  · rw [← h.text]
    rfl
  · intro k hk
    rcases List.mem_append.1 hk with hk | hk
    · exact h.codes_le k hk
    · rw [List.mem_singleton.1 hk]
      omega
  · have hs := h.size
    rw [hE, List.length_take, List.length_append, List.length_singleton]
    dsimp only
    split <;> omega
  · intro p a k hk
    by_cases hs : v.size ≤ Config.maxTableSize
    · have hfull : (encLearned d w ++ [w ++ [b]]).take encEntries = encLearned d w ++ [w ++ [b]] :=
        List.take_of_length_le (by rw [List.length_append, List.length_singleton]; have := h.size; omega)
      rw [hE, hfull]
      simp only [if_pos hs] at hk
      rcases lookup_grown hk with hk | ⟨rfl, rfl, rfl⟩
      · obtain ⟨t, h1, h2⟩ := h.map_ok p a k hk
        exact ⟨t, codeString_append _ h1, codeString_append _ h2⟩
      · exact ⟨w, codeString_append _ hc, h.size ▸ codeString_next _ _⟩
    · have hfull : (encLearned d w ++ [w ++ [b]]).take encEntries = encLearned d w := by
        rw [List.take_append_of_le_length (by have := h.size; omega), List.take_of_length_le hlen]
      rw [hE, hfull]
      simp only [if_neg hs] at hk
      exact h.map_ok p a k hk

/-- One symbol keeps the two units in step: it starts a string, extends it, or makes the encoder emit. -/
theorem InStep.symbol {decCeil : Bool} {x : List Byte} {v : EncVars} {d : DecVars} {w : List Byte}
    (h : InStep decCeil x v d w) (b : Byte) : ∃ d' w', InStep decCeil (x ++ [b]) (encLoop v b) d' w' := by
  rcases h.cur_ok with ⟨hcur, rfl, hs⟩ | ⟨c, hcur, hw, hc⟩
  · have hE : encLearned d [b] = encLearned d [] := by simp only [encLearned, nextLearned, if_pos hs]
    refine ⟨d, [b], ?_⟩
    rw [encLoop_start b hcur]
    exact ⟨by rw [← h.text]; simp, h.scanned, h.codes_le, hE ▸ h.size, hE ▸ h.map_ok, h.first_code,
      .inr ⟨_, rfl, by simp, codeString_seed _ b⟩⟩
  · cases hl : v.map.lookup (c, b) with
    | none => exact ⟨_, _, h.emit hw hc hcur hl⟩
    | some k =>
      have hE : encLearned d (w ++ [b]) = encLearned d w := by rw [encLearned, nextLearned_extend d b hw, encLearned]
      obtain ⟨t, h1, h2⟩ := h.map_ok c b k hl
      obtain rfl : w = t := by simpa [hc] using h1
      refine ⟨d, w ++ [b], ?_⟩
      rw [encLoop_extend hcur hl]
      exact ⟨by rw [← h.text]; simp, h.scanned, h.codes_le, hE ▸ h.size, hE ▸ h.map_ok, h.first_code,
        .inr ⟨k, rfl, by simp, hE ▸ h2⟩⟩

theorem inStep_scan (decCeil : Bool) (x : List Byte) : ∃ d w, InStep decCeil x (encScan x) d w := by
  induction x using List.reverseRecOn with
  | nil => exact ⟨_, _, inStep_start decCeil⟩
  | append_singleton x b ih =>
    obtain ⟨d, w, h⟩ := ih
    rw [encScan, List.foldl_append]
    exact h.symbol b

/-- The codes of a byte string are at most ENC_MAX_CODE, and reconstruct it. -/
theorem decScan_lzwCodes (decCeil : Bool) (x : List Byte) :
    (∀ c ∈ lzwCodes x, c ≤ Config.encMaxCode) ∧
      ∃ d, decScan decCeil (lzwCodes x) decVars0 = (d, none) ∧ d.out = x := by
  obtain ⟨d, w, h⟩ := inStep_scan decCeil x
  unfold lzwCodes
  rcases h.cur_ok with ⟨hcur, rfl, -⟩ | ⟨c, hcur, hw, hc⟩
  · simp only [hcur, Option.toList_none, List.append_nil]
    exact ⟨h.codes_le, d, h.scanned, by simpa using h.text⟩
  · have hlt := codeString_lt hc
    have hlen := encLearned_length_le d w
    have hmax := seedCount_add_encEntries
    simp only [hcur, Option.toList_some]
    refine ⟨fun k hk => ?_, _, decScan_snoc h.scanned (decLookup_of_codeString hw h.first_code hc), h.text⟩
    rcases List.mem_append.1 hk with hk | hk
    · exact h.codes_le k hk
    · rw [List.mem_singleton.1 hk]
      omega

/-- Settles O52: the decoder, fed the codes of `x`, stays one entry behind the encoder and resolves each of them to the string the
encoder emitted it for, the special case included. -/
theorem decodeInvertsEncode : Obligations.DecodeInvertsEncode := by
  intro decCeil x
  obtain ⟨hle, d, hd, rfl⟩ := decScan_lzwCodes decCeil x
  have hunpack : unpack (encodeBytes d.out) = lzwCodes d.out :=
    unpack_pack fun c hc => Nat.lt_of_le_of_lt (hle c hc) (by decide)
  rw [decodeBytes, hunpack, decodeCodes, hd]

end Sys2Proof.Machine
end

section
/-! A launched operation while it runs alone (70_reset_and_hazards.md R246): what it has written, and that its source is still
there to be read. -/

namespace Sys2Proof.Machine

/-! ### Runs -/

theorem runSteps_succ {s t : State} (n : Nat) (h : step s = .next t) : runSteps (n + 1) s = runSteps n t := by
  simp [runSteps, Host.Core.run, Sys2Proof.core, h]

/-! ### Windows and known bytes -/

/-- What a passed range check says: neither window wraps, and two non-empty windows are apart (R127). -/
theorem rangeCheck_eq_zero {s : State} (h : rangeCheck s = 0) :
    s.srcAddr.toNat + s.srcLen.toNat ≤ 2 ^ 32 ∧ s.dstAddr.toNat + s.dstCap.toNat ≤ 2 ^ 32 ∧
      ¬(0 < s.srcLen.toNat ∧ 0 < s.dstCap.toNat ∧ s.srcAddr.toNat < s.dstAddr.toNat + s.dstCap.toNat ∧
        s.dstAddr.toNat < s.srcAddr.toNat + s.srcLen.toNat) := by
  have key : ∀ a b c : Bool, BitVec.ofBool a ++ BitVec.ofBool b ++ BitVec.ofBool c = (0 : BitVec 3) →
      a = false ∧ b = false ∧ c = false := by decide
  obtain ⟨h1, h2, h3⟩ := key _ _ _ h
  exact ⟨Nat.not_lt.1 (of_decide_eq_false h3), Nat.not_lt.1 (of_decide_eq_false h2), of_decide_eq_false h1⟩

theorem knownByte_eq_some {s : State} {a : Nat} {b : Byte} (h : knownByte s a = some b) :
    covers s.unspec a = false ∧ Memory.read s.mem a = b := by
  unfold knownByte at h
  split at h
  · cases h
  · rename_i hc
    exact ⟨by simpa using hc, by simpa using h⟩

theorem holdsAt_append {s t : State} {base : Nat} {bs cs : List Byte} (h : holdsAt s base bs)
    (hu : untouchedOutside (base + bs.length) cs.length s t) (ht : holdsAt t (base + bs.length) cs) :
    holdsAt t base (bs ++ cs) := by
  intro i hi
  rw [List.length_append] at hi
  by_cases hb : i < bs.length
  · rw [List.getElem?_append_left hb, (hu (base + i) (.inl (by omega))).2]
    exact h i hb
  · rw [List.getElem?_append_right (by omega), ← ht (i - bs.length) (by omega)]
    congr 1
    omega

theorem untouchedOutside_append {s t u : State} {base m n : Nat} (h : untouchedOutside base m s t)
    (hu : untouchedOutside (base + m) n t u) : untouchedOutside base (m + n) s u := by
  intro a ha
  obtain ⟨h1, h2⟩ := h a (by omega)
  obtain ⟨h3, h4⟩ := hu a (by omega)
  exact ⟨h3.trans h1, h4.trans h2⟩

theorem sourceBytes_length (s : State) : (sourceBytes s).length = s.srcLen.toNat := by simp [sourceBytes]

theorem sourceBytes_getElem? {s : State} {i : Nat} (h : i < s.srcLen.toNat) :
    (sourceBytes s)[i]? = some (Memory.read s.mem (s.srcAddr.toNat + i)) := by
  simp [sourceBytes, h]

/-- What is left of the source from an offset on, when it starts with a byte. -/
theorem sourceBytes_drop_eq_cons {s : State} {i : Nat} {b : Byte} {bs : List Byte} (h : (sourceBytes s).drop i = b :: bs) :
    i < s.srcLen.toNat ∧ Memory.read s.mem (s.srcAddr.toNat + i) = b ∧ (sourceBytes s).drop (i + 1) = bs := by
  have hlen := congrArg List.length h
  rw [List.length_drop, sourceBytes_length, List.length_cons] at hlen
  have hi : i < s.srcLen.toNat := by omega
  have hb : (sourceBytes s)[i]? = some b := by rw [← Nat.add_zero i, ← List.getElem?_drop, h]; rfl
  rw [sourceBytes_getElem? hi] at hb
  exact ⟨hi, Option.some.inj hb, by rw [← List.drop_drop, h]; rfl⟩

theorem sourceBytes_drop_eq_nil {s : State} {i : Nat} (h : (sourceBytes s).drop i = []) : s.srcLen.toNat ≤ i := by
  simpa [sourceBytes_length] using h

theorem toNat_succ {n : Nat} {x : BitVec n} (h : x.toNat + 1 < 2 ^ n) (hn : 0 < n) : (x + 1).toNat = x.toNat + 1 := by
  rw [BitVec.toNat_add, show BitVec.toNat (1 : BitVec n) = 1 from BitVec.toNat_one hn, Nat.mod_eq_of_lt h]

/-! ### The running operation -/

/-- The state after the acceptance of ENCODE or DECODE (R126). -/
def launched (m : Mode) (s : State) : State := accept m { clearForIssue s with mode := m }

/-- What an operation's own steps leave alone: the state without its counters, the engine's internal state, and memory. -/
def setting (s : State) : State :=
  { s with
    inPos := 0, outLen := 0, codeCount := 0, dictNext := 0, cur := none, prev := none, ed := [], dd := [], mem := []
    unspec := [] }

/-- `a` is the operation that was launched in mode `m` from `s`, after it has written the bytes `out`. -/
structure Running (m : Mode) (s a : State) (out : List Byte) : Prop where
  same : setting a =
    { setting s with mode := m, busy := true, done := false, err := false, cause := .none, errInfo := 0, races := [] }
  in_pos_le : a.inPos.toNat ≤ s.srcLen.toNat
  out_len : a.outLen.toNat = out.length
  fits : out.length ≤ s.dstCap.toNat
  holds : holdsAt a s.dstAddr.toNat out
  outside : untouchedOutside s.dstAddr.toNat out.length s a

section
variable {m : Mode} {s a : State} {out : List Byte}

theorem exec_launched_encode (h : LaunchReady s) : exec .encode s = .next (launched .encode s) :=
  launch_accept .encode h.idle h.range_ok h.off_device

theorem exec_launched_decode (h : LaunchReady s) : exec .decode s = .next (launched .decode s) :=
  launch_accept .decode h.idle h.range_ok h.off_device

theorem running_launched (m : Mode) (s : State) : Running m s (launched m s) [] := by
  cases m <;>
    exact ⟨rfl, Nat.zero_le _, rfl, Nat.zero_le _, fun i hi => absurd hi (Nat.not_lt_zero i), fun _ _ => ⟨rfl, rfl⟩⟩

namespace Running

theorem busy (h : Running m s a out) : a.busy = true := (congrArg State.busy h.same :)

theorem mode (h : Running m s a out) : a.mode = m := (congrArg State.mode h.same :)

theorem err (h : Running m s a out) : a.err = false := (congrArg State.err h.same :)

theorem cause (h : Running m s a out) : a.cause = .none := (congrArg State.cause h.same :)

theorem races (h : Running m s a out) : a.races = [] := (congrArg State.races h.same :)

theorem turns (h : Running m s a out) : a.turns = s.turns := (congrArg State.turns h.same :)

theorem platform (h : Running m s a out) : a.platform = s.platform := (congrArg State.platform h.same :)

theorem decCeil (h : Running m s a out) : a.decCeil = s.decCeil := (congrArg State.decCeil h.same :)

theorem srcAddr (h : Running m s a out) : a.srcAddr = s.srcAddr := (congrArg State.srcAddr h.same :)

theorem srcLen (h : Running m s a out) : a.srcLen = s.srcLen := (congrArg State.srcLen h.same :)

theorem dstAddr (h : Running m s a out) : a.dstAddr = s.dstAddr := (congrArg State.dstAddr h.same :)

theorem dstCap (h : Running m s a out) : a.dstCap = s.dstCap := (congrArg State.dstCap h.same :)

/-- With no turn pending, a step is the enabled step of the engine (R130). -/
theorem step_eq (hs : LaunchReady s) (h : Running m s a out) : step a = finish (enabledStep a) := by
  rw [step_alone (h.turns.trans hs.alone), engineStep_busy h.busy]

/-- The source is known to hold what it held at the launch: the operation has written outside its window only (R79). -/
theorem source_known (hs : LaunchReady s) (h : Running m s a out) {i : Nat} (hi : i < s.srcLen.toNat) :
    knownByte a (s.srcAddr.toNat + i) = some (Memory.read s.mem (s.srcAddr.toNat + i)) := by
  obtain ⟨-, -, hd⟩ := rangeCheck_eq_zero hs.range_ok
  have hfits := h.fits
  have hin : windowHas (srcWindow s) (s.srcAddr.toNat + i) = true :=
    (windowHas_iff _ _).2 ⟨Nat.le_add_right _ _, Nat.add_lt_add_left hi _⟩
  have ha : s.srcAddr.toNat + i < s.dstAddr.toNat ∨ s.dstAddr.toNat + out.length ≤ s.srcAddr.toNat + i := by omega
  rw [(h.outside _ ha).2, knownByte, covers_of_meetsAny hs.source_known hin]
  rfl

/-- The next symbol is the next byte of the source (R154, R190). -/
theorem reads_next (hs : LaunchReady s) (h : Running m s a out) {b : Byte} {bs : List Byte}
    (hb : (sourceBytes s).drop a.inPos.toNat = b :: bs) :
    readSymbol a = .ok b { a with inPos := a.inPos + 1 } ∧ (a.inPos + 1).toNat = a.inPos.toNat + 1 ∧
      a.inPos.toNat < s.srcLen.toNat ∧ (sourceBytes s).drop (a.inPos + 1).toNat = bs ∧
      Running m s { a with inPos := a.inPos + 1 } out := by
  obtain ⟨hi, hv, hrest⟩ := sourceBytes_drop_eq_cons hb
  obtain ⟨hw, -, -⟩ := rangeCheck_eq_zero hs.range_ok
  have hlen := s.srcLen.isLt
  have hnext : (a.inPos + 1).toNat = a.inPos.toNat + 1 := toNat_succ (by omega) (by decide)
  have hin : windowHas (srcWindow s) (s.srcAddr.toNat + a.inPos.toNat) = true :=
    (windowHas_iff _ _).2 ⟨Nat.le_add_right _ _, Nat.add_lt_add_left hi _⟩
  obtain ⟨hu, hr⟩ := knownByte_eq_some (h.source_known hs hi)
  have hread := readSymbol_known (s := a) (by rw [h.srcAddr]; exact Nat.lt_of_lt_of_le (Nat.add_lt_add_left hi _) hw)
    (by rw [h.platform, h.srcAddr]; exact covers_of_meetsAny hs.reads_answer hin) (by rw [h.races]; rfl)
    (by rw [h.srcAddr]; exact hu)
  have hvalue : Memory.read a.mem (a.srcAddr.toNat + a.inPos.toNat) = b := by rw [h.srcAddr, hr, hv]
  exact ⟨hvalue ▸ hread, hnext, hi, hnext ▸ hrest, h.same, hnext ▸ hi, h.out_len, h.fits, h.holds, h.outside⟩

/-- Bytes for which there is room are written after those already there (R157, R188). -/
theorem puts_bytes (hs : LaunchReady s) (h : Running m s a out) {bs : List Byte}
    (hroom : out.length + bs.length ≤ s.dstCap.toNat) :
    ∃ t, putBytes bs a = .ok () t ∧ t = { a with mem := t.mem, unspec := t.unspec, outLen := t.outLen } ∧
      Running m s t (out ++ bs) := by
  obtain ⟨-, hw, -⟩ := rangeCheck_eq_zero hs.range_ok
  have hcap := s.dstCap.isLt
  have hl : a.outLen.toNat + bs.length < 2 ^ 32 := by rw [h.out_len]; omega
  obtain ⟨t, ht⟩ : ∃ t, putBytes bs a = .ok () t := by
    refine putBytes_good hl ?_ fun i hi => ?_
    · rw [h.dstAddr, h.out_len]
      exact Nat.le_trans (by omega) hw
    · rw [h.platform, h.dstAddr, h.out_len]
      refine covers_of_meetsAny hs.writes_answer ((windowHas_iff _ _).2 ?_)
      dsimp only [dstWindow]
      omega
  obtain ⟨h1, h2, h3⟩ := putBytes_ok ht hl
  have hframe := putBytes_frame ht
  rw [h.dstAddr, h.out_len] at h2 h3
  refine ⟨t, ht, hframe, ?_, ?_, ?_, by simpa using hroom, holdsAt_append h.holds h3 h2, ?_⟩
  · rw [hframe]
    exact h.same
  · rw [hframe]
    exact h.in_pos_le
  · rw [h1, h.out_len, List.length_append]
  · rw [List.length_append]
    exact untouchedOutside_append h.outside h3

/-- Counters and the engine's internal state are no part of what `Running` says. -/
theorem of_counters (h : Running m s a out) (count : Word) (next : BitVec 17) (cur prev : Option Nat) (ed dd : Dict) :
    Running m s { a with codeCount := count, dictNext := next, cur := cur, prev := prev, ed := ed, dd := dd } out :=
  ⟨h.same, h.in_pos_le, h.out_len, h.fits, h.holds, h.outside⟩

end Running

/-- `t` is the end with success of an operation that was launched from `s` and wrote exactly `out` (R214). -/
structure Succeeded (s t : State) (out : List Byte) : Prop where
  busy : t.busy = false
  done : t.done = true
  err : t.err = false
  cause : t.cause = .none
  holds : holdsAt t s.dstAddr.toNat out
  out_len : t.outLen.toNat = out.length
  in_pos : t.inPos = s.srcLen
  outside : untouchedOutside s.dstAddr.toNat out.length s t

/-- A completion with the source read to its end. -/
theorem Running.completes (h : Running m s a out) (hend : (sourceBytes s).drop a.inPos.toNat = []) :
    Succeeded s (completeOk a) out := by
  have hc : completeOk a = { a with busy := false, done := true } := by rw [completeOk, endRaces_clean h.races]
  rw [hc]
  exact ⟨rfl, rfl, h.err, h.cause, h.holds, h.out_len,
    BitVec.eq_of_toNat_eq (Nat.le_antisymm h.in_pos_le (sourceBytes_drop_eq_nil hend)), h.outside⟩

end

end Sys2Proof.Machine
end

section
/-! A launched ENCODE computes pack(lzw_codes(source)) (40_commands.md R122, 41_encoder.md R159): the engine and lzw_codes go
through the symbols side by side. -/

namespace Sys2Proof.Machine

/-! ### The dictionary and the map -/

/-- A lookup after the growth of ED finds what it found, and else the new entry (R156). -/
theorem find_put (d : Dict) {next : Nat} (p : Nat) (b : Byte) (q : Nat) (c : Byte) (h : Config.seedCount ≤ next) :
    find (d.put next ⟨p, b⟩) (next + 1) q c = (find d next q c).or (if q = p ∧ c = b then some next else none) := by
  have hrange : List.range' Config.seedCount (next + 1 - Config.seedCount) =
      List.range' Config.seedCount (next - Config.seedCount) ++ [next] := by
    rw [show next + 1 - Config.seedCount = next - Config.seedCount + 1 by omega, List.range'_1_concat,
      show Config.seedCount + (next - Config.seedCount) = next by omega]
  have hold : (List.range' Config.seedCount (next - Config.seedCount)).find?
      (fun k => (d.put next ⟨p, b⟩).get? k == some ⟨q, c⟩) = find d next q c := by
    refine List.find?_congr fun k hk => ?_
    have hlt := (List.mem_range'_1.1 hk).2
    rw [Dict.get?_put, if_neg (by omega)]
  have hnew : [next].find? (fun k => (d.put next ⟨p, b⟩).get? k == some ⟨q, c⟩) =
      if q = p ∧ c = b then some next else none := by
    simp only [List.find?_cons, List.find?_nil, Dict.get?_put, if_true]
    by_cases hqc : q = p ∧ c = b
    · simp [hqc]
    · have hne : (some (Entry.mk p b) == some ⟨q, c⟩) = false :=
        beq_eq_false_iff_ne.2 fun e => hqc (by cases e; exact ⟨rfl, rfl⟩)
      simp only [hne, if_neg hqc]
  rw [find, hrange, List.find?_append, hold, hnew]

/-! ### The codes so far -/

/-- The codes of lzw_codes if the input ended here. -/
def encCodes (v : EncVars) : List Nat := v.out ++ v.cur.toList

theorem encCodes_length_le_encLoop (v : EncVars) (b : Byte) : (encCodes v).length ≤ (encCodes (encLoop v b)).length := by
  cases hc : v.cur with
  | none => simp [encCodes, encLoop_start b hc, hc]
  | some p =>
    cases hl : v.map.lookup (p, b) with
    | none => simp [encCodes, encLoop_emit hc hl, hc]
    | some k => simp [encCodes, encLoop_extend hc hl, hc]

theorem encCodes_length_le_foldl (v : EncVars) (x : List Byte) :
    (encCodes v).length ≤ (encCodes (x.foldl encLoop v)).length := by
  induction x generalizing v with
  | nil => exact Nat.le_refl _
  | cons b x ih => exact Nat.le_trans (encCodes_length_le_encLoop v b) (ih (encLoop v b))

/-! ### The engine beside lzw_codes -/

/-- Growth below the encoder's ceiling does not wrap DICT_NEXT (R39, R155). -/
theorem toNat_succ_of_le_maxTableSize {next : BitVec 17} (h : next.toNat ≤ Config.maxTableSize) :
    (next + 1).toNat = next.toNat + 1 :=
  toNat_succ (Nat.lt_of_le_of_lt (Nat.succ_le_succ h) (by decide)) (by decide)

/-- The operation `a`, launched from `s`, stands where the variables `v` of lzw_codes stand. -/
structure EncMatches (s a : State) (v : EncVars) : Prop where
  run : Running .encode s a (pack v.out)
  cur : a.cur = v.cur
  count : a.codeCount.toNat = v.out.length
  next : a.dictNext.toNat = v.size
  size_ge : Config.seedCount ≤ v.size
  find_eq : ∀ q c, find a.ed a.dictNext.toNat q c = v.map.lookup (q, c)

theorem encMatches_launched (s : State) : EncMatches s (launched .encode s) encVars0 where
  run := running_launched .encode s
  cur := rfl
  count := rfl
  next := rfl
  size_ge := Nat.le_refl _
  find_eq := fun q c => by simp [launched, find, encVars0]

section
variable {s a : State} {v : EncVars}

/-- An emission with room writes the code and counts it (R157). -/
theorem EncMatches.emit (hs : LaunchReady s) (h : EncMatches s a v) (p : Nat)
    (hroom : 2 * (v.out.length + 1) ≤ s.dstCap.toNat) :
    ∃ t, emitCode p a = .ok () t ∧ t.inPos = a.inPos ∧ EncMatches s t { v with out := v.out ++ [p] } := by
  obtain ⟨t, ht, hframe, hrun⟩ := h.run.puts_bytes hs (bs := pack1 p) (by rw [pack_length, pack1_length]; omega)
  have hout : pack v.out ++ pack1 p = pack (v.out ++ [p]) := by rw [pack_append, pack_cons]; simp [pack]
  have hemit : emitCode p a = .ok () { t with codeCount := t.codeCount + 1 } := by
    have hfit : ¬a.outLen.toNat + Config.codeBytes > a.dstCap.toNat := by
      rw [h.run.out_len, h.run.dstCap, pack_length]
      simp only [Config.codeBytes]
      omega
    rw [emitCode, if_neg hfit, ht, Res.bind_ok]
  have hcap := s.dstCap.isLt
  have hcount : t.codeCount = a.codeCount := by rw [hframe]
  refine ⟨_, hemit, by rw [hframe], ⟨(hout ▸ hrun).of_counters _ _ _ _ _ _, ?_, ?_, ?_, h.size_ge, ?_⟩⟩
  · rw [hframe]
    exact h.cur
  · show (t.codeCount + 1).toNat = _
    rw [hcount, toNat_succ (by rw [h.count]; omega) (by decide), h.count, List.length_append, List.length_singleton]
  · rw [hframe]
    exact h.next
  · rw [hframe]
    exact h.find_eq

/-- The growth of ED is the growth of the map (R155). -/
theorem EncMatches.enter (h : EncMatches s a v) (p : Nat) (b : Byte) (cur : Option Nat) :
    EncMatches s { enterE p b a with cur := cur }
      { size := if v.size ≤ Config.maxTableSize then v.size + 1 else v.size
        cur := cur
        out := v.out
        map := if v.size ≤ Config.maxTableSize then v.map ++ [((p, b), v.size)] else v.map } := by
  have hnext := h.next
  rcases enterE_cases p b a with ⟨hle, he⟩ | ⟨hlt, he⟩
  · rw [he]
    simp only [if_pos (hnext ▸ hle)]
    have hsucc := toNat_succ_of_le_maxTableSize hle
    have hge := h.size_ge
    refine ⟨h.run.of_counters _ _ _ _ _ _, rfl, h.count, hsucc.trans (by rw [hnext]), Nat.le_succ_of_le hge, fun q c => ?_⟩
    dsimp only
    rw [hsucc, find_put _ _ _ _ _ (hnext ▸ hge), h.find_eq, List.lookup_append, hnext]
    congr 1
    by_cases hqc : q = p ∧ c = b
    · simp [hqc, List.lookup]
    · have : ((q, c) == (p, b)) = false := by simpa using hqc
      simp [hqc, List.lookup, this]
  · rw [he]
    simp only [if_neg (Nat.not_le.2 (hnext ▸ hlt))]
    exact ⟨h.run.of_counters _ _ _ _ _ _, rfl, h.count, h.next, h.size_ge, h.find_eq⟩

/-- The symbol step after its read is one turn of lzw_codes (R154). -/
theorem EncMatches.encSymbol_eq (hs : LaunchReady s) (h : EncMatches s a v) (b : Byte)
    (hroom : 2 * (encCodes (encLoop v b)).length ≤ s.dstCap.toNat) :
    ∃ t, encSymbol b a = .ok () t ∧ t.inPos = a.inPos ∧ EncMatches s t (encLoop v b) := by
  unfold encSymbol
  rw [h.cur]
  cases hc : v.cur with
  | none =>
    refine ⟨_, rfl, rfl, ?_⟩
    rw [encLoop_start b hc]
    exact ⟨h.run.of_counters _ _ _ _ _ _, rfl, h.count, h.next, h.size_ge, h.find_eq⟩
  | some p =>
    dsimp only
    rw [h.find_eq]
    cases hl : v.map.lookup (p, b) with
    | some k =>
      refine ⟨_, rfl, rfl, ?_⟩
      rw [encLoop_extend hc hl]
      exact ⟨h.run.of_counters _ _ _ _ _ _, rfl, h.count, h.next, h.size_ge, h.find_eq⟩
    | none =>
      rw [encLoop_emit hc hl] at hroom ⊢
      obtain ⟨t, ht, hpos, hm⟩ := h.emit hs p (by simp [encCodes] at hroom; omega)
      refine ⟨{ enterE p b t with cur := some b.toNat }, by dsimp only; rw [ht, Res.bind_ok], ?_, hm.enter p b _⟩
      rcases enterE_cases p b t with ⟨-, he⟩ | ⟨-, he⟩ <;> rw [he, ← hpos]

/-- A step with source left is a symbol step (R130, R154). -/
theorem EncMatches.step_symbol (hs : LaunchReady s) (h : EncMatches s a v) {b : Byte} {x : List Byte}
    (hx : (sourceBytes s).drop a.inPos.toNat = b :: x) (hroom : 2 * (encCodes (encLoop v b)).length ≤ s.dstCap.toNat) :
    ∃ t, step a = .next t ∧ (sourceBytes s).drop t.inPos.toNat = x ∧ EncMatches s t (encLoop v b) := by
  obtain ⟨hread, hpos, hlt, hrest, hrun⟩ := h.run.reads_next hs hx
  have h1 : EncMatches s { a with inPos := a.inPos + 1 } v := ⟨hrun, h.cur, h.count, h.next, h.size_ge, h.find_eq⟩
  obtain ⟨t, ht, htp, hm⟩ := h1.encSymbol_eq hs b hroom
  refine ⟨t, ?_, by rw [htp]; exact hrest, hm⟩
  have hstep : enabledStep a = encSymbolStep a := by
    unfold enabledStep
    rw [h.run.mode, h.run.srcLen]
    exact if_pos hlt
  rw [h.run.step_eq hs, hstep, encSymbolStep, hread, Res.bind_ok, ht]
  rfl

/-- The last step flushes and completes (R158). -/
theorem EncMatches.step_flush (hs : LaunchReady s) (h : EncMatches s a v) (hx : (sourceBytes s).drop a.inPos.toNat = [])
    (hroom : 2 * (encCodes v).length ≤ s.dstCap.toNat) :
    ∃ t, step a = .next t ∧ Succeeded s t (pack (encCodes v)) ∧ t.codeCount.toNat = (encCodes v).length ∧
      t.dictNext.toNat = v.size := by
  have hend := sourceBytes_drop_eq_nil hx
  have hstep : enabledStep a = encFlushStep a := by
    unfold enabledStep
    rw [h.run.mode, h.run.srcLen]
    exact if_neg (Nat.not_lt.2 hend)
  rw [h.run.step_eq hs, hstep, encFlushStep, h.cur]
  unfold encCodes at hroom ⊢
  cases hc : v.cur with
  | none =>
    simp only [Option.toList_none, List.append_nil]
    exact ⟨_, rfl, h.run.completes hx, h.count, h.next⟩
  | some p =>
    simp only [hc, Option.toList_some, List.length_append, List.length_singleton] at hroom
    obtain ⟨t, ht, htp, hm⟩ := h.emit hs p hroom
    simp only [Option.toList_some, ht, Res.bind_ok]
    exact ⟨_, rfl, hm.run.completes (htp ▸ hx), hm.count, hm.next⟩

/-- From any point of a launched ENCODE, the rest of the source is encoded and flushed. -/
theorem EncMatches.run_to_end (hs : LaunchReady s) (x : List Byte) (h : EncMatches s a v)
    (hx : (sourceBytes s).drop a.inPos.toNat = x) (hroom : 2 * (encCodes (x.foldl encLoop v)).length ≤ s.dstCap.toNat) :
    ∃ t, runSteps (x.length + 1) a = .next t ∧ Succeeded s t (pack (encCodes (x.foldl encLoop v))) ∧
      t.codeCount.toNat = (encCodes (x.foldl encLoop v)).length ∧ t.dictNext.toNat = (x.foldl encLoop v).size := by
  induction x generalizing a v with
  | nil =>
    obtain ⟨t, ht, hend⟩ := h.step_flush hs hx hroom
    exact ⟨t, runSteps_succ 0 ht, hend⟩
  | cons b x ih =>
    have hle := encCodes_length_le_foldl (encLoop v b) x
    obtain ⟨t, ht, htx, hm⟩ := h.step_symbol hs hx (Nat.le_trans (Nat.mul_le_mul_left 2 hle) hroom)
    rw [List.length_cons, runSteps_succ _ ht]
    exact ih hm htx hroom

end

/-- Settles O48: the engine goes through the symbols of the source as lzw_codes does, with ED in the place of its map. -/
theorem encodeComputesPackedLzwCodes : Obligations.EncodeComputesPackedLzwCodes := by
  intro s hs hroom
  rw [encodeBytes, pack_length] at hroom
  obtain ⟨t, ht, hend, hcount, hnext⟩ := (encMatches_launched s).run_to_end hs (sourceBytes s) rfl hroom
  rw [sourceBytes_length] at ht
  exact ⟨_, t, exec_launched_encode hs, ht, hend.busy, hend.done, hend.err, hend.cause, hend.holds, hend.out_len, hcount,
    hend.in_pos, hnext, hend.outside⟩

end Sys2Proof.Machine
end

section
/-! A launched DECODE computes the reconstruction of its source (40_commands.md R123, 42_decoder.md R182, R189): DD holds the
learned strings as chains, and each code step does what `decAppend` does. -/

namespace Sys2Proof.Machine

/-! ### The strings of a dictionary -/

/-- Every valid entry stands above its parent, so that chains end (R42, R187). -/
def Dict.Ranked (d : Dict) (next : Nat) : Prop :=
  ∀ k, Config.seedCount ≤ k → k < next → ∃ e, d.get? k = some e ∧ e.parent < k

/-- Any bound above the code follows its whole chain. -/
theorem Dict.Ranked.strFuel_eq {d : Dict} {next : Nat} (h : d.Ranked next) {m n k : Nat} (hm : k < m) (hn : k < n) :
    d.strFuel next m k = d.strFuel next n k := by
  induction m generalizing n k with
  | zero => omega
  | succ m ih =>
    obtain ⟨n, rfl⟩ : ∃ l, n = l + 1 := ⟨n - 1, by omega⟩
    simp only [Dict.strFuel]
    by_cases hk : k < Config.seedCount
    · simp only [if_pos hk]
    · by_cases hv : k < next
      · obtain ⟨e, he, hp⟩ := h k (by omega) hv
        simp only [if_neg hk, if_pos hv, he, ih (n := n) (k := e.parent) (by omega) (by omega)]
      · simp only [if_neg hk, if_neg hv]

/-- A seed is its byte (R52). -/
theorem Dict.str_seed (d : Dict) (next : Nat) {k : Nat} (h : k < Config.seedCount) :
    d.str next k = some ⟨BitVec.ofNat 8 k, []⟩ :=
  if_pos h

/-- A valid learned code is its parent's string and its own byte (R52). -/
theorem Dict.Ranked.str_learned {d : Dict} {next : Nat} (h : d.Ranked next) {k : Nat} {e : Entry} (hk : Config.seedCount ≤ k)
    (hv : k < next) (he : d.get? k = some e) : d.str next k = (d.str next e.parent).map fun t => t.snoc e.sym := by
  obtain ⟨e', he', hp⟩ := h k hk hv
  obtain rfl : e = e' := Option.some.inj (he.symm.trans he')
  rw [Dict.str, Dict.strFuel, if_neg (by omega), if_pos hv, he]
  dsimp only
  rw [h.strFuel_eq hp (Nat.lt_succ_self e.parent), Dict.str]

theorem Dict.Ranked.put {d : Dict} {next : Nat} (h : d.Ranked next) {p : Nat} (b : Byte) (hp : p < next) :
    (d.put next ⟨p, b⟩).Ranked (next + 1) := by
  intro k hk hv
  rw [Dict.get?_put]
  by_cases hn : k = next
  · exact ⟨_, if_pos hn, hn ▸ hp⟩
  · rw [if_neg hn]
    exact h k hk (by omega)

/-- Growth leaves the strings of the codes before it as they were. -/
theorem Dict.Ranked.str_put_old {d : Dict} {next : Nat} (h : d.Ranked next) {p : Nat} (b : Byte) (hp : p < next) {k : Nat}
    (hk : k < next) : (d.put next ⟨p, b⟩).str (next + 1) k = d.str next k := by
  induction k using Nat.strong_induction_on with
  | _ k ih =>
    by_cases hs : k < Config.seedCount
    · rw [Dict.str_seed _ _ hs, Dict.str_seed _ _ hs]
    · obtain ⟨e, he, hlt⟩ := h k (by omega) hk
      have he' : (d.put next ⟨p, b⟩).get? k = some e := by rw [Dict.get?_put, if_neg (by omega), he]
      rw [h.str_learned (by omega) hk he, (h.put b hp).str_learned (by omega) (by omega) he', ih e.parent hlt (by omega)]

/-- Growth gives the new code its parent's string and the new byte. -/
theorem Dict.Ranked.str_put_new {d : Dict} {next : Nat} (h : d.Ranked next) {p : Nat} (b : Byte) (hp : p < next)
    (hn : Config.seedCount ≤ next) :
    (d.put next ⟨p, b⟩).str (next + 1) next = (d.str next p).map fun t => t.snoc b := by
  rw [(h.put b hp).str_learned hn (Nat.lt_succ_self next) (by rw [Dict.get?_put, if_pos rfl]), h.str_put_old b hp hp]

@[simp] theorem Str.bytes_snoc (t : Str) (b : Byte) : (t.snoc b).bytes = t.bytes ++ [b] := rfl

@[simp] theorem Str.take_one_bytes (t : Str) : t.bytes.take 1 = [t.first] := rfl

theorem Str.bytes_ne_nil (t : Str) : t.bytes ≠ [] := List.cons_ne_nil _ _

/-! ### The reconstruction -/

theorem decScan_out_length_le {decCeil : Bool} {cs : List Nat} {v w : DecVars} (h : decScan decCeil cs v = (w, none)) :
    v.out.length ≤ w.out.length := by
  induction cs generalizing v with
  | nil =>
    cases h
    exact Nat.le_refl _
  | cons c cs ih =>
    obtain ⟨t, -, hrest⟩ := decScan_cons_ok h
    refine Nat.le_trans ?_ (ih hrest)
    simp [decAppend]

/-- A code resolves as a first code, as a known code, or as the special case (R183 to R185). -/
theorem decLookup_ok {decCeil : Bool} {v : DecVars} {c : Nat} {t : List Byte} (h : decLookup decCeil v c = .ok t) :
    (v.string = [] ∧ c < Config.seedCount ∧ t = [BitVec.ofNat 8 c]) ∨
      (v.string ≠ [] ∧ codeString v.learned c = some t) ∨
      (v.string ≠ [] ∧ c = Config.seedCount + v.learned.length ∧
        addOkD decCeil (Config.seedCount + v.learned.length) = true ∧ t = v.string ++ v.string.take 1) := by
  unfold decLookup at h
  split at h
  · rename_i hs
    split at h
    · cases h
    · cases h
      exact .inl ⟨hs, by omega, rfl⟩
  · rename_i hs
    unfold codeString
    split at h
    · rename_i hc
      cases h
      exact .inr (.inl ⟨hs, if_pos hc⟩)
    · rename_i hc
      split at h
      · rename_i u hu
        cases h
        exact .inr (.inl ⟨hs, by rw [if_neg hc, hu]⟩)
      · dsimp only at h
        split at h
        · rename_i hn
          cases h
          exact .inr (.inr ⟨hs, hn.1, hn.2, rfl⟩)
        · cases h

theorem unpack_eq_cons {y : List Byte} {c : Nat} {cs : List Nat} (h : unpack y = c :: cs) :
    ∃ hi lo rest, y = hi :: lo :: rest ∧ codeOf hi lo = c ∧ unpack rest = cs := by
  match y, h with
  | hi :: lo :: rest, h =>
    obtain ⟨hc, hcs⟩ := List.cons.inj h
    exact ⟨hi, lo, rest, rfl, hc, hcs⟩

theorem unpack_eq_nil {y : List Byte} (h : unpack y = []) : y = [] ∨ ∃ b, y = [b] := by
  match y, h with
  | [], _ => exact .inl rfl
  | [b], _ => exact .inr ⟨b, rfl⟩

theorem unpack_length (y : List Byte) : (unpack y).length = y.length / 2 := by
  induction y using unpack.induct with
  | case1 hi lo rest ih =>
    simp only [unpack, List.length_cons, ih]
    omega
  | case2 b => simp [unpack]
  | case3 => rfl

/-- Growth that is allowed does not wrap DICT_NEXT (R39, R187). -/
theorem toNat_succ_of_addOkD {decCeil : Bool} {next : BitVec 17} (h : addOkD decCeil next.toNat = true) :
    (next + 1).toNat = next.toNat + 1 := by
  have hle : next.toNat ≤ Config.decDictCodes - 1 := by
    unfold addOkD at h
    split at h
    · exact Nat.le_trans (of_decide_eq_true h) (by decide)
    · exact of_decide_eq_true h
  exact toNat_succ (Nat.lt_of_le_of_lt (Nat.succ_le_succ hle) (by decide)) (by decide)

/-! ### The engine beside the reconstruction -/

/-- The operation `a`, launched from `s`, stands where the variables `v` of the reconstruction stand. -/
structure DecMatches (s a : State) (v : DecVars) : Prop where
  run : Running .decode s a v.out
  count : a.codeCount.toNat = v.count
  count_le : v.count ≤ v.out.length
  next : a.dictNext.toNat = Config.seedCount + v.learned.length
  ranked : a.dd.Ranked a.dictNext.toNat
  str_eq : ∀ k, k < a.dictNext.toNat → (a.dd.str a.dictNext.toNat k).map Str.bytes = codeString v.learned k
  prev : (a.prev = none ∧ v.string = []) ∨
    ∃ p, a.prev = some p ∧ p < a.dictNext.toNat ∧ codeString v.learned p = some v.string ∧ v.string ≠ []

theorem decMatches_launched (s : State) : DecMatches s (launched .decode s) decVars0 where
  run := running_launched .decode s
  count := rfl
  count_le := Nat.le_refl _
  next := rfl
  ranked := fun k hk hv => absurd hv (Nat.not_lt.2 hk)
  str_eq := fun k hk => by
    have hs : k < Config.seedCount := hk
    rw [Dict.str_seed _ _ hs, codeString, if_pos hs]
    rfl
  prev := .inl ⟨rfl, rfl⟩

section
variable {s a : State} {v : DecVars}

theorem DecMatches.with_inPos (h : DecMatches s a v) {pos : Word} (hrun : Running .decode s { a with inPos := pos } v.out) :
    DecMatches s { a with inPos := pos } v :=
  ⟨hrun, h.count, h.count_le, h.next, h.ranked, h.str_eq, h.prev⟩

/-- The dictionary's string of a known code is the learned one. -/
theorem DecMatches.str_known (h : DecMatches s a v) {k : Nat} {t : List Byte} (ht : codeString v.learned k = some t) :
    k < a.dictNext.toNat ∧ ∃ w, a.dd.str a.dictNext.toNat k = some w ∧ w.bytes = t := by
  have hk : k < a.dictNext.toNat := h.next ▸ codeString_lt ht
  have hw := h.str_eq k hk
  rw [ht, Option.map_eq_some_iff] at hw
  exact ⟨hk, hw⟩

/-- A code that the reconstruction resolves, the engine resolves to the same bytes (R183 to R185). -/
theorem DecMatches.resolve_eq (h : DecMatches s a v) {c : Nat} {t : List Byte} (ht : decLookup s.decCeil v c = .ok t) :
    ∃ w, resolve c a = .str w ∧ w.bytes = t := by
  unfold resolve
  rw [h.run.decCeil]
  rcases h.prev with ⟨hp, hs⟩ | ⟨p, hp, -, hstr, hs⟩ <;> rw [hp] <;> dsimp only
  · rcases decLookup_ok ht with ⟨-, hc, rfl⟩ | ⟨hs', -⟩ | ⟨hs', -⟩
    · exact ⟨_, if_neg (Nat.not_le.2 hc), rfl⟩
    · exact absurd hs hs'
    · exact absurd hs hs'
  · rcases decLookup_ok ht with ⟨hs', -⟩ | ⟨-, hc⟩ | ⟨-, rfl, ho, rfl⟩
    · exact absurd hs' hs
    · obtain ⟨hlt, w, hw, hb⟩ := h.str_known hc
      exact ⟨w, by rw [if_pos hlt, hw]; rfl, hb⟩
    · obtain ⟨-, w, hw, hb⟩ := h.str_known hstr
      refine ⟨w.snoc w.first, ?_, by rw [Str.bytes_snoc, ← Str.take_one_bytes, hb]⟩
      rw [← h.next, if_neg (Nat.lt_irrefl _), if_pos ⟨rfl, h.next ▸ ho⟩, hw]
      rfl

/-- The growth of DD after a string `w` is the growth of the learned strings (R187). -/
theorem DecMatches.grow (h : DecMatches s a v) (w : Str) :
    (enterD w.first a).dictNext.toNat = Config.seedCount + (decAppend s.decCeil v w.bytes).learned.length ∧
      (enterD w.first a).dd.Ranked (enterD w.first a).dictNext.toNat ∧
      (∀ k, k < (enterD w.first a).dictNext.toNat →
        ((enterD w.first a).dd.str (enterD w.first a).dictNext.toNat k).map Str.bytes =
          codeString (decAppend s.decCeil v w.bytes).learned k) := by
  have hnext := h.next
  have hceil := h.run.decCeil
  rcases enterD_cases w.first a with ⟨p, hp, ho, he⟩ | ⟨hno, he⟩
  · rcases h.prev with ⟨hp', -⟩ | ⟨p', hp', hlt, hstr, hs⟩
    · rw [hp] at hp'
      cases hp'
    obtain rfl : p = p' := Option.some.inj (hp.symm.trans hp')
    have hsucc := toNat_succ_of_addOkD ho
    have hlearned : (decAppend s.decCeil v w.bytes).learned = v.learned ++ [v.string ++ [w.first]] :=
      if_pos ⟨hs, hceil ▸ hnext ▸ ho⟩
    rw [he, hlearned]
    dsimp only
    rw [hsucc]
    refine ⟨by rw [hnext, List.length_append, List.length_singleton, Nat.add_assoc], h.ranked.put _ hlt, fun k hk => ?_⟩
    rcases Nat.lt_succ_iff_lt_or_eq.1 hk with hk | rfl
    · rw [h.ranked.str_put_old _ hlt hk, h.str_eq k hk]
      obtain ⟨t, ht⟩ : ∃ t, codeString v.learned k = some t := by
        unfold codeString
        split
        · exact ⟨_, rfl⟩
        · exact ⟨_, List.getElem?_eq_getElem (by omega)⟩
      rw [ht, codeString_append _ ht]
    · obtain ⟨-, u, hu, hb⟩ := h.str_known hstr
      rw [h.ranked.str_put_new _ hlt (by omega), hu, hnext, codeString_next]
      simp [hb]
  · have hlearned : (decAppend s.decCeil v w.bytes).learned = v.learned := by
      refine if_neg fun hn => ?_
      rcases hno with hp | ho
      · rcases h.prev with ⟨-, hs⟩ | ⟨p', hp', -⟩
        · exact hn.1 hs
        · rw [hp] at hp'
          cases hp'
      · rw [hceil, hnext, hn.2] at ho
        cases ho
    rw [he, hlearned]
    exact ⟨hnext, h.ranked, h.str_eq⟩

/-- After its code the string is known under it: the special case has just entered it (R185). -/
theorem codeString_decAppend {decCeil : Bool} {v : DecVars} {c : Nat} {t : List Byte} (h : decLookup decCeil v c = .ok t) :
    codeString (decAppend decCeil v t).learned c = some t := by
  rcases decLookup_ok h with ⟨hs, hc, rfl⟩ | ⟨-, hc⟩ | ⟨hs, rfl, ho, rfl⟩
  · exact if_pos hc
  · unfold decAppend
    dsimp only
    split
    · exact codeString_append _ hc
    · exact hc
  · have ht : (v.string ++ v.string.take 1).take 1 = v.string.take 1 := by
      cases hv : v.string with
      | nil => exact absurd hv hs
      | cons b r => rfl
    have hlearned : (decAppend decCeil v (v.string ++ v.string.take 1)).learned = v.learned ++ [v.string ++ v.string.take 1] := by
      rw [decAppend, ht]
      exact if_pos ⟨hs, ho⟩
    rw [hlearned, codeString_next]

/-- A code step after its read does what the reconstruction does with the code (R182, R189). -/
theorem DecMatches.decCode_eq (hs : LaunchReady s) (h : DecMatches s a v) {c : Nat} {t : List Byte}
    (ht : decLookup s.decCeil v c = .ok t) (hroom : v.out.length + t.length ≤ s.dstCap.toNat) :
    ∃ u, decCode c a = .ok () u ∧ u.inPos = a.inPos ∧ DecMatches s u (decAppend s.decCeil v t) := by
  obtain ⟨w, hw, rfl⟩ := h.resolve_eq ht
  obtain ⟨a1, ha1, hframe, hrun⟩ := h.run.puts_bytes hs hroom
  have h1 : DecMatches s a1 { v with out := v.out ++ w.bytes } := by
    rw [hframe] at hrun ⊢
    exact ⟨hrun, h.count, Nat.le_trans h.count_le (by simp), h.next, h.ranked, h.str_eq, h.prev⟩
  obtain ⟨hnext, hranked, hstr⟩ := h1.grow w
  have hput : putString w.bytes a = .ok () a1 := by
    rw [putString, if_neg (by rw [h.run.out_len, h.run.dstCap]; omega), ha1]
  have hcode : decCode c a =
      .ok () { enterD w.first a1 with prev := some c, codeCount := a1.codeCount + 1 } := by
    rw [decCode, hw]
    dsimp only
    rw [hput, Res.bind_ok]
  have hlen : 1 ≤ w.bytes.length := List.length_pos_of_ne_nil w.bytes_ne_nil
  have hcap := s.dstCap.isLt
  have hle := h.count_le
  have hcount : (a1.codeCount + 1).toNat = v.count + 1 := by
    rw [toNat_succ (by rw [h1.count]; show v.count + 1 < 2 ^ 32; omega) (by decide), h1.count]
  have hknown := codeString_decAppend ht
  have hlt := codeString_lt hknown
  refine ⟨_, hcode, ?_, ?_, hcount, ?_, hnext, hranked, hstr, .inr ⟨c, rfl, hnext ▸ hlt, hknown, w.bytes_ne_nil⟩⟩
  · rcases enterD_cases w.first a1 with ⟨p, -, -, he⟩ | ⟨-, he⟩ <;> rw [he, hframe]
  · rcases enterD_cases w.first a1 with ⟨p, -, -, he⟩ | ⟨-, he⟩ <;> rw [he] <;> exact h1.run.of_counters _ _ _ _ _ _
  · show v.count + 1 ≤ (v.out ++ w.bytes).length
    rw [List.length_append]
    omega

/-- A step with two source bytes left is a code step (R130, R182). -/
theorem DecMatches.step_code (hs : LaunchReady s) (h : DecMatches s a v) {hi lo : Byte} {x t : List Byte}
    (hx : (sourceBytes s).drop a.inPos.toNat = hi :: lo :: x) (ht : decLookup s.decCeil v (codeOf hi lo) = .ok t)
    (hroom : v.out.length + t.length ≤ s.dstCap.toNat) :
    ∃ u, step a = .next u ∧ (sourceBytes s).drop u.inPos.toNat = x ∧ DecMatches s u (decAppend s.decCeil v t) := by
  obtain ⟨hread1, -, -, hx1, hrun1⟩ := h.run.reads_next hs hx
  obtain ⟨hread2, -, -, hx2, hrun2⟩ := hrun1.reads_next hs hx1
  obtain ⟨u, hu, hpos, hm⟩ := (h.with_inPos hrun2).decCode_eq hs ht hroom
  refine ⟨u, ?_, by rw [hpos]; exact hx2, hm⟩
  have hlen := congrArg List.length hx
  rw [List.length_drop, sourceBytes_length, List.length_cons, List.length_cons] at hlen
  have hstep : enabledStep a = decCodeStep a := by
    unfold enabledStep
    rw [h.run.mode, h.run.srcLen]
    exact if_pos (by omega)
  rw [h.run.step_eq hs, hstep, decCodeStep, readCode, hread1, Res.bind_ok, hread2, Res.bind_ok, Res.bind_ok]
  rw [hu]
  rfl

/-- The last step completes, after dropping an odd last byte (R190, R191). -/
theorem DecMatches.step_end (hs : LaunchReady s) (h : DecMatches s a v)
    (hx : unpack ((sourceBytes s).drop a.inPos.toNat) = []) :
    ∃ t, step a = .next t ∧ Succeeded s t v.out ∧ t.codeCount.toNat = v.count ∧
      t.dictNext.toNat = Config.seedCount + v.learned.length := by
  rw [h.run.step_eq hs]
  unfold enabledStep
  rw [h.run.mode, h.run.srcLen]
  dsimp only
  rcases unpack_eq_nil hx with hx | ⟨b, hx⟩
  · have hend := sourceBytes_drop_eq_nil hx
    rw [if_neg (by omega), if_neg (by omega), decEndStep]
    exact ⟨_, rfl, h.run.completes hx, h.count, h.next⟩
  · have hlen := congrArg List.length hx
    rw [List.length_drop, sourceBytes_length, List.length_singleton] at hlen
    obtain ⟨hread, -, -, hx1, hrun⟩ := h.run.reads_next hs hx
    rw [hlen, if_neg (by decide), if_pos rfl, decTailStep, hread, Res.bind_ok]
    exact ⟨_, rfl, hrun.completes hx1, h.count, h.next⟩

/-- From any point of a launched DECODE of an accepted stream, the rest of the source is decoded. -/
theorem DecMatches.run_to_end (hs : LaunchReady s) (cs : List Nat) (h : DecMatches s a v) {w : DecVars}
    (hx : unpack ((sourceBytes s).drop a.inPos.toNat) = cs) (hscan : decScan s.decCeil cs v = (w, none))
    (hroom : w.out.length ≤ s.dstCap.toNat) :
    ∃ t, runSteps (cs.length + 1) a = .next t ∧ Succeeded s t w.out ∧ t.codeCount.toNat = w.count ∧
      t.dictNext.toNat = Config.seedCount + w.learned.length := by
  induction cs generalizing a v with
  | nil =>
    cases hscan
    obtain ⟨t, ht, hend⟩ := h.step_end hs hx
    exact ⟨t, runSteps_succ 0 ht, hend⟩
  | cons c cs ih =>
    obtain ⟨hi, lo, x, hsrc, rfl, hrest⟩ := unpack_eq_cons hx
    obtain ⟨t, ht, hscan'⟩ := decScan_cons_ok hscan
    have hle := decScan_out_length_le hscan'
    have hfit : v.out.length + t.length ≤ s.dstCap.toNat := by
      rw [decAppend, List.length_append] at hle
      omega
    obtain ⟨u, hu, hux, hm⟩ := h.step_code hs hsrc ht hfit
    rw [List.length_cons, runSteps_succ _ hu]
    exact ih hm (hux ▸ hrest) hscan'

end

/-- Settles O50: each code step of the engine does what the reconstruction does with the code, with DD in the place of the learned
strings. -/
theorem decodeComputesTheReconstruction : Obligations.DecodeComputesTheReconstruction := by
  intro s v hs hscan hroom
  obtain ⟨t, ht, hend, hcount, hnext⟩ := (decMatches_launched s).run_to_end hs (unpack (sourceBytes s)) rfl hscan hroom
  rw [unpack_length, sourceBytes_length] at ht
  have hdec : decodeBytes s.decCeil (sourceBytes s) = .bytes v.out := by rw [decodeBytes, decodeCodes, hscan]
  exact ⟨_, t, exec_launched_decode hs, ht, hdec, hend.busy, hend.done, hend.err, hend.cause, hend.holds, hend.out_len,
    hend.in_pos, hcount, hnext, hend.outside⟩

end Sys2Proof.Machine
end

section
/-! No state survives inside the block (00_scope.md R19, 10_state.md R53): e.cur or e.prev and the valid entries of the running
unit's dictionary are all that a step reads of the internal state, so two states that agree on those go on alike. -/

namespace Sys2Proof.Machine

/-! ### The same view from outside -/

/-- Two states differ at most in e.cur, e.prev, ED and DD. -/
def SameView (s t : State) : Prop := outsideView s = outsideView t

section
variable {s t : State}

namespace SameView

theorem busy (h : SameView s t) : s.busy = t.busy := (congrArg State.busy h :)
theorem mode (h : SameView s t) : s.mode = t.mode := (congrArg State.mode h :)
theorem decCeil (h : SameView s t) : s.decCeil = t.decCeil := (congrArg State.decCeil h :)
theorem srcAddr (h : SameView s t) : s.srcAddr = t.srcAddr := (congrArg State.srcAddr h :)
theorem srcLen (h : SameView s t) : s.srcLen = t.srcLen := (congrArg State.srcLen h :)
theorem dstAddr (h : SameView s t) : s.dstAddr = t.dstAddr := (congrArg State.dstAddr h :)
theorem dstCap (h : SameView s t) : s.dstCap = t.dstCap := (congrArg State.dstCap h :)
theorem inPos (h : SameView s t) : s.inPos = t.inPos := (congrArg State.inPos h :)
theorem outLen (h : SameView s t) : s.outLen = t.outLen := (congrArg State.outLen h :)
theorem dictNext (h : SameView s t) : s.dictNext = t.dictNext := (congrArg State.dictNext h :)
theorem mem (h : SameView s t) : s.mem = t.mem := (congrArg State.mem h :)
theorem platform (h : SameView s t) : s.platform = t.platform := (congrArg State.platform h :)
theorem turns (h : SameView s t) : s.turns = t.turns := (congrArg State.turns h :)
theorem races (h : SameView s t) : s.races = t.races := (congrArg State.races h :)
theorem unspec (h : SameView s t) : s.unspec = t.unspec := (congrArg State.unspec h :)
theorem codeCount (h : SameView s t) : s.codeCount = t.codeCount := (congrArg State.codeCount h :)
theorem freeCount (h : SameView s t) : s.freeCount = t.freeCount := (congrArg State.freeCount h :)
theorem readReg_eq (h : SameView s t) (r : RegName) : readReg r s = readReg r t := by
  have e : ∀ u, readReg r (outsideView u) = readReg r u := by cases r <;> exact fun _ => rfl
  rw [← e s, ← e t, show outsideView s = outsideView t from h]

/-- An operation that does not read the internal state keeps the views the same. -/
theorem map (h : SameView s t) (f : State → State) (hf : ∀ u, f (outsideView u) = outsideView (f u) := by intro _; rfl) :
    SameView (f s) (f t) := by
  rw [SameView, ← hf, ← hf, show outsideView s = outsideView t from h]

theorem busStores (h : SameView s t) (a : Nat) (bs : List Byte) : SameView (busStores a bs s) (busStores a bs t) := by
  induction bs generalizing a s t with
  | nil => exact h
  | cons b bs ih => exact ih (h.map (busStore a b)) (a + 1)

end SameView
end

/-! ### The live part of the internal state -/

/-- Two dictionaries hold the same valid entries (R41, R42). -/
def Dict.Agree (next : Nat) (d e : Dict) : Prop := ∀ k, Config.seedCount ≤ k → k < next → d.get? k = e.get? k

theorem Dict.Agree.put {next : Nat} {d e : Dict} (h : Dict.Agree next d e) (x : Entry) :
    Dict.Agree (next + 1) (d.put next x) (e.put next x) := by
  intro k hk hn
  rw [Dict.get?_put, Dict.get?_put]
  split
  · rfl
  · exact h k hk (by omega)

theorem Dict.Agree.find_eq {next : Nat} {d e : Dict} (h : Dict.Agree next d e) (p : Nat) (b : Byte) :
    find d next p b = find e next p b := by
  refine List.find?_congr fun k hk => ?_
  obtain ⟨h1, h2⟩ := List.mem_range'_1.1 hk
  rw [h k h1 (by omega)]

theorem Dict.Agree.strFuel_eq {next : Nat} {d e : Dict} (h : Dict.Agree next d e) (n k : Nat) :
    d.strFuel next n k = e.strFuel next n k := by
  induction n generalizing k with
  | zero => rfl
  | succ n ih =>
    simp only [Dict.strFuel]
    by_cases hs : k < Config.seedCount
    · simp only [if_pos hs]
    · by_cases hv : k < next
      · simp only [if_neg hs, if_pos hv, h k (by omega) hv, ih]
      · simp only [if_neg hs, if_neg hv]

theorem Dict.Agree.str_eq {next : Nat} {d e : Dict} (h : Dict.Agree next d e) (k : Nat) : d.str next k = e.str next k :=
  h.strFuel_eq (k + 1) k

/-- The two states agree on what the unit of mode `m` reads of the internal state. -/
abbrev LiveAgree (m : Mode) (s t : State) : Prop :=
  (m = .encode → s.cur = t.cur ∧ Dict.Agree s.dictNext.toNat s.ed t.ed) ∧
    (m = .decode → s.prev = t.prev ∧ Dict.Agree s.dictNext.toNat s.dd t.dd)

/-- Two states of an operation in mode `m` that go on alike. -/
structure Alike (m : Mode) (s t : State) : Prop where
  outside : SameView s t
  mode_is : s.mode = m
  live : LiveAgree m s t

/-- Two states of the machine that go on alike: while idle nothing of the internal state is live (R53). -/
structure Indistinct (s t : State) : Prop where
  outside : SameView s t
  live : s.busy = true → LiveAgree s.mode s t

/-- Two pieces of a step that end in the same way, in states alike. -/
inductive Res.Alike (m : Mode) {α : Type} : Res α → Res α → Prop where
  | ok (v : α) {s t : State} (h : Machine.Alike m s t) : Res.Alike m (.ok v s) (.ok v t)
  | raise (c : Cause) (i : Word) {s t : State} (h : Machine.Alike m s t) : Res.Alike m (.raise c i s) (.raise c i t)
  | stuck (x : Fault) : Res.Alike m (.stuck x) (.stuck x)

/-- Two steps that end in the same way, in states that go on alike. -/
inductive AlikeOutcome : Host.Outcome State Fault Refusal → Host.Outcome State Fault Refusal → Prop where
  | next {s t : State} (h : Indistinct s t) : AlikeOutcome (.next s) (.next t)
  | fault (x : Fault) : AlikeOutcome (.fault x) (.fault x)
  | refused (x : Refusal) : AlikeOutcome (.refused x) (.refused x)

theorem Res.Alike.bind {m : Mode} {α β : Type} {r q : Res α} {f g : α → State → Res β} (h : Res.Alike m r q)
    (hf : ∀ v s t, Machine.Alike m s t → Res.Alike m (f v s) (g v t)) : Res.Alike m (r.bind f) (q.bind g) := by
  cases h with
  | ok v h => exact hf v _ _ h
  | raise c i h => exact .raise c i h
  | stuck x => exact .stuck x

section
variable {m : Mode} {s t : State}

theorem LiveAgree.enc (h : LiveAgree .encode s t) : s.cur = t.cur ∧ Dict.Agree s.dictNext.toNat s.ed t.ed := h.1 rfl

theorem LiveAgree.dec (h : LiveAgree .decode s t) : s.prev = t.prev ∧ Dict.Agree s.dictNext.toNat s.dd t.dd := h.2 rfl

theorem Indistinct.of_idle (h : SameView s t) (hb : s.busy = false) : Indistinct s t :=
  ⟨h, fun hb' => absurd hb' (by simp [hb])⟩

theorem Indistinct.alike (h : Indistinct s t) (hb : s.busy = true) : Alike s.mode s t := ⟨h.outside, rfl, h.live hb⟩

theorem Alike.indistinct (h : Alike m s t) : Indistinct s t := ⟨h.outside, fun _ => h.mode_is ▸ h.live⟩

/-! ### The pieces of an engine step -/

namespace Alike

theorem memRead (h : Alike m s t) (a : Nat) (i : Word) : Res.Alike m (memRead a i s) (memRead a i t) := by
  unfold Machine.memRead
  rw [h.outside.platform, h.outside.races, h.outside.unspec, h.outside.mem]
  split
  · exact .stuck _
  · split
    · exact .raise _ _ h
    · split
      · rw [show (drawByte s).1 = (drawByte t).1 from congrArg Config.freeByte h.outside.freeCount]
        exact .ok _ ⟨h.outside.map fun u => (drawByte u).2, h.mode_is, h.live⟩
      · exact .ok _ h

theorem memWrite (h : Alike m s t) (a : Nat) (i : Word) (v : Byte) : Res.Alike m (memWrite a i v s) (memWrite a i v t) := by
  unfold Machine.memWrite
  rw [h.outside.platform]
  split
  · exact .stuck _
  · split
    · exact .raise _ _ h
    · exact .ok _ ⟨h.outside.map (busStore a v), h.mode_is, h.live⟩

theorem putBytes (h : Alike m s t) (bs : List Byte) : Res.Alike m (putBytes bs s) (putBytes bs t) := by
  induction bs generalizing s t with
  | nil => exact .ok _ h
  | cons b bs ih =>
    rw [Machine.putBytes, Machine.putBytes, h.outside.dstAddr, h.outside.outLen]
    refine (h.memWrite _ _ _).bind fun _ s1 t1 h1 => ih ?_
    exact ⟨h1.outside.map fun u => { u with outLen := u.outLen + 1 }, h1.mode_is, h1.live⟩

theorem countCode (h : Alike m s t) :
    Alike m { s with codeCount := s.codeCount + 1 } { t with codeCount := t.codeCount + 1 } :=
  ⟨h.outside.map fun u => { u with codeCount := u.codeCount + 1 }, h.mode_is, h.live⟩

theorem completeOk (h : Alike m s t) : Alike m (completeOk s) (completeOk t) :=
  ⟨h.outside.map Machine.completeOk, h.mode_is, h.live⟩

theorem readSymbol (h : Alike m s t) : Res.Alike m (readSymbol s) (readSymbol t) := by
  unfold Machine.readSymbol srcByteAddr
  rw [h.outside.srcAddr, h.outside.inPos]
  refine (h.memRead _ _).bind fun b s1 t1 h1 => .ok b ?_
  exact ⟨h1.outside.map fun u => { u with inPos := u.inPos + 1 }, h1.mode_is, h1.live⟩

theorem readCode (h : Alike m s t) : Res.Alike m (readCode s) (readCode t) :=
  h.readSymbol.bind fun _ _ _ h1 => h1.readSymbol.bind fun _ _ _ h2 => .ok _ h2

/-! ### The encoder -/

theorem emitCode (h : Alike m s t) (c : Nat) : Res.Alike m (emitCode c s) (emitCode c t) := by
  unfold Machine.emitCode
  rw [h.outside.outLen, h.outside.dstCap]
  split
  · exact .raise _ _ h
  · exact (h.putBytes _).bind fun _ _ _ h1 => .ok _ h1.countCode

theorem setCur (h : Alike .encode s t) (c : Option Nat) : Alike .encode { s with cur := c } { t with cur := c } :=
  ⟨h.outside, h.mode_is, fun _ => ⟨rfl, h.live.enc.2⟩, nofun⟩

theorem enterE (h : Alike .encode s t) (p : Nat) (b : Byte) : Alike .encode (enterE p b s) (enterE p b t) := by
  obtain ⟨hcur, hed⟩ := h.live.enc
  have hn := h.outside.dictNext
  unfold Machine.enterE
  rw [show addOkE s.dictNext.toNat = addOkE t.dictNext.toNat by rw [hn]]
  split
  · rename_i ho
    have hsucc := toNat_succ_of_le_maxTableSize (next := s.dictNext) (hn ▸ of_decide_eq_true ho)
    refine ⟨h.outside.map fun u => { u with dictNext := u.dictNext + 1 }, h.mode_is, fun _ => ⟨hcur, ?_⟩, nofun⟩
    dsimp only
    rw [hsucc, ← hn]
    exact hed.put _
  · exact h

theorem encSymbol (h : Alike .encode s t) (b : Byte) : Res.Alike .encode (encSymbol b s) (encSymbol b t) := by
  obtain ⟨hcur, hed⟩ := h.live.enc
  unfold Machine.encSymbol
  rw [hcur]
  cases t.cur with
  | none => exact .ok _ (h.setCur _)
  | some p =>
    have hfind : find s.ed s.dictNext.toNat p b = find t.ed t.dictNext.toNat p b := by rw [hed.find_eq, h.outside.dictNext]
    dsimp only
    rw [hfind]
    cases find t.ed t.dictNext.toNat p b with
    | some k => exact .ok _ (h.setCur _)
    | none => exact (h.emitCode p).bind fun _ _ _ h1 => .ok _ ((h1.enterE p b).setCur _)

theorem encFlushStep (h : Alike .encode s t) : Res.Alike .encode (encFlushStep s) (encFlushStep t) := by
  unfold Machine.encFlushStep
  rw [h.live.enc.1]
  cases t.cur with
  | none => exact .ok _ h.completeOk
  | some p => exact (h.emitCode p).bind fun _ _ _ h1 => .ok _ h1.completeOk

/-! ### The decoder -/

theorem resolve_eq (h : Alike .decode s t) (c : Nat) : resolve c s = resolve c t := by
  obtain ⟨hprev, hdd⟩ := h.live.dec
  unfold resolve
  rw [hprev, h.outside.decCeil, h.outside.dictNext]
  rw [h.outside.dictNext] at hdd
  simp only [hdd.str_eq]

theorem putString (h : Alike m s t) (bs : List Byte) : Res.Alike m (putString bs s) (putString bs t) := by
  unfold Machine.putString
  rw [h.outside.outLen, h.outside.dstCap]
  split
  · exact .raise _ _ h
  · exact h.putBytes bs

theorem enterD (h : Alike .decode s t) (b : Byte) : Alike .decode (enterD b s) (enterD b t) := by
  obtain ⟨hprev, hdd⟩ := h.live.dec
  have hn := h.outside.dictNext
  have hok : addOkD s.decCeil s.dictNext.toNat = addOkD t.decCeil t.dictNext.toNat := by rw [h.outside.decCeil, hn]
  unfold Machine.enterD
  rw [hprev, hok]
  cases t.prev with
  | none => exact h
  | some p =>
    dsimp only
    split
    · rename_i ho
      have hsucc : (s.dictNext + 1).toNat = s.dictNext.toNat + 1 := toNat_succ_of_addOkD (hok.trans ho)
      refine ⟨h.outside.map fun u => { u with dictNext := u.dictNext + 1 }, h.mode_is, nofun, fun _ => ⟨rfl, ?_⟩⟩
      dsimp only
      rw [hsucc, ← hn]
      exact hdd.put _
    · exact h

theorem decCode (h : Alike .decode s t) (c : Nat) : Res.Alike .decode (decCode c s) (decCode c t) := by
  unfold Machine.decCode
  rw [h.resolve_eq]
  cases resolve c t with
  | error k => exact .raise _ _ h
  | dead => exact .stuck _
  | str w =>
    refine (h.putString _).bind fun _ s1 t1 h1 => .ok _ ?_
    have h2 := h1.enterD w.first
    rw [h1.outside.codeCount]
    exact ⟨h2.outside.map fun u => { u with codeCount := t1.codeCount + 1 }, h2.mode_is, nofun,
      fun _ => ⟨rfl, h2.live.dec.2⟩⟩

theorem enabledStep (h : Alike m s t) : Res.Alike m (enabledStep s) (enabledStep t) := by
  have hm : t.mode = m := h.outside.mode ▸ h.mode_is
  unfold Machine.enabledStep
  rw [h.mode_is, hm, h.outside.inPos, h.outside.srcLen]
  cases m with
  | encode =>
    dsimp only
    split
    · exact h.readSymbol.bind fun b _ _ h1 => h1.encSymbol b
    · exact h.encFlushStep
  | decode =>
    dsimp only
    split
    · exact h.readCode.bind fun c _ _ h1 => h1.decCode c
    · split
      · exact h.readSymbol.bind fun _ _ _ h1 => .ok _ h1.completeOk
      · exact .ok _ h.completeOk

end Alike

/-! ### The engine's move and reset -/

theorem Res.Alike.finish {r q : Res Unit} (h : Res.Alike m r q) : AlikeOutcome (finish r) (finish q) := by
  cases h with
  | ok v h => exact .next h.indistinct
  | raise c i h => exact .next (.of_idle (h.outside.map (completeError c i)) rfl)
  | stuck x => exact .fault x

theorem Res.Alike.last {r q : Res Unit} (h : Res.Alike m r q) :
    (r.last = none ∧ q.last = none) ∨ ∃ s t, r.last = some s ∧ q.last = some t ∧ SameView s t := by
  cases h with
  | ok v h => exact .inr ⟨_, _, rfl, rfl, h.outside⟩
  | raise c i h => exact .inr ⟨_, _, rfl, rfl, h.outside⟩
  | stuck x => exact .inl ⟨rfl, rfl⟩

theorem Indistinct.engineStep (h : Indistinct s t) : AlikeOutcome (engineStep s) (engineStep t) := by
  have hbt := h.outside.busy
  cases hb : s.busy with
  | false =>
    rw [engineStep_idle hb, engineStep_idle (hbt ▸ hb)]
    exact .next h
  | true =>
    rw [engineStep_busy hb, engineStep_busy (hbt ▸ hb)]
    exact (h.alike hb).enabledStep.finish

theorem SameView.stepBytes_eq {u v : State} (h : SameView s t) (hu : SameView u v) : stepBytes s u = stepBytes t v := by
  rw [stepBytes, stepBytes, h.outLen, h.dstAddr, hu.outLen, hu.mem]

/-- A step cut off by reset leaves the same bytes (R243). -/
theorem Indistinct.cutStep (h : Indistinct s t) (cut : Nat) : SameView (cutStep cut s) (cutStep cut t) := by
  have ho := h.outside
  cases hb : s.busy with
  | false =>
    rw [cutStep_idle cut hb, cutStep_idle cut (ho.busy ▸ hb)]
    exact ho
  | true =>
    unfold Machine.cutStep
    rw [if_pos hb, if_pos (ho.busy ▸ hb)]
    rcases (h.alike hb).enabledStep.last with ⟨hs, ht⟩ | ⟨u, v, hs, ht, hv⟩
    · rw [hs, ht]
      exact ho
    · have haddr : s.dstAddr.toNat + s.outLen.toNat = t.dstAddr.toNat + t.outLen.toNat := by rw [ho.dstAddr, ho.outLen]
      rw [hs, ht]
      dsimp only
      rw [haddr, ho.stepBytes_eq hv, hv.freeCount]
      exact (ho.map fun w => { w with freeCount := v.freeCount }).busStores _ _

/-! ### Commands and register writes -/

theorem Indistinct.ignored (h : Indistinct s t) : Indistinct (setIgn s) (setIgn t) := ⟨h.outside.map setIgn, h.live⟩

theorem Indistinct.answered (h : Indistinct s t) (r : Response) : Indistinct { s with resp := r } { t with resp := r } :=
  ⟨h.outside.map fun u => { u with resp := r }, h.live⟩

/-- Acceptance forgets what an earlier operation left (R53, R126). -/
theorem SameView.accept (h : SameView s t) (m : Mode) :
    Indistinct (accept m { clearForIssue s with mode := m }) (accept m { clearForIssue t with mode := m }) := by
  cases m with
  | encode =>
    exact ⟨h.map fun u => Machine.accept .encode { clearForIssue u with mode := .encode },
      fun _ => ⟨fun _ => ⟨rfl, fun k hk hn => absurd hn (Nat.not_lt.2 hk)⟩, nofun⟩⟩
  | decode =>
    exact ⟨h.map fun u => Machine.accept .decode { clearForIssue u with mode := .decode },
      fun _ => ⟨nofun, fun _ => ⟨rfl, fun k hk hn => absurd hn (Nat.not_lt.2 hk)⟩⟩⟩

theorem Indistinct.launch (h : Indistinct s t) (m : Mode) : AlikeOutcome (launch m s) (launch m t) := by
  have ho := h.outside
  have hr : rangeCheck s = rangeCheck t := (congrArg rangeCheck ho :)
  have hd : onDevice s = onDevice t := (congrArg onDevice ho :)
  cases hb : s.busy with
  | true =>
    rw [launch_busy m hb, launch_busy m (ho.busy ▸ hb)]
    exact .next h.ignored
  | false =>
    have hbt : t.busy = false := ho.busy ▸ hb
    by_cases hrs : rangeCheck s = 0
    · cases hds : onDevice s with
      | true =>
        rw [launch_device m hb hrs hds, launch_device m hbt (hr ▸ hrs) (hd ▸ hds)]
        exact .refused _
      | false =>
        rw [launch_accept m hb hrs hds, launch_accept m hbt (hr ▸ hrs) (hd ▸ hds)]
        exact .next (ho.accept m)
    · rw [launch_bad_range m hb hrs, launch_bad_range m hbt (hr ▸ hrs), hr]
      exact .next (.of_idle
        (ho.map fun u => reject .cmdBadRange ((rangeCheck t).zeroExtend 32) { clearForIssue u with mode := m }) hb)

theorem Indistinct.exec (h : Indistinct s t) (i : Instr) : AlikeOutcome (exec i s) (exec i t) := by
  cases i with
  | nop => exact .next h
  | encode => exact h.launch .encode
  | decode => exact h.launch .decode
  | abort =>
    show AlikeOutcome (.next (if s.busy then _ else s)) (.next (if t.busy then _ else t))
    rw [h.outside.busy]
    split
    · exact .next (.of_idle (h.outside.map (completeError .aborted 0)) rfl)
    · exact .next h

theorem Indistinct.writeCmd (h : Indistinct s t) (w : Word) : AlikeOutcome (writeCmd w s) (writeCmd w t) := by
  unfold Machine.writeCmd
  cases decode w with
  | ok i => exact h.exec i
  | error r =>
    unfold execIllegal
    dsimp only
    cases hb : s.busy with
    | true =>
      rw [← h.outside.busy, hb]
      exact .next h.ignored
    | false =>
      rw [← h.outside.busy, hb]
      exact .next (.of_idle (h.outside.map fun u => reject .cmdIllegal w (clearForIssue u)) hb)

/-- A write of a configuration register: ignored while busy, else taken by both (R35). -/
theorem Indistinct.whenIdle (h : Indistinct s t) {s1 t1 : State} (h1 : SameView s1 t1) (hb : s1.busy = s.busy) :
    Indistinct (whenIdle s s1) (whenIdle t t1) := by
  unfold Machine.whenIdle
  rw [← h.outside.busy]
  cases hs : s.busy with
  | true => exact h.ignored
  | false => exact .of_idle h1 (hb.trans hs)

theorem Indistinct.writeReg (h : Indistinct s t) (r : RegName) (w : Word) : AlikeOutcome (writeReg r w s) (writeReg r w t) := by
  have ho := h.outside
  cases r with
  | cmd => exact h.writeCmd w
  | ctrl => exact .next (h.whenIdle (ho.map fun u => { u with decCeil := w.getLsbD 0, irqEn := w.getLsbD 1 }) rfl)
  | status => exact .next ⟨ho.map (statusClear w), h.live⟩
  | srcAddr => exact .next (h.whenIdle (ho.map fun u => { u with srcAddr := w }) rfl)
  | srcLen => exact .next (h.whenIdle (ho.map fun u => { u with srcLen := w }) rfl)
  | dstAddr => exact .next (h.whenIdle (ho.map fun u => { u with dstAddr := w }) rfl)
  | dstCap => exact .next (h.whenIdle (ho.map fun u => { u with dstCap := w }) rfl)
  | id | errcode | errinfo | inPos | outLen | codeCount | dictNext => exact .next h

/-! ### Turns and steps -/

theorem Indistinct.portWrite (h : Indistinct s t) (width : Nat) (addr data : Word) :
    AlikeOutcome (portWrite width addr data s) (portWrite width addr data t) := by
  unfold Machine.portWrite
  rw [show target s.platform width addr = target t.platform width addr by rw [h.outside.platform]]
  cases target t.platform width addr with
  | reg r => exact (h.answered .written).writeReg r data
  | reserved => exact .next (h.answered _)
  | badAccess => exact .next (h.answered _)
  | outside => exact .refused _

theorem Indistinct.portRead (h : Indistinct s t) (width : Nat) (addr : Word) :
    AlikeOutcome (portRead width addr s) (portRead width addr t) := by
  unfold Machine.portRead
  rw [show target s.platform width addr = target t.platform width addr by rw [h.outside.platform]]
  cases target t.platform width addr with
  | reg r =>
    dsimp only
    rw [h.outside.readReg_eq r]
    exact .next (h.answered _)
  | reserved => exact .next (h.answered _)
  | badAccess => exact .next (h.answered _)
  | outside => exact .refused _

theorem Indistinct.agentLoad (h : Indistinct s t) (a : Nat) : Indistinct (agentLoad a s) (agentLoad a t) := by
  have ho := h.outside
  have hc : (s.busy && windowHas (dstWindow s) a || covers s.unspec a) =
      (t.busy && windowHas (dstWindow t) a || covers t.unspec a) := by
    rw [ho.busy, ho.unspec, show dstWindow s = dstWindow t from (congrArg dstWindow ho :)]
  unfold Machine.agentLoad
  rw [hc]
  split
  · exact ⟨ho.map fun u => { (drawByte u).2 with resp := .byte (drawByte u).1 }, h.live⟩
  · rw [show Memory.read s.mem a = Memory.read t.mem a by rw [ho.mem]]
    exact h.answered _

theorem Indistinct.pollReg (h : Indistinct s t) (r : RegName) (mask value : Word) :
    Indistinct (pollReg r mask value s) (pollReg r mask value t) := by
  unfold Machine.pollReg
  dsimp only
  rw [h.outside.readReg_eq r]
  exact ⟨h.outside.map fun u => { u with
    resp := .data (readReg r t)
    turns := if readReg r t &&& mask = value then u.turns else .engine :: .poll r mask value :: u.turns }, h.live⟩

theorem Indistinct.takeTurn (h : Indistinct s t) (u : Turn) : AlikeOutcome (takeTurn u s) (takeTurn u t) := by
  have ho := h.outside
  cases u with
  | engine => exact h.engineStep
  | reset cut => exact .next (.of_idle ((h.cutStep cut).map resetBlock) rfl)
  | write width addr data => exact h.portWrite width addr data
  | read width addr => exact h.portRead width addr
  | poll r mask value => exact .next (h.pollReg r mask value)
  | memWrite a v =>
    unfold Machine.takeTurn agentWrite
    rw [ho.platform]
    dsimp only
    split
    · exact .refused _
    · exact .next ⟨ho.map (agentStore a.toNat v), h.live⟩
  | memRead a =>
    unfold Machine.takeTurn agentRead
    rw [ho.platform]
    dsimp only
    split
    · exact .refused _
    · exact .next (h.agentLoad a.toNat)
  | busFaults reads writes => exact .next ⟨ho.map (setBusFaults reads writes), h.live⟩

theorem Indistinct.step (h : Indistinct s t) : AlikeOutcome (step s) (step t) := by
  cases hs : s.turns with
  | nil =>
    rw [step_alone hs, step_alone (h.outside.turns ▸ hs)]
    exact h.engineStep
  | cons u us =>
    rw [step_turn hs, step_turn (h.outside.turns ▸ hs)]
    exact Indistinct.takeTurn ⟨h.outside.map fun w => { w with turns := us }, h.live⟩ u

theorem AlikeOutcome.sameOutside {x y : Host.Outcome State Fault Refusal} (h : AlikeOutcome x y) : sameOutside x y := by
  cases h with
  | next h => exact h.outside
  | fault x => rfl
  | refused x => rfl

theorem Indistinct.runSteps (h : Indistinct s t) (n : Nat) : sameOutside (runSteps n s) (runSteps n t) := by
  induction n generalizing s t with
  | zero => exact h.outside
  | succ n ih =>
    generalize hx : Machine.step s = x
    generalize hy : Machine.step t = y
    have hxy : AlikeOutcome x y := hx ▸ hy ▸ h.step
    cases hxy with
    | next h1 =>
      rw [runSteps_succ n hx, runSteps_succ n hy]
      exact ih h1
    | fault f => simp [Machine.runSteps, Host.Core.run, Sys2Proof.core, hx, hy, sameOutside]
    | refused f => simp [Machine.runSteps, Host.Core.run, Sys2Proof.core, hx, hy, sameOutside]

end

/-- Settles O59: idle states with the same view go on alike, since acceptance sets all that the running unit then reads. -/
theorem nothingSurvivesInsideTheBlock : Obligations.NothingSurvivesInsideTheBlock :=
  fun _ _ n hb h => (Indistinct.of_idle h hb).runSteps n

end Sys2Proof.Machine
end

section
/-! The register port (10_state.md R21, R22, R45, R71): what a transaction at an offset reaches, and what a step that takes one
does. -/

namespace Sys2Proof.Machine

/-! ### Targets -/

/-- An offset from LZWC_BASE is found again from the bus address, wherever LZWC_BASE is (R71; log 22). -/
theorem sub_base_offset (p : Platform) {off : Nat} (h : off < 2 ^ 32) :
    (p.base + BitVec.ofNat 32 off - p.base).toNat = off := by
  rw [BitVec.add_comm, BitVec.add_sub_cancel, BitVec.toNat_ofNat, Nat.mod_eq_of_lt h]

theorem target_outside (p : Platform) (width : Nat) {off : Nat} (h : off < 2 ^ 32) (ho : 0x100 ≤ off) :
    target p width (p.base + BitVec.ofNat 32 off) = .outside := by
  unfold target
  dsimp only
  rw [sub_base_offset p h, if_pos ho]

theorem target_badAccess (p : Platform) {width off : Nat} (ho : off < 0x100) (hw : width ≠ 32 ∨ off % 4 ≠ 0) :
    target p width (p.base + BitVec.ofNat 32 off) = .badAccess := by
  unfold target
  dsimp only
  rw [sub_base_offset p (by omega), if_neg (by omega), if_pos hw]

/-- The fourteen registers end at 0x34 (R21). -/
theorem regOffset_le (r : RegName) : regOffset r ≤ 0x34 := by cases r <;> decide

theorem target_reserved (p : Platform) {off : Nat} (ha : off % 4 = 0) (h1 : 0x38 ≤ off) (h2 : off ≤ 0xFC) :
    target p 32 (p.base + BitVec.ofNat 32 off) = .reserved := by
  have hnone : regAt off = none := List.find?_eq_none.2 fun r _ => by
    have := regOffset_le r
    rw [beq_iff_eq]
    omega
  unfold target
  dsimp only
  rw [sub_base_offset p (by omega), if_neg (by omega), if_neg (by omega), hnone]

/-- Only an aligned 32-bit transaction at a register's own address reaches it (R21, R22). -/
theorem target_eq_reg {p : Platform} {width : Nat} {addr : Word} {r : RegName} (h : target p width addr = .reg r) :
    width = 32 ∧ addr = regAddr p r := by
  unfold target at h
  dsimp only at h
  split at h
  · cases h
  · split at h
    · cases h
    · rename_i hw
      split at h
      · rename_i hr
        cases h
        have hoff : regOffset r = (addr - p.base).toNat := by simpa using List.find?_some hr
        refine ⟨by omega, ?_⟩
        rw [regAddr, hoff, BitVec.ofNat_toNat, BitVec.setWidth_eq, BitVec.add_comm, BitVec.sub_add_cancel]
      · cases h

/-! ### Steps that take a transaction -/

/-- A step that takes a write at a register's address is that register's write (R21). -/
theorem step_writes_reg {s : State} {r : RegName} {w : Word} {ts : List Turn}
    (h : s.turns = .write 32 (regAddr s.platform r) w :: ts) :
    step s = writeReg r w { s with turns := ts, resp := .written } := by
  rw [step_turn h, takeTurn, portWrite, target_regAddr]

theorem step_reads_reg {s : State} {r : RegName} {ts : List Turn} (h : s.turns = .read 32 (regAddr s.platform r) :: ts) :
    step s = .next { s with turns := ts, resp := .data (readReg r s) } := by
  rw [step_turn h, takeTurn, portRead, target_regAddr]
  cases r <;> rfl

theorem whenIdle_busy {s : State} (s' : State) (h : s.busy = true) : whenIdle s s' = setIgn s := by simp [whenIdle, h]

theorem whenIdle_idle {s : State} (s' : State) (h : s.busy = false) : whenIdle s s' = s' := by simp [whenIdle, h]

/-- A write of a configuration register while BUSY = 1 only sets IGN (R35). -/
theorem writeReg_config_busy {s : State} {r : RegName} (w : Word) (hb : s.busy = true)
    (hr : r = .ctrl ∨ r = .srcAddr ∨ r = .srcLen ∨ r = .dstAddr ∨ r = .dstCap) : writeReg r w s = .next (setIgn s) := by
  rcases hr with rfl | rfl | rfl | rfl | rfl <;> exact congrArg _ (whenIdle_busy _ hb)

/-- A register-port write that answers a next state writes the register at its address, or changes nothing but the answer. -/
theorem portWrite_reg {width : Nat} {addr data : Word} {s t : State} (h : portWrite width addr data s = .next t) :
    (∃ r, width = 32 ∧ addr = regAddr s.platform r ∧ writeReg r data { s with resp := .written } = .next t) ∨
      ∃ q, t = { s with resp := q } := by
  unfold portWrite at h
  split at h
  · rename_i r hr
    obtain ⟨hw, ha⟩ := target_eq_reg hr
    exact .inl ⟨r, hw, ha, h⟩
  · cases h
    exact .inr ⟨_, rfl⟩
  · cases h
    exact .inr ⟨_, rfl⟩
  · cases h

/-! ### Fields of register words -/

theorem getLsbD_bitAt (b : Bool) (i j : Nat) : (bitAt b i).getLsbD j = (decide (j < 32) && decide (j = i) && b) := by
  unfold bitAt
  rw [BitVec.getLsbD_shiftLeft, BitVec.zeroExtend, BitVec.getLsbD_setWidth, BitVec.getLsbD_ofBool]
  rcases Nat.lt_trichotomy j i with h | rfl | h
  · simp [h, Nat.ne_of_lt h]
  · simp
  · simp [show j - i ≠ 0 by omega, show j ≠ i by omega]

theorem getLsbD_statusWord (s : State) (i : Nat) :
    (statusWord s).getLsbD i = (decide (i < 32) &&
      ((i = 0 && s.busy) || (i = 1 && s.done) || (i = 2 && s.err) || (i = 3 && s.ign) || (i = 4 && s.mode.bit))) := by
  simp only [statusWord, BitVec.getLsbD_or, getLsbD_bitAt, Bool.and_assoc, Bool.and_or_distrib_left]

theorem getLsbD_ctrlWord (s : State) (i : Nat) :
    (ctrlWord s).getLsbD i = (decide (i < 32) && ((i = 0 && s.decCeil) || (i = 1 && s.irqEn))) := by
  simp only [ctrlWord, BitVec.getLsbD_or, getLsbD_bitAt, Bool.and_assoc, Bool.and_or_distrib_left]

theorem Mode.bit_eq_true (m : Mode) : m.bit = true ↔ m = .decode := by cases m <;> simp [Mode.bit]

/-! ### The statements -/

/-- Settles O8: the step takes the write to CMD, and the decoder picks the command. -/
theorem stepRunsTheDecodedCommand : Obligations.StepRunsTheDecodedCommand := by
  have run : ∀ (s : State) (w : Word) (i : Instr) (ts : List Turn), s.turns = .write 32 (regAddr s.platform .cmd) w :: ts →
      decode w = .ok i → step s = exec i { s with turns := ts, resp := .written } := by
    intro s w i ts ht hd
    rw [step_writes_reg ht, writeReg, writeCmd, hd]
  have code : ∀ i : Instr, decode (BitVec.ofNat 32 ((encode i).toNat % 2 ^ 32)) = .ok i := by
    intro i
    cases i <;> decide
  refine ⟨run, fun s i _ => ⟨?_, run (s.withFetchWord 32 (encode i).toNat) _ i s.turns rfl (code i)⟩⟩
  rw [decodeTableWord, if_pos (Nat.le_refl 32), code i]
  rfl

/-- Settles O19: a STATUS write is `statusClear` on the flags; under the invariant DONE and ERR are 0 while BUSY = 1. -/
theorem statusWriteClearsByOnes : Obligations.StatusWriteClearsByOnes := by
  intro s w ts ht
  refine ⟨statusClear w { s with turns := ts, resp := .written }, by rw [step_writes_reg ht, writeReg], rfl, ?_, ?_, ?_, ?_⟩
  · simp [statusClear]
  · simp [statusClear]
  · simp [statusClear]
  · intro hi hb
    obtain ⟨hd, he, -, -⟩ := (hi.busy_inv hb).no_report
    simp [statusClear, hd, he]

/-- Settles O20: each flag stands at its own bit, and a concatenation reads as its parts. -/
theorem fieldedRegistersReadTheirFields : Obligations.FieldedRegistersReadTheirFields := by
  intro s
  refine ⟨⟨(getLsbD_statusWord s 0).trans (by simp), (getLsbD_statusWord s 1).trans (by simp),
      (getLsbD_statusWord s 2).trans (by simp), (getLsbD_statusWord s 3).trans (by simp), ?_, fun i hi => ?_⟩,
    ⟨(getLsbD_ctrlWord s 0).trans (by simp), (getLsbD_ctrlWord s 1).trans (by simp), fun i hi => ?_⟩,
    ⟨?_, ?_, fun i hi => ?_⟩, ?_, fun i hi => ?_⟩
  · exact Iff.trans (by rw [readReg, getLsbD_statusWord]; simp) (Mode.bit_eq_true s.mode)
  · rw [readReg, getLsbD_statusWord]
    simp [show i ≠ 0 by omega, show i ≠ 1 by omega, show i ≠ 2 by omega, show i ≠ 3 by omega, show i ≠ 4 by omega]
  · rw [readReg, getLsbD_ctrlWord]
    simp [show i ≠ 0 by omega, show i ≠ 1 by omega]
  · show (errCodeWord s.cause).extractLsb' 0 8 = _
    cases s.cause <;> rfl
  · show (errCodeWord s.cause).extractLsb' 8 2 = _
    cases s.cause <;> rfl
  · rw [readReg, errCodeWord, BitVec.zeroExtend, BitVec.getLsbD_setWidth, BitVec.getLsbD_of_ge _ _ hi, Bool.and_false]
  · rw [readReg, BitVec.zeroExtend, BitVec.toNat_setWidth_of_le (by decide)]
  · rw [readReg, BitVec.zeroExtend, BitVec.getLsbD_setWidth, BitVec.getLsbD_of_ge _ _ hi, Bool.and_false]

/-- Settles O22: no register lies above 0x34, and the port answers a reserved offset itself. -/
theorem reservedOffsetsReadZeroAndIgnoreWrites : Obligations.ReservedOffsetsReadZeroAndIgnoreWrites := by
  intro s off w ts ha h1 h2
  refine ⟨fun ht => ?_, fun ht => ?_⟩
  · rw [step_turn ht, takeTurn, portRead, target_reserved _ ha h1 h2]
  · rw [step_turn ht, takeTurn, portWrite, target_reserved _ ha h1 h2]

/-- Settles O23: a read-only register has no write. -/
theorem readOnlyRegistersIgnoreWrites : Obligations.ReadOnlyRegistersIgnoreWrites := by
  intro s r w ts hr ht
  rw [step_writes_reg ht]
  rcases hr with rfl | rfl | rfl | rfl | rfl | rfl | rfl <;> rfl

/-- Settles O24: the port looks at the offset first, then at width and alignment. -/
theorem registerAccessesAreWholeAlignedWords : Obligations.RegisterAccessesAreWholeAlignedWords := by
  refine ⟨fun s width off w ts ho ht => ?_, fun s r ts ht => step_reads_reg ht⟩
  rcases ht with ht | ht <;> rw [step_turn ht, takeTurn]
  · exact ⟨fun hin hbad => by rw [portRead, target_badAccess _ hin hbad],
      fun hout => by rw [portRead, target_outside _ _ ho hout]⟩
  · exact ⟨fun hin hbad => by rw [portWrite, target_badAccess _ hin hbad],
      fun hout => by rw [portWrite, target_outside _ _ ho hout]⟩

end Sys2Proof.Machine
end

section
/-! What the engine's move can do (10_state.md R44, 40_commands.md R130): the progress that every piece of a step makes, however it
ends, and the three ways in which a step of a running operation leaves the machine. -/

namespace Sys2Proof.Machine

/-! ### Progress -/

/-- From `s` to `t` a piece of a step has changed counters, the engine's internal state, memory and the count of free values only;
memory stays canonical and DICT_NEXT in its range (R39, R72). -/
structure Progress (s t : State) : Prop where
  same : setting t = { setting s with freeCount := t.freeCount }
  mem_wf : Memory.wf s.mem → Memory.wf t.mem
  next_le : s.dictNext.toNat ≤ Config.decDictCodes → t.dictNext.toNat ≤ Config.decDictCodes

/-- A piece of a step from `s` that makes progress, also where it raises, which it does with a cause (R12, R216). -/
inductive Res.Progress (s : State) {α : Type} : Res α → Prop where
  | ok (v : α) {t : State} (h : Machine.Progress s t) : Res.Progress s (.ok v t)
  | raise (i : Word) {c : Cause} {t : State} (hc : c ≠ .none) (h : Machine.Progress s t) : Res.Progress s (.raise c i t)
  | stuck (x : Fault) : Res.Progress s (.stuck x)

section
variable {s t u : State}

namespace Progress

theorem refl (s : State) : Progress s s := ⟨rfl, id, id⟩

theorem trans (h : Progress s t) (g : Progress t u) : Progress s u :=
  ⟨by rw [g.same, h.same], g.mem_wf ∘ h.mem_wf, g.next_le ∘ h.next_le⟩

theorem busy (h : Progress s t) : t.busy = s.busy := (congrArg State.busy h.same :)
theorem done (h : Progress s t) : t.done = s.done := (congrArg State.done h.same :)
theorem err (h : Progress s t) : t.err = s.err := (congrArg State.err h.same :)
theorem ign (h : Progress s t) : t.ign = s.ign := (congrArg State.ign h.same :)
theorem mode (h : Progress s t) : t.mode = s.mode := (congrArg State.mode h.same :)
theorem cause (h : Progress s t) : t.cause = s.cause := (congrArg State.cause h.same :)
theorem errInfo (h : Progress s t) : t.errInfo = s.errInfo := (congrArg State.errInfo h.same :)
theorem decCeil (h : Progress s t) : t.decCeil = s.decCeil := (congrArg State.decCeil h.same :)
theorem irqEn (h : Progress s t) : t.irqEn = s.irqEn := (congrArg State.irqEn h.same :)
theorem srcAddr (h : Progress s t) : t.srcAddr = s.srcAddr := (congrArg State.srcAddr h.same :)
theorem srcLen (h : Progress s t) : t.srcLen = s.srcLen := (congrArg State.srcLen h.same :)
theorem dstAddr (h : Progress s t) : t.dstAddr = s.dstAddr := (congrArg State.dstAddr h.same :)
theorem dstCap (h : Progress s t) : t.dstCap = s.dstCap := (congrArg State.dstCap h.same :)

theorem rangeCheck_eq (h : Progress s t) : rangeCheck t = rangeCheck s := (congrArg rangeCheck h.same :)

theorem onDevice_eq (h : Progress s t) : onDevice t = onDevice s := (congrArg onDevice h.same :)

end Progress

theorem Res.Progress.bind {α β : Type} {r : Res α} {f : α → State → Res β} (h : Res.Progress s r)
    (hf : ∀ v t, Res.Progress t (f v t)) : Res.Progress s (r.bind f) := by
  cases h with
  | @ok v t h =>
    have hq := hf v t
    rw [Res.bind_ok]
    generalize f v t = q at hq
    cases hq with
    | ok w g => exact .ok w (h.trans g)
    | raise i hc g => exact .raise i hc (h.trans g)
    | stuck x => exact .stuck x
  | raise i hc h => exact .raise i hc h
  | stuck x => exact .stuck x

theorem Res.Progress.of_ok {α : Type} {v : α} (h : Res.Progress s (.ok v t)) : Machine.Progress s t := by
  cases h
  assumption

end

/-! ### The pieces -/

theorem memRead_progress (a : Nat) (i : Word) (s : State) : Res.Progress s (memRead a i s) := by
  unfold memRead
  split
  · exact .stuck _
  · split
    · exact .raise _ nofun (.refl s)
    · split
      · exact .ok _ ⟨rfl, id, id⟩
      · exact .ok _ (.refl s)

theorem memWrite_progress (a : Nat) (i : Word) (v : Byte) (s : State) : Res.Progress s (memWrite a i v s) := by
  unfold memWrite
  split
  · exact .stuck _
  · rename_i ha
    split
    · exact .raise _ nofun (.refl s)
    · exact .ok _ ⟨rfl, Memory.wf_write (Nat.lt_of_not_le ha), id⟩

theorem putBytes_progress (bs : List Byte) (s : State) : Res.Progress s (putBytes bs s) := by
  induction bs generalizing s with
  | nil => exact .ok _ (.refl s)
  | cons b bs ih =>
    refine (memWrite_progress _ _ _ _).bind fun _ t => ?_
    have advance : Res.Progress t (.ok () { t with outLen := t.outLen + 1 }) := .ok _ ⟨rfl, id, id⟩
    exact advance.bind fun _ u => ih u

theorem readSymbol_progress (s : State) : Res.Progress s (readSymbol s) :=
  (memRead_progress _ _ s).bind fun b _ => .ok b ⟨rfl, id, id⟩

theorem readCode_progress (s : State) : Res.Progress s (readCode s) :=
  (readSymbol_progress s).bind fun _ t => (readSymbol_progress t).bind fun _ u => .ok _ (.refl u)

theorem emitCode_progress (c : Nat) (s : State) : Res.Progress s (emitCode c s) := by
  unfold emitCode
  split
  · exact .raise _ nofun (.refl s)
  · exact (putBytes_progress _ s).bind fun _ _ => .ok _ ⟨rfl, id, id⟩

theorem enterE_progress (p : Nat) (b : Byte) (s : State) : Progress s (enterE p b s) := by
  rcases enterE_cases p b s with ⟨hle, h⟩ | ⟨-, h⟩ <;> rw [h]
  · refine ⟨rfl, id, fun _ => ?_⟩
    dsimp only
    rw [toNat_succ_of_le_maxTableSize hle]
    exact Nat.le_trans (Nat.succ_le_succ hle) (by decide)
  · exact .refl s

theorem encSymbol_progress (b : Byte) (s : State) : Res.Progress s (encSymbol b s) := by
  unfold encSymbol
  split
  · exact .ok _ ⟨rfl, id, id⟩
  · rename_i p _
    split
    · exact .ok _ ⟨rfl, id, id⟩
    · refine (emitCode_progress p s).bind fun _ t => .ok _ ?_
      obtain ⟨hs, hm, hn⟩ := enterE_progress p b t
      exact ⟨hs, hm, hn⟩

/-- A code resolves to an error only as a first code or as an unknown one (R183, R186). -/
theorem resolve_eq_error {c : Nat} {s : State} {k : Cause} (h : resolve c s = .error k) :
    k = .decFirstCode ∨ k = .decUnknownCode := by
  have known : ∀ t, resolvedOf t ≠ .error k := by
    intro t
    cases t <;> exact nofun
  unfold resolve at h
  split at h
  · split at h
    · cases h
      exact .inl rfl
    · cases h
  · split at h
    · exact absurd h (known _)
    · split at h
      · exact absurd h (known _)
      · cases h
        exact .inr rfl

theorem resolvedOf_eq_str {t : Option Str} {w : Str} (h : resolvedOf t = .str w) : t = some w := by
  cases t with
  | none => cases h
  | some v =>
    cases h
    rfl

theorem resolvedOf_eq_dead {t : Option Str} (h : resolvedOf t = .dead) : t = none := by
  cases t with
  | none => rfl
  | some v => cases h

/-- A code resolves to a string as a first code, as a known one, or as the special case (R183 to R185). -/
theorem resolve_eq_str {c : Nat} {s : State} {w : Str} (h : resolve c s = .str w) :
    (s.prev = none ∧ c < Config.seedCount) ∨
      (∃ p, s.prev = some p ∧ c < s.dictNext.toNat ∧ s.dd.str s.dictNext.toNat c = some w) ∨
      ∃ p, s.prev = some p ∧ c = s.dictNext.toNat ∧ addOkD s.decCeil s.dictNext.toNat = true := by
  unfold resolve at h
  split at h
  · rename_i hp
    split at h
    · cases h
    · exact .inl ⟨hp, by omega⟩
  · rename_i p hp
    split at h
    · rename_i hc
      exact .inr (.inl ⟨p, hp, hc, resolvedOf_eq_str h⟩)
    · split at h
      · rename_i hc
        exact .inr (.inr ⟨p, hp, hc⟩)
      · cases h

/-- A code is dead only where a valid code has no string: the code itself, or e.prev in the special case (log 14). -/
theorem resolve_eq_dead {c : Nat} {s : State} (h : resolve c s = .dead) :
    (c < s.dictNext.toNat ∧ s.dd.str s.dictNext.toNat c = none) ∨
      ∃ p, s.prev = some p ∧ s.dd.str s.dictNext.toNat p = none := by
  unfold resolve at h
  split at h
  · split at h <;> cases h
  · rename_i p hp
    split at h
    · rename_i hc
      exact .inl ⟨hc, resolvedOf_eq_dead h⟩
    · split at h
      · exact .inr ⟨p, hp, Option.map_eq_none_iff.1 (resolvedOf_eq_dead h)⟩
      · cases h

theorem putString_progress (bs : List Byte) (s : State) : Res.Progress s (putString bs s) := by
  unfold putString
  split
  · exact .raise _ nofun (.refl s)
  · exact putBytes_progress bs s

theorem next_lt_of_addOkD {decCeil : Bool} {next : Nat} (h : addOkD decCeil next = true) : next < Config.decDictCodes := by
  unfold addOkD at h
  split at h <;> exact Nat.lt_of_le_of_lt (of_decide_eq_true h) (by decide)

theorem enterD_progress (b : Byte) (s : State) : Progress s (enterD b s) := by
  rcases enterD_cases b s with ⟨p, -, ho, h⟩ | ⟨-, h⟩ <;> rw [h]
  · refine ⟨rfl, id, fun _ => ?_⟩
    dsimp only
    rw [toNat_succ_of_addOkD ho]
    exact next_lt_of_addOkD ho
  · exact .refl s

theorem decCode_progress (c : Nat) (s : State) : Res.Progress s (decCode c s) := by
  unfold decCode
  split
  · rename_i k hr
    refine .raise _ ?_ (.refl s)
    rcases resolve_eq_error hr with rfl | rfl <;> exact nofun
  · exact .stuck _
  · rename_i w _
    refine (putString_progress _ s).bind fun _ t => .ok _ ?_
    obtain ⟨hs, hm, hn⟩ := enterD_progress w.first t
    exact ⟨hs, hm, hn⟩

/-! ### The step of a running operation -/

/-- How the enabled step ends: it goes on, completes, raises with a cause, or stops the machine; all but the completion is
progress (R130, R214). -/
inductive StepEnd (s : State) : Res Unit → Prop where
  | goesOn {t : State} (h : Progress s t) : StepEnd s (.ok () t)
  | completes {t : State} (h : Progress s t) : StepEnd s (.ok () (completeOk t))
  | raises (i : Word) {c : Cause} {t : State} (hc : c ≠ .none) (h : Progress s t) : StepEnd s (.raise c i t)
  | stops (x : Fault) : StepEnd s (.stuck x)

theorem Res.Progress.stepEnd {s : State} {r : Res Unit} (h : Res.Progress s r) : StepEnd s r := by
  cases h with
  | ok v h => exact .goesOn h
  | raise i hc h => exact .raises i hc h
  | stuck x => exact .stops x

theorem Res.Progress.then_completes {s : State} {α : Type} {r : Res α} (h : Res.Progress s r) :
    StepEnd s (r.bind fun _ t => .ok () (completeOk t)) := by
  cases h with
  | ok v h => exact .completes h
  | raise i hc h => exact .raises i hc h
  | stuck x => exact .stops x

theorem enabledStep_end (s : State) : StepEnd s (enabledStep s) := by
  unfold enabledStep
  split
  · split
    · exact ((readSymbol_progress s).bind encSymbol_progress).stepEnd
    · unfold encFlushStep
      split
      · exact .completes (.refl s)
      · exact (emitCode_progress _ s).then_completes
  · split
    · exact ((readCode_progress s).bind decCode_progress).stepEnd
    · split
      · exact (readSymbol_progress s).then_completes
      · exact .completes (.refl s)

/-- A move of the engine that answers a next state: none while idle; else the operation goes on, completes, or completes with an
error. -/
theorem engineStep_next {s t : State} (h : engineStep s = .next t) :
    (s.busy = false ∧ t = s) ∨
      s.busy = true ∧ ((enabledStep s = .ok () t ∧ Progress s t) ∨ (∃ u, Progress s u ∧ t = completeOk u) ∨
        ∃ c i u, Progress s u ∧ c ≠ .none ∧ t = completeError c i u) := by
  cases hb : s.busy with
  | false =>
    rw [engineStep_idle hb] at h
    cases h
    exact .inl ⟨rfl, rfl⟩
  | true =>
    rw [engineStep_busy hb] at h
    refine .inr ⟨rfl, ?_⟩
    have hend := enabledStep_end s
    generalize enabledStep s = r at h hend
    cases hend with
    | goesOn hp =>
      cases h
      exact .inl ⟨rfl, hp⟩
    | completes hp =>
      cases h
      exact .inr (.inl ⟨_, hp, rfl⟩)
    | raises i hc hp =>
      cases h
      exact .inr (.inr ⟨_, _, _, hp, hc, rfl⟩)
    | stops x => cases h

/-- The engine's move leaves the five configuration registers as they are (R35). -/
theorem engineStep_keeps_config {s t : State} (h : engineStep s = .next t) :
    t.decCeil = s.decCeil ∧ t.irqEn = s.irqEn ∧ t.srcAddr = s.srcAddr ∧ t.srcLen = s.srcLen ∧ t.dstAddr = s.dstAddr ∧
      t.dstCap = s.dstCap := by
  have key : ∀ {u}, Progress s u → u.decCeil = s.decCeil ∧ u.irqEn = s.irqEn ∧ u.srcAddr = s.srcAddr ∧
      u.srcLen = s.srcLen ∧ u.dstAddr = s.dstAddr ∧ u.dstCap = s.dstCap :=
    fun hp => ⟨hp.decCeil, hp.irqEn, hp.srcAddr, hp.srcLen, hp.dstAddr, hp.dstCap⟩
  rcases engineStep_next h with ⟨-, rfl⟩ | ⟨-, ⟨-, hp⟩ | ⟨u, hp, rfl⟩ | ⟨c, i, u, hp, -, rfl⟩⟩
  · exact key (.refl _)
  · exact key hp
  · exact (key hp :)
  · exact (key hp :)

/-! ### The statements -/

/-- Settles O9: with none pending or at its turn the engine moves, and the enabled step is read off MODE, IN_POS and SRC_LEN. -/
theorem theEngineTakesItsEnabledStep : Obligations.TheEngineTakesItsEnabledStep := by
  refine ⟨fun s ts ht => by rw [step_turn ht, takeTurn], fun s ht => step_alone ht, fun s => ⟨engineStep_idle, ?_⟩⟩
  refine ⟨fun hb hm hp => ?_, fun hb hm hp => ?_, fun hb hm hp => ?_, fun hb hm hp => ?_, fun hb hm hp => ?_⟩
  all_goals
    rw [engineStep_busy hb, enabledStep, hm]
    dsimp only
  · rw [if_pos hp]
  · rw [if_neg (Nat.not_lt.2 hp)]
  · rw [if_pos (by omega)]
  · rw [if_neg (by omega), if_pos (by omega)]
  · rw [if_neg (by omega), if_neg (by omega)]

/-- Settles O18: the port ignores the write while BUSY = 1, takes it else, and no step's progress reaches the five registers. -/
theorem configurationIsFrozenWhileBusy : Obligations.ConfigurationIsFrozenWhileBusy := by
  refine ⟨fun s r w ts hb hr ht => ?_, fun s w ts hb => ?_, fun s t => engineStep_keeps_config⟩
  · rw [step_writes_reg ht, writeReg_config_busy w (s := { s with turns := ts, resp := .written }) hb hr, setIgn]
  · have take : ∀ {u : State}, whenIdle { s with turns := ts, resp := .written } u = u := whenIdle_idle _ hb
    refine ⟨fun ht => ?_, fun ht => ?_, fun ht => ?_, fun ht => ?_, fun ht => ?_⟩ <;>
      rw [step_writes_reg ht] <;> exact congrArg _ take

end Sys2Proof.Machine
end

section
/-! The invariant of the machine (10_state.md R39, R41, R42, R47 to R49): each step of a running operation keeps the running unit's
part, every other step leaves it alone or the machine idle, and from it no step faults. -/

namespace Sys2Proof.Machine

/-! ### The dictionaries -/

/-- No two valid entries are equal (R160). -/
def Dict.Distinct (d : Dict) (next : Nat) : Prop :=
  ∀ j k, Config.seedCount ≤ j → j < next → Config.seedCount ≤ k → k < next → d.get? j = d.get? k → j = k

theorem find_eq_some {d : Dict} {next p k : Nat} {b : Byte} (h : find d next p b = some k) : k < next := by
  have := List.mem_range'_1.1 (List.mem_of_find?_eq_some h)
  omega

theorem find_eq_none {d : Dict} {next p : Nat} {b : Byte} (h : find d next p b = none) {k : Nat} (hk : Config.seedCount ≤ k)
    (hn : k < next) : d.get? k ≠ some ⟨p, b⟩ := by
  simpa using List.find?_eq_none.1 h k (List.mem_range'_1.2 ⟨hk, by omega⟩)

/-- An entry that lookup does not find is new (R154, R160). -/
theorem Dict.Distinct.put {d : Dict} {next p : Nat} {b : Byte} (h : d.Distinct next) (hf : find d next p b = none) :
    (d.put next ⟨p, b⟩).Distinct (next + 1) := by
  intro j k hj hjn hk hkn he
  rw [Dict.get?_put, Dict.get?_put] at he
  split at he <;> split at he
  · omega
  · exact absurd he.symm (find_eq_none hf hk (by omega))
  · exact absurd he (find_eq_none hf hj (by omega))
  · exact h j k hj (by omega) hk (by omega) he

/-- Every valid code has a string: one byte for a seed, at most k - 254 bytes for a learned code k (R52, R197). -/
theorem Dict.Ranked.str_bounded {d : Dict} {next : Nat} (h : d.Ranked next) {k : Nat} (hk : k < next) :
    ∃ w, d.str next k = some w ∧ w.bytes.length ≤ if k < 256 then 1 else k - 254 := by
  induction k using Nat.strong_induction_on with
  | _ k ih =>
    by_cases hs : k < 256
    · exact ⟨_, Dict.str_seed d next hs, by rw [if_pos hs]; exact Nat.le_refl 1⟩
    · have hge : Config.seedCount ≤ k := Nat.not_lt.1 hs
      obtain ⟨e, he, hlt⟩ := h k hge hk
      obtain ⟨w, hw, hlen⟩ := ih e.parent hlt (by omega)
      refine ⟨w.snoc e.sym, by rw [h.str_learned hge hk he, hw]; rfl, ?_⟩
      rw [Str.bytes_snoc, List.length_append, List.length_singleton, if_neg hs]
      split at hlen <;> omega

/-! ### What the writing pieces change -/

/-- An emission that succeeds changes memory, OUT_LEN by 2 within DST_CAP, and CODE_COUNT by 1 (R157). -/
theorem emitCode_counts {c : Nat} {s t : State} {u : Unit} (h : emitCode c s = .ok u t)
    (hc : s.codeCount.toNat + 1 < 2 ^ 32) :
    ∃ mem unspec out count, t = { s with mem := mem, unspec := unspec, outLen := out, codeCount := count } ∧
      out.toNat = s.outLen.toNat + 2 ∧ out.toNat ≤ s.dstCap.toNat ∧ count.toNat = s.codeCount.toNat + 1 := by
  obtain ⟨hroom, s1, h1, rfl⟩ := emitCode_ok h
  have hcap := s.dstCap.isLt
  obtain ⟨hlen, -, -⟩ := putBytes_ok h1 (by rw [pack1_length]; omega)
  have hframe := putBytes_frame h1
  rw [pack1_length] at hlen
  exact ⟨_, _, s1.outLen, s.codeCount + 1, by rw [hframe], hlen, hlen.trans_le hroom, toNat_succ hc (by decide)⟩

/-- A decoded string that is written changes memory, and OUT_LEN within DST_CAP (R188). -/
theorem putString_counts {bs : List Byte} {s t : State} {u : Unit} (h : putString bs s = .ok u t) :
    ∃ mem unspec out, t = { s with mem := mem, unspec := unspec, outLen := out } ∧ out.toNat ≤ s.dstCap.toNat := by
  obtain ⟨hroom, h1⟩ := putString_ok h
  have hcap := s.dstCap.isLt
  obtain ⟨hlen, -, -⟩ := putBytes_ok h1 (by omega)
  exact ⟨_, _, _, putBytes_frame h1, hlen.trans_le hroom⟩

/-- The growth of ED keeps what the invariant says of it (R41, R155, R160). -/
theorem enterE_keeps {s : State} {p : Nat} {b : Byte} (hr : s.ed.Ranked s.dictNext.toNat)
    (hd : s.ed.Distinct s.dictNext.toNat) (hn : s.dictNext.toNat ≤ Config.encMaxCode + 1) (hp : p < s.dictNext.toNat)
    (hf : find s.ed s.dictNext.toNat p b = none) :
    ∃ d n, enterE p b s = { s with ed := d, dictNext := n } ∧ d.Ranked n.toNat ∧ d.Distinct n.toNat ∧
      n.toNat ≤ Config.encMaxCode + 1 ∧ s.dictNext.toNat ≤ n.toNat ∧ n.toNat ≤ s.dictNext.toNat + 1 := by
  rcases enterE_cases p b s with ⟨hle, h⟩ | ⟨-, h⟩
  · refine ⟨_, _, h, ?_⟩
    rw [toNat_succ_of_le_maxTableSize hle]
    exact ⟨hr.put b hp, hd.put hf, Nat.succ_le_succ hle, Nat.le_succ _, Nat.le_refl _⟩
  · exact ⟨_, _, h, hr, hd, hn, Nat.le_refl _, Nat.le_succ _⟩

/-- The bound that DEC_CEIL puts on DICT_NEXT in decode mode (R39). -/
abbrev decNextMax (decCeil : Bool) : Nat := if decCeil then Config.encMaxCode + 1 else Config.decDictCodes

theorem succ_le_decNextMax {decCeil : Bool} {next : Nat} (h : addOkD decCeil next = true) : next + 1 ≤ decNextMax decCeil := by
  cases decCeil with
  | true => exact Nat.succ_le_succ (of_decide_eq_true h)
  | false => exact Nat.succ_le_of_lt (next_lt_of_addOkD h)

/-- The growth of DD keeps what the invariant says of it, and happens after a first code wherever it is allowed (R42, R187). -/
theorem enterD_keeps {s : State} (b : Byte) (hr : s.dd.Ranked s.dictNext.toNat)
    (hn : s.dictNext.toNat ≤ decNextMax s.decCeil) (hp : ∀ p, s.prev = some p → p < s.dictNext.toNat) :
    ∃ d n, enterD b s = { s with dd := d, dictNext := n } ∧ d.Ranked n.toNat ∧ n.toNat ≤ decNextMax s.decCeil ∧
      s.dictNext.toNat ≤ n.toNat ∧ n.toNat ≤ s.dictNext.toNat + 1 ∧
      (s.prev ≠ none → addOkD s.decCeil s.dictNext.toNat = true → s.dictNext.toNat < n.toNat) := by
  rcases enterD_cases b s with ⟨p, hprev, ho, h⟩ | ⟨hno, h⟩
  · refine ⟨_, _, h, ?_⟩
    rw [toNat_succ_of_addOkD ho]
    exact ⟨hr.put b (hp p hprev), succ_le_decNextMax ho, Nat.le_succ _, Nat.le_refl _, fun _ _ => Nat.lt_succ_self _⟩
  · refine ⟨_, _, h, hr, hn, Nat.le_refl _, Nat.le_succ _, fun hprev ho => ?_⟩
    rcases hno with hno | hno
    · exact absurd hno hprev
    · rw [ho] at hno
      cases hno

/-! ### The engine's steps -/

/-- The invariant of a running operation after progress: what is left to show is about its counters and its unit. -/
theorem BusyInv.progress {s t : State} (h : BusyInv s) (hp : Progress s t) (hin : t.inPos.toNat ≤ s.srcLen.toNat)
    (hout : t.outLen.toNat ≤ s.dstCap.toNat) (hge : s.dictNext.toNat ≤ t.dictNext.toNat)
    (hcount : t.dictNext.toNat - Config.seedCount ≤ t.codeCount.toNat) (henc : s.mode = .encode → EncInv t)
    (hdec : s.mode = .decode → DecInv t) : BusyInv t where
  no_report := by
    rw [hp.done, hp.err, hp.cause, hp.errInfo]
    exact h.no_report
  range_ok := hp.rangeCheck_eq.trans h.range_ok
  off_device := hp.onDevice_eq.trans h.off_device
  in_pos_le := hp.srcLen ▸ hin
  out_len_le := hp.dstCap ▸ hout
  next_ge := Nat.le_trans h.next_ge hge
  next_count := hcount
  enc := hp.mode ▸ henc
  dec := hp.mode ▸ hdec

/-- A symbol that starts or extends the current string takes the input one further (R154). -/
theorem EncInv.with_cur {s : State} (h : EncInv s) {pos : Word} {free c : Nat} (hc : c < s.dictNext.toNat)
    (hpos : s.codeCount.toNat + 1 ≤ pos.toNat) : EncInv { s with inPos := pos, freeCount := free, cur := some c } :=
  ⟨h.out_len, h.next_le, h.parents, h.unique, .inr ⟨c, rfl, hc, hpos⟩⟩

theorem EncInv.no_code {s : State} (h : EncInv s) (hc : s.cur = none) : s.codeCount.toNat = 0 := by
  rcases h.cur_ok with ⟨-, -, h0⟩ | ⟨c, hc', -⟩
  · rw [h0]
    rfl
  · rw [hc] at hc'
    cases hc'

theorem EncInv.cur_valid {s : State} (h : EncInv s) {p : Nat} (hc : s.cur = some p) :
    p < s.dictNext.toNat ∧ s.codeCount.toNat + 1 ≤ s.inPos.toNat := by
  rcases h.cur_ok with ⟨hc', -⟩ | ⟨c, hc', hv⟩
  · rw [hc] at hc'
    cases hc'
  · rw [hc] at hc'
    cases hc'
    exact hv

/-- A symbol step keeps the invariant: it starts, extends, or emits and grows ED (R154). -/
theorem BusyInv.encSymbolStep {s t : State} (h : BusyInv s) (hm : s.mode = .encode) (hlt : s.inPos.toNat < s.srcLen.toNat)
    (ht : encSymbolStep s = .ok () t) (hp : Progress s t) : BusyInv t := by
  obtain ⟨b, s1, h1, h2⟩ := Res.bind_eq_ok ht
  obtain ⟨-, e1⟩ := readSymbol_ok h1
  generalize s1.freeCount = f at e1
  subst e1
  have he := h.enc hm
  have hlen := s.srcLen.isLt
  have hcount := Nat.sub_le_iff_le_add.1 h.next_count
  have hpos : (s.inPos + 1).toNat = s.inPos.toNat + 1 := toNat_succ (by omega) (by decide)
  have hin : (s.inPos + 1).toNat ≤ s.srcLen.toNat := by omega
  have hseed : b.toNat < s.dictNext.toNat := Nat.lt_of_lt_of_le b.isLt h.next_ge
  have nodec : s.mode = .decode → DecInv t := fun hd => by rw [hm] at hd; cases hd
  rcases encSymbol_ok h2 with ⟨hc, rfl⟩ | ⟨p, k, hc, hf, rfl⟩ | ⟨p, s2, hc, hf, h3, rfl⟩
  · have hzero := he.no_code hc
    exact h.progress hp hin h.out_len_le (Nat.le_refl _) h.next_count
      (fun _ => he.with_cur (pos := s.inPos + 1) hseed (by omega)) nodec
  · obtain ⟨-, hle⟩ := he.cur_valid hc
    exact h.progress hp hin h.out_len_le (Nat.le_refl _) h.next_count
      (fun _ => he.with_cur (pos := s.inPos + 1) (find_eq_some hf) (by omega)) nodec
  · obtain ⟨hpv, hle⟩ := he.cur_valid hc
    obtain ⟨m, w, out, count, rfl, hout, hcap, hcodes⟩ := emitCode_counts h3 (by dsimp only; omega)
    dsimp only at hout hcap hcodes
    obtain ⟨d, n, hent, hr, hd, hmax, hge, hle1⟩ := enterE_keeps (s := { s with
      inPos := s.inPos + 1, freeCount := f, mem := m, unspec := w, outLen := out, codeCount := count })
      he.parents he.unique he.next_le hpv hf
    dsimp only at hge hle1
    have hnext := Nat.sub_le_iff_le_add.2 (show n.toNat ≤ count.toNat + Config.seedCount by omega)
    rw [hent] at hp nodec ⊢
    refine h.progress hp hin hcap hge hnext (fun _ => ?_) nodec
    have hcur : b.toNat < n.toNat ∧ count.toNat + 1 ≤ (s.inPos + 1).toNat := by omega
    have hlen2 : out.toNat = 2 * count.toNat := by
      have := he.out_len
      omega
    exact ⟨hlen2, hmax, hr, hd, .inr ⟨_, rfl, hcur⟩⟩

theorem DecInv.prev_valid {s : State} (h : DecInv s) {p : Nat} (hp : s.prev = some p) : p < s.dictNext.toNat := by
  rcases h.prev_ok with ⟨hp', -⟩ | ⟨c, hp', hv, -⟩
  · rw [hp] at hp'
    cases hp'
  · rw [hp] at hp'
    cases hp'
    exact hv

/-- A code step keeps the invariant: the code it took is valid then, the special case because DD has just grown (R182, R185). -/
theorem BusyInv.decCodeStep {s t : State} (h : BusyInv s) (hm : s.mode = .decode) (hlt : s.inPos.toNat + 2 ≤ s.srcLen.toNat)
    (ht : decCodeStep s = .ok () t) (hp : Progress s t) : BusyInv t := by
  obtain ⟨c, s1, h1, h2⟩ := Res.bind_eq_ok ht
  obtain ⟨-, e1⟩ := readCode_ok h1
  generalize s1.freeCount = f at e1
  subst e1
  have hd := h.dec hm
  have hlen := s.srcLen.isLt
  have hcount := Nat.sub_le_iff_le_add.1 h.next_count
  have hin := hd.in_pos
  have hpos : (s.inPos + 2).toNat = s.inPos.toNat + 2 := by
    rw [BitVec.toNat_add, show BitVec.toNat (2 : Word) = 2 from rfl, Nat.mod_eq_of_lt (by omega)]
  have hcodes : (s.codeCount + 1).toNat = s.codeCount.toNat + 1 := toNat_succ (by omega) (by decide)
  have noenc : s.mode = .encode → EncInv t := fun he => by rw [hm] at he; cases he
  obtain ⟨w, s2, hres, hput, rfl⟩ := decCode_ok h2
  obtain ⟨m, us, out, rfl, hcap⟩ := putString_counts hput
  obtain ⟨d, n, hent, hr, hmax, hge, hle1, hgrow⟩ := enterD_keeps w.first (s := { s with
    inPos := s.inPos + 2, freeCount := f, mem := m, unspec := us, outLen := out })
    hd.parents hd.next_le (fun p hprev => hd.prev_valid hprev)
  dsimp only at hcap hge hle1 hgrow hmax
  have hvalid : c < n.toNat := by
    rcases resolve_eq_str hres with ⟨-, hc⟩ | ⟨p, -, hc, -⟩ | ⟨p, hprev, rfl, ho⟩
    · exact Nat.lt_of_lt_of_le hc (Nat.le_trans h.next_ge hge)
    · exact Nat.lt_of_lt_of_le hc hge
    · exact hgrow (by dsimp only at hprev; rw [hprev]; exact nofun) ho
  have hnext := Nat.sub_le_iff_le_add.2 (show n.toNat ≤ (s.codeCount + 1).toNat + Config.seedCount by omega)
  rw [hent] at hp noenc ⊢
  refine h.progress hp (hpos.trans_le hlt) hcap hge hnext noenc fun _ => ?_
  have hin2 : (s.inPos + 2).toNat = 2 * (s.codeCount + 1).toNat := by omega
  have hprev : c < n.toNat ∧ 1 ≤ (s.codeCount + 1).toNat := ⟨hvalid, by omega⟩
  exact ⟨hmax, hr, hin2, .inr ⟨c, rfl, hprev⟩⟩

/-- A step after which the operation goes on keeps its invariant. -/
theorem BusyInv.enabledStep {s t : State} (h : BusyInv s) (hb : t.busy = true) (ht : enabledStep s = .ok () t)
    (hp : Progress s t) : BusyInv t := by
  have not_completed : ∀ {u}, t ≠ completeOk u := by
    rintro u rfl
    cases hb
  have := h.in_pos_le
  unfold Machine.enabledStep at ht
  split at ht
  · rename_i hm
    split at ht
    · rename_i hlt
      exact h.encSymbolStep hm hlt ht hp
    · rcases encFlushStep_ok ht with ⟨-, e⟩ | ⟨p, s1, -, -, e⟩ <;> exact absurd e not_completed
  · rename_i hm
    split at ht
    · exact h.decCodeStep hm (by omega) ht hp
    · split at ht
      · obtain ⟨b, s1, -, h2⟩ := Res.bind_eq_ok ht
        cases h2
        exact absurd rfl not_completed
      · cases ht
        exact absurd rfl not_completed

/-! ### The invariant while idle, and past what it does not read -/

/-- While idle the invariant asks little. -/
theorem Inv.of_idle {s : State} (hb : s.busy = false) (hm : Memory.wf s.mem) (hn : s.dictNext.toNat ≤ Config.decDictCodes)
    (hr : s.races = []) : Inv s :=
  ⟨hm, hn, fun _ => hr, fun h => by rw [hb] at h; cases h⟩

/-- What the invariant of a running operation reads of the state: not memory, not the races, not IGN and IRQ_EN, not what is to come
and was answered, and not where the bus faults. -/
def busyView (s : State) : State :=
  { s with
    irqEn := false, ign := false, mem := [], turns := [], resp := .none, races := [], unspec := [], freeCount := 0
    platform := { s.platform with readFaults := [], writeFaults := [] } }

theorem EncInv.of_view {s t : State} (h : EncInv s) (e : busyView t = busyView s) : EncInv t := by
  have hv : EncInv (busyView t) := by
    rw [e]
    exact ⟨h.out_len, h.next_le, h.parents, h.unique, h.cur_ok⟩
  exact ⟨hv.out_len, hv.next_le, hv.parents, hv.unique, hv.cur_ok⟩

theorem DecInv.of_view {s t : State} (h : DecInv s) (e : busyView t = busyView s) : DecInv t := by
  have hv : DecInv (busyView t) := by
    rw [e]
    exact ⟨h.next_le, h.parents, h.in_pos, h.prev_ok⟩
  exact ⟨hv.next_le, hv.parents, hv.in_pos, hv.prev_ok⟩

theorem BusyInv.of_view {s t : State} (h : BusyInv s) (e : busyView t = busyView s) : BusyInv t := by
  have he : s.mode = .encode → EncInv (busyView s) := fun hm => (h.enc hm).of_view rfl
  have hd : s.mode = .decode → DecInv (busyView s) := fun hm => (h.dec hm).of_view rfl
  have hv : BusyInv (busyView t) := by
    rw [e]
    exact ⟨h.no_report, h.range_ok, h.off_device, h.in_pos_le, h.out_len_le, h.next_ge, h.next_count, he, hd⟩
  exact ⟨hv.no_report, hv.range_ok, hv.off_device, hv.in_pos_le, hv.out_len_le, hv.next_ge, hv.next_count,
    fun hm => (hv.enc hm).of_view rfl, fun hm => (hv.dec hm).of_view rfl⟩

/-- A change that the invariant of a running operation does not read keeps the machine's, when memory stays canonical and no race is
recorded while idle. -/
theorem Inv.of_view {s t : State} (h : Inv s) (e : busyView t = busyView s) (hm : Memory.wf t.mem)
    (hr : t.busy = false → t.races = []) : Inv t := by
  have hb : t.busy = s.busy := (congrArg State.busy e :)
  have hn : t.dictNext = s.dictNext := (congrArg State.dictNext e :)
  exact ⟨hm, hn ▸ h.next_le, hr, fun ht => (h.busy_inv (hb ▸ ht)).of_view e⟩

/-! ### Every step -/

/-- With DICT_NEXT = 256 no code is learned (R126). -/
theorem no_learned_code {k : Nat} {P : Prop} (hk : Config.seedCount ≤ k) (hn : k < 256) : P := absurd hn (Nat.not_lt.2 hk)

theorem encInv_launched (s : State) : EncInv (launched .encode s) where
  out_len := rfl
  next_le := (by decide : 256 ≤ 4097)
  parents := fun _ hk hn => no_learned_code hk hn
  unique := fun _ _ hj hn => no_learned_code hj hn
  cur_ok := .inl ⟨rfl, rfl, rfl⟩

theorem decInv_launched (s : State) : DecInv (launched .decode s) where
  next_le := by
    show 256 ≤ decNextMax s.decCeil
    cases s.decCeil <;> decide
  parents := fun _ hk hn => no_learned_code hk hn
  in_pos := rfl
  prev_ok := .inl ⟨rfl, rfl, rfl⟩

/-- Acceptance starts the unit on an empty dictionary (R126, R151, R181). -/
theorem inv_launched {s : State} (m : Mode) (hm : Memory.wf s.mem) (hr : rangeCheck s = 0) (hd : onDevice s = false) :
    Inv (launched m s) := by
  have hnext : 256 ≤ Config.decDictCodes := by decide
  have hcount : 256 - Config.seedCount ≤ 0 := (Nat.sub_self 256).le
  cases m with
  | encode =>
    exact ⟨hm, hnext, nofun, fun _ => ⟨⟨rfl, rfl, rfl, rfl⟩, hr, hd, Nat.zero_le _, Nat.zero_le _, Nat.le_refl _, hcount,
      fun _ => encInv_launched s, nofun⟩⟩
  | decode =>
    exact ⟨hm, hnext, nofun, fun _ => ⟨⟨rfl, rfl, rfl, rfl⟩, hr, hd, Nat.zero_le _, Nat.zero_le _, Nat.le_refl _, hcount,
      nofun, fun _ => decInv_launched s⟩⟩

section
variable {s t : State}

theorem Inv.engineStep (h : Inv s) (ht : engineStep s = .next t) : Inv t := by
  rcases engineStep_next ht with ⟨-, rfl⟩ | ⟨hb, ⟨he, hp⟩ | ⟨u, hp, rfl⟩ | ⟨c, i, u, hp, -, rfl⟩⟩
  · exact h
  · have hbt : t.busy = true := hp.busy.trans hb
    exact ⟨hp.mem_wf h.mem_wf, hp.next_le h.next_le, fun hf => absurd (hbt.symm.trans hf) nofun,
      fun _ => (h.busy_inv hb).enabledStep hbt he hp⟩
  · exact .of_idle rfl (hp.mem_wf h.mem_wf) (hp.next_le h.next_le) rfl
  · exact .of_idle rfl (hp.mem_wf h.mem_wf) (hp.next_le h.next_le) rfl

theorem Inv.taken (h : Inv s) (ts : List Turn) : Inv { s with turns := ts } := h.of_view rfl h.mem_wf h.idle_races

theorem Inv.setIgn (h : Inv s) : Inv (setIgn s) := h.of_view rfl h.mem_wf h.idle_races

theorem Inv.exec (h : Inv s) {i : Instr} (ht : exec i s = .next t) : Inv t := by
  rcases exec_next ht with rfl | ⟨-, rfl⟩ | ⟨m, hb, -, rfl⟩ | ⟨m, hb, hr, hd, rfl⟩ | ⟨-, rfl⟩
  · exact h
  · exact h.setIgn
  · exact .of_idle hb h.mem_wf (Nat.zero_le _) (h.idle_races hb)
  · exact inv_launched m h.mem_wf hr hd
  · exact .of_idle rfl h.mem_wf h.next_le rfl

theorem Inv.writeCmd (h : Inv s) {w : Word} (ht : writeCmd w s = .next t) : Inv t := by
  rcases writeCmd_next ht with ⟨i, -, he⟩ | ⟨-, rfl⟩ | ⟨hb, rfl⟩
  · exact h.exec he
  · exact h.setIgn
  · exact .of_idle hb h.mem_wf (Nat.zero_le _) (h.idle_races hb)

/-- A STATUS write finds DONE and ERR clear while BUSY = 1 (R28, R47). -/
theorem Inv.statusClear (h : Inv s) (w : Word) : Inv (statusClear w s) := by
  cases hb : s.busy with
  | false => exact .of_idle hb h.mem_wf h.next_le (h.idle_races hb)
  | true =>
    obtain ⟨hd, he, -, -⟩ := (h.busy_inv hb).no_report
    refine h.of_view ?_ h.mem_wf h.idle_races
    simp only [busyView, Machine.statusClear, hd, he, Bool.false_and]

/-- A write of a configuration register: ignored with IGN while BUSY = 1, else it changes what the invariant does not read while
idle. -/
theorem Inv.whenIdle (h : Inv s) (hb : t.busy = s.busy) (hm : t.mem = s.mem) (hn : t.dictNext = s.dictNext)
    (hr : t.races = s.races) : Inv (whenIdle s t) := by
  cases hs : s.busy with
  | true =>
    rw [whenIdle_busy t hs]
    exact h.setIgn
  | false =>
    rw [whenIdle_idle t hs]
    exact .of_idle (hb.trans hs) (hm ▸ h.mem_wf) (hn ▸ h.next_le) (hr.trans (h.idle_races hs))

theorem Inv.writeReg (h : Inv s) {r : RegName} {w : Word} (ht : writeReg r w s = .next t) : Inv t := by
  cases r with
  | cmd => exact h.writeCmd ht
  | status =>
    cases ht
    exact h.statusClear w
  | ctrl | srcAddr | srcLen | dstAddr | dstCap =>
    cases ht
    exact h.whenIdle rfl rfl rfl rfl
  | id | errcode | errinfo | inPos | outLen | codeCount | dictNext =>
    cases ht
    exact h

theorem Inv.portWrite (h : Inv s) {width : Nat} {addr data : Word} (ht : portWrite width addr data s = .next t) : Inv t := by
  have answered : ∀ q, Inv { s with resp := q } := fun _ => h.of_view rfl h.mem_wf h.idle_races
  rcases portWrite_reg ht with ⟨r, -, -, hw⟩ | ⟨q, rfl⟩
  · exact (answered _).writeReg hw
  · exact answered q

/-- Another agent's write keeps the invariant, race or not (R86). -/
theorem Inv.agentStore (h : Inv s) (a : Word) (v : Byte) : Inv (agentStore a.toNat v s) := by
  refine h.of_view rfl (Memory.wf_write a.isLt h.mem_wf) fun hb => ?_
  have hb : s.busy = false := hb
  simp only [Machine.agentStore, hb, Bool.false_and]
  exact h.idle_races hb

theorem Inv.agentLoad (h : Inv s) (a : Nat) : Inv (agentLoad a s) := by
  unfold Machine.agentLoad
  split <;> exact h.of_view rfl h.mem_wf h.idle_races

theorem Inv.takeTurn (h : Inv s) {u : Turn} (ht : takeTurn u s = .next t) : Inv t := by
  rcases takeTurn_next ht with ⟨-, he⟩ | ⟨cut, -, rfl⟩ | ⟨width, addr, data, -, hw⟩ | ⟨width, addr, r, -, rfl⟩ |
    ⟨r, m, v, -, rfl⟩ | ⟨a, v, -, -, rfl⟩ | ⟨a, -, -, rfl⟩ | ⟨r, w, -, rfl⟩
  · exact h.engineStep he
  · exact .of_idle rfl (cutStep_wf cut h.mem_wf) (Nat.zero_le _) rfl
  · exact h.portWrite hw
  · exact h.of_view rfl h.mem_wf h.idle_races
  · exact h.of_view rfl h.mem_wf h.idle_races
  · exact h.agentStore a v
  · exact h.agentLoad a.toNat
  · exact h.of_view rfl h.mem_wf h.idle_races

end

/-! ### No faults -/

/-- Bytes inside the address space are written or answered with a bus error (R79). -/
theorem putBytes_not_stuck {bs : List Byte} {s : State} {x : Fault} (hl : s.outLen.toNat + bs.length < 2 ^ 32)
    (ha : s.dstAddr.toNat + s.outLen.toNat + bs.length ≤ Config.addrSpace) : putBytes bs s ≠ .stuck x := by
  induction bs generalizing s with
  | nil => exact nofun
  | cons b bs ih =>
    intro h
    rw [List.length_cons] at hl ha
    rcases Res.bind_eq_stuck h with h1 | ⟨u, s1, h1, h2⟩
    · have := (memWrite_stuck h1).2
      omega
    · obtain ⟨-, -, rfl⟩ := memWrite_ok h1
      have hn : (s.outLen + 1).toNat = s.outLen.toNat + 1 := toNat_succ (by omega) (by decide)
      exact ih (by simp only [busStore_outLen, hn]; omega) (by simp only [busStore_outLen, busStore_dstAddr, hn]; omega) h2

section
variable {s : State} {x : Fault}

/-- Bytes for which the destination has room are inside the address space (R48, R127). -/
theorem BusyInv.putBytes_not_stuck (h : BusyInv s) {s1 : State} (hp : Progress s s1) {bs : List Byte}
    (hroom : s1.outLen.toNat + bs.length ≤ s1.dstCap.toNat) : putBytes bs s1 ≠ .stuck x := by
  obtain ⟨-, hd, -⟩ := rangeCheck_eq_zero (hp.rangeCheck_eq.trans h.range_ok)
  have hcap := s1.dstCap.isLt
  exact Machine.putBytes_not_stuck (by omega) (by show _ ≤ 2 ^ 32; omega)

theorem BusyInv.readSymbol_not_stuck (h : BusyInv s) {s1 : State} (hp : Progress s s1)
    (hpos : s1.inPos.toNat < s1.srcLen.toNat) : readSymbol s1 ≠ .stuck x := by
  intro hst
  obtain ⟨hs, -, -⟩ := rangeCheck_eq_zero (hp.rangeCheck_eq.trans h.range_ok)
  have hle : 2 ^ 32 ≤ s1.srcAddr.toNat + s1.inPos.toNat := readSymbol_stuck hst
  omega

theorem BusyInv.readCode_not_stuck (h : BusyInv s) (hpos : s.inPos.toNat + 2 ≤ s.srcLen.toNat) : readCode s ≠ .stuck x := by
  intro hst
  have hlen := s.srcLen.isLt
  rcases Res.bind_eq_stuck hst with h1 | ⟨b, s1, h1, h2⟩
  · exact h.readSymbol_not_stuck (.refl s) (by omega) h1
  · have hp := (h1 ▸ readSymbol_progress s).of_ok
    obtain ⟨-, e1⟩ := readSymbol_ok h1
    have hnext : s1.inPos.toNat = s.inPos.toNat + 1 := by rw [e1]; exact toNat_succ (by omega) (by decide)
    rcases Res.bind_eq_stuck h2 with h3 | ⟨c, s2, -, h3⟩
    · exact h.readSymbol_not_stuck hp (by rw [hp.srcLen]; omega) h3
    · cases h3

theorem BusyInv.emitCode_not_stuck (h : BusyInv s) {s1 : State} (hp : Progress s s1) (c : Nat) : emitCode c s1 ≠ .stuck x := by
  intro hst
  obtain ⟨hroom, hst⟩ := emitCode_stuck hst
  exact h.putBytes_not_stuck hp (bs := pack1 c) hroom hst

/-- The decoder reads only valid entries, each of which has a string (R42, R187). -/
theorem DecInv.resolve_ne_dead (h : DecInv s) (c : Nat) : resolve c s ≠ .dead := by
  intro hr
  have hranked : s.dd.Ranked s.dictNext.toNat := h.parents
  obtain ⟨k, hk, hnone⟩ : ∃ k, k < s.dictNext.toNat ∧ s.dd.str s.dictNext.toNat k = none := by
    rcases resolve_eq_dead hr with hc | ⟨p, hp, hnone⟩
    · exact ⟨c, hc⟩
    · exact ⟨p, h.prev_valid hp, hnone⟩
  obtain ⟨w, hw, -⟩ := hranked.str_bounded hk
  rw [hnone] at hw
  cases hw

theorem BusyInv.enabledStep_not_stuck (h : BusyInv s) : Machine.enabledStep s ≠ .stuck x := by
  unfold Machine.enabledStep
  intro hst
  split at hst
  · split at hst
    · rename_i hlt
      rcases Res.bind_eq_stuck hst with h1 | ⟨b, s1, h1, h2⟩
      · exact h.readSymbol_not_stuck (.refl s) hlt h1
      · obtain ⟨p, -, h3⟩ := encSymbol_stuck h2
        exact h.emitCode_not_stuck (h1 ▸ readSymbol_progress s).of_ok p h3
    · obtain ⟨p, -, h3⟩ := encFlushStep_stuck hst
      exact h.emitCode_not_stuck (.refl s) p h3
  · rename_i hm
    split at hst
    · rename_i hlt
      rcases Res.bind_eq_stuck hst with h1 | ⟨c, s1, h1, h2⟩
      · exact h.readCode_not_stuck (by omega) h1
      · have hp := (h1 ▸ readCode_progress s).of_ok
        rcases decCode_stuck h2 with hdead | ⟨w, -, hput⟩
        · obtain ⟨-, e1⟩ := readCode_ok h1
          rw [e1] at hdead
          exact (h.dec hm).resolve_ne_dead c hdead
        · obtain ⟨hroom, hput⟩ := putString_stuck hput
          exact h.putBytes_not_stuck hp hroom hput
    · split at hst
      · rename_i hone
        rcases Res.bind_eq_stuck hst with h1 | ⟨b, s1, -, h2⟩
        · exact h.readSymbol_not_stuck (.refl s) (by omega) h1
        · cases h2
      · cases hst

theorem Inv.step_not_fault (h : Inv s) : step s ≠ .fault x := by
  have move : ∀ {u : State}, Inv u → Machine.engineStep u ≠ .fault x := by
    intro u hu he
    cases hb : u.busy with
    | false =>
      rw [engineStep_idle hb] at he
      cases he
    | true =>
      rw [engineStep_busy hb] at he
      exact (hu.busy_inv hb).enabledStep_not_stuck (finish_fault he)
  intro hf
  cases ht : s.turns with
  | nil => exact move h (step_alone ht ▸ hf)
  | cons u us =>
    rw [step_turn ht] at hf
    exact move (h.taken us) (takeTurn_fault hf).2

end

/-! ### The statements -/

/-- Settles O7: after reset the block is idle, and memory has nothing listed. -/
theorem resetMeetsTheInvariant : Obligations.ResetMeetsTheInvariant :=
  .of_idle rfl reset_mem_wf (Nat.zero_le _) rfl

/-- Settles O41: the engine's steps keep the running unit's part, and no other turn reaches what the invariant reads of a running
operation. -/
theorem stepKeepsTheInvariant : Obligations.StepKeepsTheInvariant := by
  intro s t h ht
  rcases step_next ht with ⟨-, he⟩ | ⟨u, us, -, hu⟩
  · exact h.engineStep he
  · exact (h.taken us).takeTurn hu

/-- Settles O42: every address lies in a window that was checked at the launch, and every code taken has a string. -/
theorem noStepFaultsUnderTheInvariant : Obligations.NoStepFaultsUnderTheInvariant := fun _ _ h => h.step_not_fault

/-- Settles O58: chains end, because parents are below their codes, and each link of a chain costs one code. -/
theorem decodedStringsAreBounded : Obligations.DecodedStringsAreBounded := by
  intro s k h hb hm hk
  have hranked : s.dd.Ranked s.dictNext.toNat := ((h.busy_inv hb).dec hm).parents
  exact hranked.str_bounded hk

end Sys2Proof.Machine
end

section
/-! The writers of the status flags (10_state.md R47): the ways in which a step can leave BUSY, DONE, ERR, IGN and MODE. -/

namespace Sys2Proof.Machine

/-- The command that starts an operation of a mode (R122, R123). -/
def Mode.command : Mode → Instr
  | .encode => .encode
  | .decode => .decode

theorem issues_of_command {w : Word} {m : Mode} (h : decode w = .ok m.command) :
    decode w ≠ .ok .nop ∧ decode w ≠ .ok .abort := by
  rw [h]
  cases m <;> exact ⟨nofun, nofun⟩

/-- A write that BUSY = 1 makes ignored comes next (R35, R128). -/
def ignorableWriteIsNext (s : State) : Prop :=
  (∃ w, cmdWriteIsNext s w ∧ decode w ≠ .ok .nop ∧ decode w ≠ .ok .abort) ∨
    ∃ r w ts, s.turns = .write 32 (regAddr s.platform r) w :: ts ∧
      (r = .ctrl ∨ r = .srcAddr ∨ r = .srcLen ∨ r = .dstAddr ∨ r = .dstCap)

/-- Both states show the same five flags. -/
structure SameFlags (s t : State) : Prop where
  busy : t.busy = s.busy
  done : t.done = s.done
  err : t.err = s.err
  ign : t.ign = s.ign
  mode : t.mode = s.mode

/-- How a step from `s` to `t` treats the flags, with the writer that is next (R47). -/
inductive FlagStep (s t : State) : Prop where
  | kept (busy : t.busy = s.busy) (done : t.done = s.done) (err : t.err = s.err) (ign : t.ign = s.ign) (mode : t.mode = s.mode)
  | reset (next : resetIsNext s) (busy : t.busy = false) (done : t.done = false) (err : t.err = false) (ign : t.ign = false)
      (mode : t.mode = .encode)
  | completed (next : completionIsNext s) (was : s.busy = true) (busy : t.busy = false) (done : t.done = true)
      (err : t.err = s.err ∨ t.err = true ∧ t.cause ≠ .none) (ign : t.ign = s.ign) (mode : t.mode = s.mode)
  | ignored (next : ignorableWriteIsNext s) (was : s.busy = true) (busy : t.busy = true) (done : t.done = s.done)
      (err : t.err = s.err) (ign : t.ign = true) (mode : t.mode = s.mode)
  | rejected (w : Word) (next : cmdWriteIsNext s w) (issue : decode w ≠ .ok .nop ∧ decode w ≠ .ok .abort)
      (was : s.busy = false) (busy : t.busy = false) (done : t.done = true) (err : t.err = true)
      (cause : t.cause = .cmdIllegal ∨ t.cause = .cmdBadRange) (ign : t.ign = s.ign)
      (mode : t.mode = s.mode ∨ decode w = .ok t.mode.command)
  | accepted (w : Word) (next : cmdWriteIsNext s w) (command : decode w = .ok t.mode.command) (was : s.busy = false)
      (range : rangeCheck s = 0) (done : t.done = false) (err : t.err = false) (ign : t.ign = s.ign)
  | cleared (w : Word) (next : statusWriteIsNext s w) (busy : t.busy = s.busy) (done : t.done = (s.done && !w.getLsbD 1))
      (err : t.err = (s.err && !w.getLsbD 2)) (ign : t.ign = (s.ign && !w.getLsbD 3)) (mode : t.mode = s.mode)

section
variable {s t : State}

/-! ### Every step is one of these -/

theorem flagStep_engine {ts : List Turn} (hc : completionIsNext s) (h : engineStep { s with turns := ts } = .next t) :
    FlagStep s t := by
  rcases engineStep_next h with ⟨-, rfl⟩ | ⟨hb, ⟨-, hp⟩ | ⟨u, hp, rfl⟩ | ⟨c, i, u, hp, hne, rfl⟩⟩
  · exact .kept rfl rfl rfl rfl rfl
  · exact .kept hp.busy hp.done hp.err hp.ign hp.mode
  · exact .completed hc hb rfl rfl (.inl hp.err) hp.ign hp.mode
  · exact .completed hc hb rfl rfl (.inr ⟨rfl, hne⟩) hp.ign hp.mode

/-- ENCODE or DECODE is ignored, rejected for range, or accepted (R120, R125, R126, R128). -/
theorem flagStep_launch {w : Word} {ts : List Turn} {r : Response} {m : Mode} (hw : cmdWriteIsNext s w)
    (hd : decode w = .ok m.command) (h : launch m { s with turns := ts, resp := r } = .next t) : FlagStep s t := by
  have issue := issues_of_command hd
  rcases launch_next h with ⟨hb, rfl⟩ | ⟨hb, -, rfl⟩ | ⟨hb, hr, -, rfl⟩
  · exact .ignored (.inl ⟨w, hw, issue⟩) hb hb rfl rfl rfl rfl
  · exact .rejected w hw issue hb hb rfl rfl (.inr rfl) rfl (.inr hd)
  · cases m <;> exact .accepted w hw hd hb hr rfl rfl rfl

theorem flagStep_command {w : Word} {ts : List Turn} {r : Response} {i : Instr} (hw : cmdWriteIsNext s w)
    (hd : decode w = .ok i) (h : exec i { s with turns := ts, resp := r } = .next t) : FlagStep s t := by
  cases i with
  | nop =>
    cases h
    exact .kept rfl rfl rfl rfl rfl
  | encode => exact flagStep_launch (m := .encode) hw hd h
  | decode => exact flagStep_launch (m := .decode) hw hd h
  | abort =>
    cases h
    rcases s.busy.eq_false_or_eq_true with hb | hb
    · rw [if_pos hb]
      exact .completed (.inr (.inr ⟨w, hw, hd⟩)) hb rfl rfl (.inr ⟨rfl, nofun⟩) rfl rfl
    · rw [if_neg (by simp [hb])]
      exact .kept rfl rfl rfl rfl rfl

theorem flagStep_illegal {w : Word} {ts : List Turn} {r : Response} {e : Reject} (hw : cmdWriteIsNext s w)
    (hd : decode w = .error e) (h : execIllegal w { s with turns := ts, resp := r } = .next t) : FlagStep s t := by
  have issue : decode w ≠ .ok .nop ∧ decode w ≠ .ok .abort := by
    rw [hd]
    exact ⟨nofun, nofun⟩
  cases h
  rcases s.busy.eq_false_or_eq_true with hb | hb
  · rw [if_pos hb]
    exact .ignored (.inl ⟨w, hw, issue⟩) hb hb rfl rfl rfl rfl
  · rw [if_neg (by simp [hb])]
    exact .rejected w hw issue hb hb rfl rfl (.inl rfl) rfl (.inl rfl)

/-- A write of a configuration register is ignored, or changes no flag (R35). -/
theorem flagStep_config {u : State} {ts : List Turn} {r : Response} (hn : ignorableWriteIsNext s) (hu : SameFlags s u) :
    FlagStep s (whenIdle { s with turns := ts, resp := r } u) := by
  rcases s.busy.eq_false_or_eq_true with hb | hb
  · rw [whenIdle_busy (s := { s with turns := ts, resp := r }) u hb]
    exact .ignored hn hb hb rfl rfl rfl rfl
  · rw [whenIdle_idle (s := { s with turns := ts, resp := r }) u hb]
    exact .kept hu.busy hu.done hu.err hu.ign hu.mode

theorem flagStep_writeReg {q : RegName} {w : Word} {ts : List Turn} {r : Response}
    (hn : s.turns = .write 32 (regAddr s.platform q) w :: ts)
    (h : writeReg q w { s with turns := ts, resp := r } = .next t) : FlagStep s t := by
  cases q with
  | cmd =>
    rw [writeReg, writeCmd] at h
    cases hd : decode w with
    | ok i =>
      rw [hd] at h
      exact flagStep_command ⟨ts, hn⟩ hd h
    | error e =>
      rw [hd] at h
      exact flagStep_illegal ⟨ts, hn⟩ hd h
  | status =>
    cases h
    exact .cleared w ⟨ts, hn⟩ rfl rfl rfl rfl rfl
  | ctrl | srcAddr | srcLen | dstAddr | dstCap =>
    cases h
    exact flagStep_config (.inr ⟨_, w, ts, hn, by decide⟩) ⟨rfl, rfl, rfl, rfl, rfl⟩
  | id | errcode | errinfo | inPos | outLen | codeCount | dictNext =>
    cases h
    exact .kept rfl rfl rfl rfl rfl

theorem sameFlags_agentLoad (a : Nat) (s : State) : SameFlags s (agentLoad a s) := by
  unfold agentLoad
  split <;> exact ⟨rfl, rfl, rfl, rfl, rfl⟩

theorem flagStep_of_step (h : step s = .next t) : FlagStep s t := by
  rcases step_next h with ⟨hn, he⟩ | ⟨u, ts, hn, hu⟩
  · exact flagStep_engine (ts := s.turns) (.inl hn) he
  · rcases takeTurn_next hu with ⟨rfl, he⟩ | ⟨cut, rfl, rfl⟩ | ⟨width, addr, data, rfl, hw⟩ |
      ⟨width, addr, r, -, rfl⟩ | ⟨r, m, v, -, rfl⟩ | ⟨a, v, -, -, rfl⟩ | ⟨a, -, -, rfl⟩ | ⟨r, w, -, rfl⟩
    · exact flagStep_engine (.inr (.inl ⟨ts, hn⟩)) he
    · exact .reset ⟨cut, ts, hn⟩ rfl rfl rfl rfl rfl
    · rcases portWrite_reg hw with ⟨q, rfl, rfl, hq⟩ | ⟨q, rfl⟩
      · exact flagStep_writeReg hn hq
      · exact .kept rfl rfl rfl rfl rfl
    · exact .kept rfl rfl rfl rfl rfl
    · exact .kept rfl rfl rfl rfl rfl
    · exact .kept rfl rfl rfl rfl rfl
    · obtain ⟨h1, h2, h3, h4, h5⟩ := sameFlags_agentLoad a.toNat { s with turns := ts }
      exact .kept h1 h2 h3 h4 h5
    · exact .kept rfl rfl rfl rfl rfl

/-- No read writes a flag (R22, R47, R81). -/
theorem sameFlags_of_read (h : step s = .next t)
    (hr : (∃ width a ts, s.turns = .read width a :: ts) ∨ (∃ r m v ts, s.turns = .poll r m v :: ts) ∨
      ∃ a ts, s.turns = .memRead a :: ts) : SameFlags s t := by
  rcases hr with ⟨width, a, ts, hn⟩ | ⟨r, m, v, ts, hn⟩ | ⟨a, ts, hn⟩ <;> rw [step_turn hn] at h
  · obtain ⟨q, rfl⟩ := portRead_next h
    exact ⟨rfl, rfl, rfl, rfl, rfl⟩
  · cases h
    exact ⟨rfl, rfl, rfl, rfl, rfl⟩
  · rw [takeTurn, agentRead] at h
    split at h
    · cases h
    · cases h
      obtain ⟨h1, h2, h3, h4, h5⟩ := sameFlags_agentLoad a.toNat { s with turns := ts }
      exact ⟨h1, h2, h3, h4, h5⟩

/-! ### Each flag's changes: the ways of a step that cannot make the change contradict it -/

namespace FlagStep

theorem busy_rises (h : FlagStep s t) (hs : s.busy = false) (ht : t.busy = true) :
    ∃ w, cmdWriteIsNext s w ∧ (decode w = .ok .encode ∨ decode w = .ok .decode) ∧ rangeCheck s = 0 := by
  cases h with
  | accepted w next command was range =>
    refine ⟨w, next, ?_, range⟩
    rw [command]
    cases t.mode
    · exact .inl rfl
    · exact .inr rfl
  | _ => simp_all

theorem busy_falls (h : FlagStep s t) (hs : s.busy = true) (ht : t.busy = false) :
    resetIsNext s ∨ completionIsNext s ∧ t.done = true := by
  cases h with
  | reset next => exact .inl next
  | completed next was busy done => exact .inr ⟨next, done⟩
  | _ => simp_all

/-- A completion, or an issue that is rejected, is what reports (R125, R214). -/
theorem done_rises (h : FlagStep s t) (hs : s.done = false) (ht : t.done = true) :
    s.busy = true ∧ t.busy = false ∧ completionIsNext s ∨
      issueIsNext s ∧ t.busy = false ∧ t.err = true ∧ (t.cause = .cmdIllegal ∨ t.cause = .cmdBadRange) := by
  cases h with
  | completed next was busy => exact .inl ⟨was, busy, next⟩
  | rejected w next issue was busy done err cause => exact .inr ⟨⟨was, w, next, issue⟩, busy, err, cause⟩
  | _ => simp_all

/-- Reset, an issue, and a STATUS write take a report back (R28, R126, R241). -/
theorem done_falls (h : FlagStep s t) (hs : s.done = true) (ht : t.done = false) :
    resetIsNext s ∨ issueIsNext s ∨ ∃ w, statusWriteIsNext s w ∧ w.getLsbD 1 = true := by
  cases h with
  | reset next => exact .inl next
  | accepted w next command was => exact .inr (.inl ⟨was, w, next, issues_of_command command⟩)
  | cleared w next busy done => exact .inr (.inr ⟨w, next, by simpa [hs, ht] using done⟩)
  | _ => simp_all

theorem err_rises (h : FlagStep s t) (hs : s.err = false) (ht : t.err = true) :
    t.done = true ∧ t.cause ≠ .none ∧
      (s.busy = true ∧ t.busy = false ∧ completionIsNext s ∨
        issueIsNext s ∧ t.busy = false ∧ (t.cause = .cmdIllegal ∨ t.cause = .cmdBadRange)) := by
  cases h with
  | completed next was busy done err =>
    rcases err with err | ⟨-, cause⟩
    · simp_all
    · exact ⟨done, cause, .inl ⟨was, busy, next⟩⟩
  | rejected w next issue was busy done err cause =>
    refine ⟨done, ?_, .inr ⟨⟨was, w, next, issue⟩, busy, cause⟩⟩
    rcases cause with e | e <;> rw [e] <;> exact nofun
  | _ => simp_all

theorem err_falls (h : FlagStep s t) (hs : s.err = true) (ht : t.err = false) :
    resetIsNext s ∨ issueIsNext s ∨ ∃ w, statusWriteIsNext s w ∧ w.getLsbD 2 = true := by
  cases h with
  | reset next => exact .inl next
  | accepted w next command was => exact .inr (.inl ⟨was, w, next, issues_of_command command⟩)
  | cleared w next busy done err => exact .inr (.inr ⟨w, next, by simpa [hs, ht] using err⟩)
  | _ => simp_all

theorem ign_rises (h : FlagStep s t) (hs : s.ign = false) (ht : t.ign = true) : s.busy = true ∧ ignorableWriteIsNext s := by
  cases h with
  | ignored next was => exact ⟨was, next⟩
  | _ => simp_all

theorem ign_falls (h : FlagStep s t) (hs : s.ign = true) (ht : t.ign = false) :
    resetIsNext s ∨ ∃ w, statusWriteIsNext s w ∧ w.getLsbD 3 = true := by
  cases h with
  | reset next => exact .inl next
  | cleared w next busy done err ign => exact .inr ⟨w, next, by simpa [hs, ht] using ign⟩
  | _ => simp_all

/-- MODE is written by reset and by the issue of a command that starts an operation (R27, R126). -/
theorem mode_changes (h : FlagStep s t) (hm : t.mode ≠ s.mode) :
    resetIsNext s ∧ t.mode = .encode ∨
      s.busy = false ∧ ∃ w, cmdWriteIsNext s w ∧
        (decode w = .ok .encode ∧ t.mode = .encode ∨ decode w = .ok .decode ∧ t.mode = .decode) := by
  have issued : ∀ {w}, decode w = .ok t.mode.command →
      decode w = .ok .encode ∧ t.mode = .encode ∨ decode w = .ok .decode ∧ t.mode = .decode := by
    intro w hw
    generalize t.mode = m at hw ⊢
    cases m with
    | encode => exact .inl ⟨hw, rfl⟩
    | decode => exact .inr ⟨hw, rfl⟩
  cases h with
  | reset next busy done err ign mode => exact .inl ⟨next, mode⟩
  | rejected w next issue was busy done err cause ign mode =>
    exact .inr ⟨was, w, next, issued (mode.resolve_left hm)⟩
  | accepted w next command was => exact .inr ⟨was, w, next, issued command⟩
  | _ => contradiction

/-- BUSY = 1 goes with DONE = ERR = 0 (R47). -/
theorem busy_unreported (h : FlagStep s t) (hs : s.busy = true → s.done = false ∧ s.err = false) (ht : t.busy = true) :
    t.done = false ∧ t.err = false := by
  cases h with
  | _ => simp_all

end FlagStep

end

/-- Settles O44: every step is one of the seven ways of `FlagStep`, each with its writer. -/
theorem flagsHaveOnlyTheirWriters : Obligations.FlagsHaveOnlyTheirWriters := by
  intro s t h
  have hf := flagStep_of_step h
  refine ⟨hf.busy_rises, hf.busy_falls, hf.done_rises, hf.done_falls, hf.err_rises, hf.err_falls, hf.ign_rises, hf.ign_falls,
    hf.mode_changes, hf.busy_unreported, fun hr => ?_⟩
  obtain ⟨hbusy, hdone, herr, hign, hmode⟩ := sameFlags_of_read h hr
  exact ⟨hbusy, hdone, herr, hign, hmode⟩

end Sys2Proof.Machine
end

section
/-! What the counters say after a completion (10_state.md R48, R49): the host may then write smaller values to SRC_LEN and DST_CAP,
so the bounds of R48 hold of a running operation only. -/

namespace Sys2Proof.Machine

/-- A host that decodes one byte and then writes SRC_LEN = 0. -/
def shrinkingHost : List Turn := [.write 32 0x1C 1, .write 32 0x08 2, .engine, .write 32 0x1C 0]

/-- Where that host leaves the machine: one byte read of a source that is now empty. -/
def shrunkSource : State := { State.reset with mode := .decode, done := true, inPos := 1, dictNext := 256, resp := .written }

theorem shrinkingHost_leads_to_shrunkSource :
    runSteps 4 { State.reset with mem := [], turns := shrinkingHost } = .next shrunkSource := by rfl

/-- Refutes O46: DECODE of one byte completes with IN_POS = 1 (R190), and the host then writes SRC_LEN = 0 (R32). -/
theorem not_countersStayBelowTheRegistersAlways : ¬ Obligations.CountersStayBelowTheRegistersAlways := by
  intro h
  have reached : Reachable shrunkSource := ⟨[], shrinkingHost, 4, reset_mem_wf, shrinkingHost_leads_to_shrunkSource⟩
  exact absurd (h shrunkSource reached).1 (by decide)

end Sys2Proof.Machine
end

section
/-! A launched DECODE of a stream with an unresolvable code (40_commands.md R123, 42_decoder.md R183, R186): the engine goes beside
the reconstruction up to that code, reports it, and stays as it is. -/

namespace Sys2Proof.Machine

/-! ### The reconstruction's error -/

/-- A code cannot be resolved as a first code, or as one that is neither known nor the special case (R183, R186). -/
theorem decLookup_error {decCeil : Bool} {v : DecVars} {c : Nat} {k : Cause} (h : decLookup decCeil v c = .error k) :
    (v.string = [] ∧ Config.seedCount ≤ c ∧ k = .decFirstCode) ∨
      (v.string ≠ [] ∧ Config.seedCount + v.learned.length ≤ c ∧
        ¬(c = Config.seedCount + v.learned.length ∧ addOkD decCeil (Config.seedCount + v.learned.length) = true) ∧
        k = .decUnknownCode) := by
  unfold decLookup at h
  split at h
  · rename_i hs
    split at h
    · rename_i hc
      cases h
      exact .inl ⟨hs, hc, rfl⟩
    · cases h
  · rename_i hs
    split at h
    · cases h
    · rename_i hc
      split at h
      · cases h
      · rename_i hl
        dsimp only at h
        split at h
        · cases h
        · rename_i hn
          cases h
          have := List.getElem?_eq_none_iff.1 hl
          exact .inr ⟨hs, by omega, hn, rfl⟩

/-- Where a scan ends in an error: at the code that the count of codes names, with a DecodeError, and no output taken back. -/
theorem decScan_error {decCeil : Bool} {cs : List Nat} {v w : DecVars} {k : Cause} {c : Nat}
    (h : decScan decCeil cs v = (w, some (k, c))) :
    v.out.length ≤ w.out.length ∧ (k = .decFirstCode ∨ k = .decUnknownCode) ∧
      ∃ i, cs[i]? = some c ∧ w.count = v.count + i := by
  induction cs generalizing v with
  | nil => cases h
  | cons d cs ih =>
    rw [decScan] at h
    cases hl : decLookup decCeil v d with
    | ok t =>
      obtain ⟨hle, hk, i, hi, hw⟩ := ih (by simpa only [hl] using h)
      refine ⟨Nat.le_trans ?_ hle, hk, i + 1, hi, ?_⟩
      · simp [decAppend]
      · rw [hw, decAppend, Nat.add_assoc, Nat.add_comm 1 i]
    | error k' =>
      simp only [hl, Prod.mk.injEq, Option.some.injEq] at h
      obtain ⟨rfl, rfl, rfl⟩ := h
      refine ⟨Nat.le_refl _, ?_, 0, rfl, rfl⟩
      rcases decLookup_error hl with ⟨-, -, hk⟩ | ⟨-, -, -, hk⟩
      · exact .inl hk
      · exact .inr hk

/-! ### The engine's error -/

/-- With nothing pending an idle machine stays as it is. -/
theorem runSteps_idle {s : State} (n : Nat) (hb : s.busy = false) (ht : s.turns = []) : runSteps n s = .next s := by
  induction n with
  | zero => rfl
  | succ n ih => rw [runSteps_succ n (by rw [step_alone ht, engineStep_idle hb]), ih]

section
variable {s a : State} {v : DecVars}

/-- A code that the reconstruction cannot resolve, the engine cannot either, with the same cause (R183, R186). -/
theorem DecMatches.resolve_error (h : DecMatches s a v) {c : Nat} {k : Cause} (hk : decLookup s.decCeil v c = .error k) :
    resolve c a = .error k := by
  unfold resolve
  rw [h.run.decCeil]
  rcases h.prev with ⟨hp, hs⟩ | ⟨p, hp, -, -, hs⟩ <;> rw [hp] <;> dsimp only
  · rcases decLookup_error hk with ⟨-, hc, rfl⟩ | ⟨hs', -⟩
    · rw [if_pos hc]
    · exact absurd hs hs'
  · rcases decLookup_error hk with ⟨hs', -⟩ | ⟨-, hc, hn, rfl⟩
    · exact absurd hs' hs
    · rw [← h.next] at hc hn
      rw [if_neg (Nat.not_lt.2 hc), if_neg hn]

/-- A step with two source bytes left reads their code and decodes it (R130, R182). -/
theorem DecMatches.step_reads_code (hs : LaunchReady s) (h : DecMatches s a v) {hi lo : Byte} {x : List Byte}
    (hx : (sourceBytes s).drop a.inPos.toNat = hi :: lo :: x) :
    ∃ b, step a = finish (decCode (codeOf hi lo) b) ∧ b.inPos.toNat = a.inPos.toNat + 2 ∧
      (sourceBytes s).drop b.inPos.toNat = x ∧ DecMatches s b v := by
  obtain ⟨hread1, hpos1, -, hx1, hrun1⟩ := h.run.reads_next hs hx
  obtain ⟨hread2, hpos2, hlt, hx2, hrun2⟩ := hrun1.reads_next hs hx1
  refine ⟨_, ?_, hpos2.trans (congrArg (· + 1) hpos1), hx2, h.with_inPos hrun2⟩
  have hlt : a.inPos.toNat + 1 < s.srcLen.toNat := hpos1 ▸ hlt
  have hstep : enabledStep a = decCodeStep a := by
    unfold enabledStep
    rw [h.run.mode, h.run.srcLen]
    exact if_pos (by omega)
  rw [h.run.step_eq hs, hstep, decCodeStep, readCode, hread1, Res.bind_ok, hread2, Res.bind_ok, Res.bind_ok]

/-- From any point of a launched DECODE whose stream has an unresolvable code, the engine reports that code. -/
theorem DecMatches.run_to_error (hs : LaunchReady s) (cs : List Nat) (h : DecMatches s a v) {w : DecVars} {k : Cause} {c : Nat}
    (hpos : a.inPos.toNat = 2 * v.count) (hx : unpack ((sourceBytes s).drop a.inPos.toNat) = cs)
    (hscan : decScan s.decCeil cs v = (w, some (k, c))) (hroom : w.out.length ≤ s.dstCap.toNat) :
    ∃ b, runSteps (cs.length + 1) a = .next (completeError k (BitVec.ofNat 32 c) b) ∧ c < 65536 ∧
      b.inPos.toNat = 2 * (w.count + 1) ∧ DecMatches s b w := by
  induction cs generalizing a v with
  | nil => cases hscan
  | cons d cs ih =>
    obtain ⟨hi, lo, x, hsrc, rfl, hrest⟩ := unpack_eq_cons hx
    obtain ⟨b, hstep, hposb, hxb, hb⟩ := h.step_reads_code hs hsrc
    rw [decScan] at hscan
    cases hl : decLookup s.decCeil v (codeOf hi lo) with
    | ok t =>
      have hscan' : decScan s.decCeil cs (decAppend s.decCeil v t) = (w, some (k, c)) := by simpa only [hl] using hscan
      obtain ⟨hle, -, -⟩ := decScan_error hscan'
      rw [decAppend, List.length_append] at hle
      obtain ⟨u, hu, hposu, hm⟩ := hb.decCode_eq hs hl (Nat.le_trans hle hroom)
      rw [hu] at hstep
      rw [List.length_cons, runSteps_succ _ hstep]
      refine ih hm ?_ (by rw [hposu, hxb, hrest]) hscan'
      rw [hposu, hposb, hpos]
      rfl
    | error k' =>
      simp only [hl, Prod.mk.injEq, Option.some.injEq] at hscan
      obtain ⟨rfl, rfl, rfl⟩ := hscan
      have hcode : decCode (codeOf hi lo) b = .raise k' (BitVec.ofNat 32 (codeOf hi lo)) b := by
        rw [decCode, hb.resolve_error hl]
      rw [hcode] at hstep
      rw [runSteps_succ _ hstep]
      exact ⟨b, runSteps_idle _ rfl (hb.run.turns.trans hs.alone), (hi ++ lo : BitVec 16).isLt, by omega, hb⟩

end

/-- Settles O51: the engine does what the reconstruction does up to the bad code, and then completes with that code's error. -/
theorem decodeReportsTheFirstBadCode : Obligations.DecodeReportsTheFirstBadCode := by
  intro s v k c hs hscan hroom
  obtain ⟨-, hcause, i, hi, hcount⟩ := decScan_error hscan
  obtain ⟨b, hrun, hc, hpos, hb⟩ :=
    (decMatches_launched s).run_to_error hs (unpack (sourceBytes s)) rfl rfl hscan hroom
  rw [unpack_length, sourceBytes_length] at hrun
  have hindex : (unpack (sourceBytes s))[v.count]? = some c := by
    rw [hcount, show decVars0.count + i = i from Nat.zero_add i, hi]
  have hend : completeError k (BitVec.ofNat 32 c) b =
      { b with cause := k, errInfo := BitVec.ofNat 32 c, busy := false, done := true, err := true } := by
    rw [completeError, endRaces_clean hb.run.races]
  have hinfo : (BitVec.ofNat 32 c).toNat = c := by
    rw [BitVec.toNat_ofNat]
    omega
  rw [hend] at hrun
  exact ⟨_, _, exec_launched_decode hs, hrun, rfl, rfl, rfl, rfl, hinfo, hcause, hindex, hb.count, hpos, hb.run.holds,
    hb.run.out_len, hb.run.outside⟩

end Sys2Proof.Machine
end

section
/-! Bus memory as the host and other bus agents see it (20_memory.md R72, R84, R86), and its canonical form: only the engine's
writes, another agent's writes and a cut step touch memory, and each of them stores bytes one by one. -/

namespace Sys2Proof.Machine

section
variable {s t : State}

/-! ### Accesses of other agents -/

/-- A step that takes another agent's write stores the byte, unless the address is a device's (R81). -/
theorem step_stores_byte {a : Word} {v : Byte} {ts : List Turn} (h : s.turns = .memWrite a v :: ts)
    (hd : covers s.platform.devices a.toNat = false) : step s = .next (agentStore a.toNat v { s with turns := ts }) := by
  rw [step_turn h, takeTurn, agentWrite, hd]
  rfl

/-- A step that takes another agent's read answers it, unless the address is a device's (R81). -/
theorem step_loads_byte {a : Word} {ts : List Turn} (h : s.turns = .memRead a :: ts)
    (hd : covers s.platform.devices a.toNat = false) : step s = .next (agentLoad a.toNat { s with turns := ts }) := by
  rw [step_turn h, takeTurn, agentRead, hd]
  rfl

/-- Outside the windows of a running operation a write is a store and no race (R84). -/
theorem agentStore_apart {a : Nat} (v : Byte)
    (hw : s.busy = true → windowHas (srcWindow s) a = false ∧ windowHas (dstWindow s) a = false) :
    agentStore a v s = { busStore a v s with resp := .written } := by
  have hn : ¬(s.busy && (windowHas (srcWindow s) a || windowHas (dstWindow s) a)) = true := by
    rw [Bool.and_eq_true]
    rintro ⟨hb, hin⟩
    obtain ⟨hsrc, hdst⟩ := hw hb
    rw [hsrc, hdst] at hin
    cases hin
  rw [agentStore, if_neg hn]
  rfl

/-- Inside a window of a running operation a write is recorded as a race (R86). -/
theorem agentStore_raced {a : Nat} (v : Byte) (hb : s.busy = true)
    (hw : windowHas (srcWindow s) a = true ∨ windowHas (dstWindow s) a = true) : a ∈ (agentStore a v s).races := by
  have hr : (agentStore a v s).races = a :: s.races := if_pos (by rw [hb, Bool.true_and, Bool.or_eq_true]; exact hw)
  rw [hr]
  exact List.mem_cons_self

theorem knownByte_agentStore (a b : Nat) (v : Byte) (s : State) :
    knownByte (agentStore a v s) b = if b = a then some v else knownByte s b := knownByte_busStore a b v s

/-- Outside the destination window of a running operation a known byte is read (R84). -/
theorem agentLoad_known {a : Nat} {v : Byte} (hw : s.busy = true → windowHas (dstWindow s) a = false)
    (hk : knownByte s a = some v) : agentLoad a s = { s with resp := .byte v } := by
  obtain ⟨hu, rfl⟩ := knownByte_eq_some hk
  refine if_neg fun h => ?_
  rw [hu, Bool.or_false, Bool.and_eq_true] at h
  exact absurd (hw h.1) (by simp [h.2])

/-- Inside the destination window of a running operation any value is read (R86). -/
theorem agentLoad_raced {a : Nat} (hb : s.busy = true) (hw : windowHas (dstWindow s) a = true) :
    agentLoad a s = { s with resp := .byte (Config.freeByte s.freeCount), freeCount := s.freeCount + 1 } :=
  if_pos (by rw [hb, hw]; rfl)

/-! ### Races and the engine -/

/-- The engine reads any value from a byte that was raced on (R86). -/
theorem memRead_raced {a : Nat} {i : Word} (ha : a < Config.addrSpace) (hf : busFault s.platform a .read = false)
    (hr : a ∈ s.races) :
    memRead a i s = .ok (Config.freeByte s.freeCount) { s with freeCount := s.freeCount + 1 } := by
  unfold memRead
  rw [if_neg (Nat.not_le.2 ha), if_neg (by rw [hf]; exact nofun), if_pos (by simp [hr])]
  rfl

/-- A symbol step starts with its read (R130, R154). -/
theorem enabledStep_symbol (hm : s.mode = .encode) (hlt : s.inPos.toNat < s.srcLen.toNat) :
    enabledStep s = (readSymbol s).bind encSymbol := by
  unfold enabledStep
  rw [hm]
  exact if_pos hlt

/-- The first symbol of an ENCODE becomes the current string (R154). -/
theorem encSymbol_first (b : Byte) (h : s.cur = none) : encSymbol b s = .ok () { s with cur := some b.toNat } := by
  unfold encSymbol
  rw [h]

theorem Progress.races (h : Progress s t) : t.races = s.races := (congrArg State.races h.same :)

theorem Progress.dstWindow_eq (h : Progress s t) : dstWindow t = dstWindow s := (congrArg dstWindow h.same :)

/-- After a race the end of an operation leaves nothing known of its destination window (R86). -/
theorem knownByte_endRaces {a : Nat} (hr : s.races ≠ []) (hw : windowHas (dstWindow s) a = true) :
    knownByte (endRaces s) a = none := by
  have hu : (endRaces s).unspec = dstWindow s :: s.unspec := if_neg (by simpa using hr)
  refine if_pos ?_
  rw [hu, covers, List.any_cons, hw, Bool.true_or]

/-- However the engine ends a raced operation, nothing is then known of its destination window (R86). -/
theorem knownByte_of_raced_end (hr : s.races ≠ []) (hb : s.busy = true) (h : engineStep s = .next t)
    (ht : t.busy = false) {a : Nat} (hw : windowHas (dstWindow s) a = true) : knownByte t a = none := by
  have ended : ∀ {u}, Progress s u → knownByte (endRaces u) a = none := fun hp =>
    knownByte_endRaces (hp.races ▸ hr) (hp.dstWindow_eq ▸ hw)
  rcases engineStep_next h with ⟨hidle, -⟩ | ⟨-, ⟨-, hp⟩ | ⟨u, hp, rfl⟩ | ⟨c, i, u, hp, -, rfl⟩⟩
  · rw [hb] at hidle
    cases hidle
  · rw [hp.busy, hb] at ht
    cases ht
  · exact (ended hp :)
  · exact (ended hp :)

/-! ### The canonical form -/

/-- No command touches memory: acceptance only starts the engine (R126). -/
theorem exec_keeps_mem {i : Instr} (h : exec i s = .next t) : t.mem = s.mem := by
  rcases exec_next h with rfl | ⟨-, rfl⟩ | ⟨m, -, -, rfl⟩ | ⟨m, -, -, -, rfl⟩ | ⟨-, rfl⟩
  · rfl
  · rfl
  · rfl
  · cases m <;> rfl
  · rfl

theorem writeReg_keeps_mem {r : RegName} {w : Word} (h : writeReg r w s = .next t) : t.mem = s.mem := by
  have config : ∀ {u : State}, u.mem = s.mem → (whenIdle s u).mem = s.mem := by
    intro u hu
    cases hb : s.busy with
    | false => rw [whenIdle_idle u hb, hu]
    | true => rw [whenIdle_busy u hb, setIgn_mem]
  cases r with
  | cmd =>
    rcases writeCmd_next h with ⟨i, -, he⟩ | ⟨-, rfl⟩ | ⟨-, rfl⟩
    · exact exec_keeps_mem he
    · rfl
    · rfl
  | ctrl | srcAddr | srcLen | dstAddr | dstCap =>
    cases h
    exact config rfl
  | status | id | errcode | errinfo | inPos | outLen | codeCount | dictNext =>
    cases h
    rfl

theorem portWrite_keeps_mem {width : Nat} {addr data : Word} (h : portWrite width addr data s = .next t) :
    t.mem = s.mem := by
  rcases portWrite_reg h with ⟨r, -, -, hw⟩ | ⟨q, rfl⟩
  · exact (writeReg_keeps_mem hw :)
  · rfl

theorem agentLoad_keeps_mem (a : Nat) (s : State) : (agentLoad a s).mem = s.mem := by
  unfold agentLoad
  split <;> rfl

theorem engineStep_keeps_wf (hm : Memory.wf s.mem) (h : engineStep s = .next t) : Memory.wf t.mem := by
  rcases engineStep_next h with ⟨-, rfl⟩ | ⟨-, ⟨-, hp⟩ | ⟨u, hp, rfl⟩ | ⟨c, i, u, hp, -, rfl⟩⟩
  · exact hm
  · exact hp.mem_wf hm
  · exact hp.mem_wf hm
  · exact hp.mem_wf hm

theorem takeTurn_keeps_wf {u : Turn} (hm : Memory.wf s.mem) (h : takeTurn u s = .next t) : Memory.wf t.mem := by
  rcases takeTurn_next h with ⟨-, he⟩ | ⟨cut, -, rfl⟩ | ⟨width, addr, data, -, hw⟩ | ⟨width, addr, r, -, rfl⟩ |
    ⟨r, m, v, -, rfl⟩ | ⟨a, v, -, -, rfl⟩ | ⟨a, -, -, rfl⟩ | ⟨r, w, -, rfl⟩
  · exact engineStep_keeps_wf hm he
  · exact cutStep_wf cut hm
  · exact portWrite_keeps_mem hw ▸ hm
  · exact hm
  · exact hm
  · exact Memory.wf_write a.isLt hm
  · exact agentLoad_keeps_mem a.toNat s ▸ hm
  · exact hm

end

/-! ### The statements -/

/-- Settles O39: such a write is one store and no race, and such a read takes the second branch of `agentLoad`. -/
theorem agentsOutsideTheWindowsSeeMemory : Obligations.AgentsOutsideTheWindowsSeeMemory := by
  refine ⟨fun s a v ts ht hd hw => ⟨_, step_stores_byte ht hd, ?_, fun b => knownByte_agentStore a.toNat b v _⟩,
    fun s a ts v ht hd hw hk => ?_⟩
  · rw [agentStore_apart (s := { s with turns := ts }) v hw]
    rfl
  · rw [step_loads_byte ht hd, agentLoad_known (s := { s with turns := ts }) hw hk]

/-- Settles O40: a raced access takes the free branch of its operation, and a raced end marks the destination window. -/
theorem racesGiveFreeValues : Obligations.RacesGiveFreeValues := by
  refine ⟨fun s a ts ht hd hb hw => ?_, fun s a v ts ht hd hb hw =>
      ⟨_, step_stores_byte ht hd, hb, agentStore_raced (s := { s with turns := ts }) v hb hw⟩,
    fun s hb hm hlt ha hf hr hc => ?_, fun s t hr hb h ht a hw => knownByte_of_raced_end hr hb h ht hw⟩
  · rw [step_loads_byte ht hd, agentLoad_raced (s := { s with turns := ts }) hb hw]
  · rw [engineStep_busy hb, enabledStep_symbol hm hlt, readSymbol, srcByteAddr, memRead_raced ha hf hr, Res.bind_ok,
      Res.bind_ok]
    exact congrArg finish (encSymbol_first (s := { s with inPos := s.inPos + 1, freeCount := s.freeCount + 1 }) _ hc)

/-- Settles O43: every turn that touches memory stores bytes at addresses below 2^32. -/
theorem stepKeepsMemoryCanonical : Obligations.StepKeepsMemoryCanonical := by
  intro s t hm h
  rcases step_next h with ⟨-, he⟩ | ⟨u, us, -, hu⟩
  · exact engineStep_keeps_wf hm he
  · exact takeTurn_keeps_wf (s := { s with turns := us }) hm hu

/-- Settles O16: a launch looks for devices once its ranges are legal. -/
theorem launchOnADeviceIsRefused : Obligations.LaunchOnADeviceIsRefused :=
  fun _ hb hr hd => ⟨launch_device .encode hb hr hd, launch_device .decode hb hr hd⟩

end Sys2Proof.Machine
end

section
/-! Bus errors (20_memory.md R73, 60_exceptions.md R213, R214, R216): where a source read or a destination write gets one, the step
ends there, and what was done before it stays. -/

namespace Sys2Proof.Machine

section
variable {s t : State}

/-! ### A raise ends the step -/

/-- A raise of an unraced operation completes it with the cause and its detail (R214). -/
theorem engineStep_raises {c : Cause} {i : Word} (hb : s.busy = true) (h : enabledStep s = .raise c i t)
    (hr : t.races = []) :
    engineStep s = .next { t with cause := c, errInfo := i, busy := false, done := true, err := true } := by
  rw [engineStep_busy hb, h, finish, completeError, endRaces_clean hr]

/-! ### Reads -/

/-- With two source bytes left a DECODE reads a code (R130, R182). -/
theorem enabledStep_code (hm : s.mode = .decode) (hlt : s.inPos.toNat + 2 ≤ s.srcLen.toNat) :
    enabledStep s = (readCode s).bind decCode := by
  unfold enabledStep
  rw [hm]
  exact if_pos (by omega)

/-- While source is left every step starts with a symbol read, and a raise of that read ends it (R130, R216). -/
theorem enabledStep_of_readSymbol_raise {c : Cause} {i : Word} (hlt : s.inPos.toNat < s.srcLen.toNat)
    (h : readSymbol s = .raise c i t) : enabledStep s = .raise c i t := by
  cases hm : s.mode with
  | encode => rw [enabledStep_symbol hm hlt, h, Res.bind_raise]
  | decode =>
    by_cases htwo : s.inPos.toNat + 2 ≤ s.srcLen.toNat
    · rw [enabledStep_code hm htwo, readCode, h, Res.bind_raise, Res.bind_raise]
    · have htail : enabledStep s = decTailStep s := by
        unfold enabledStep
        rw [hm]
        dsimp only
        rw [if_neg (by omega), if_pos (by omega)]
      rw [htail, decTailStep, h, Res.bind_raise]

/-- A read that gets a bus error raises IO_READ, and changes nothing (R73). -/
theorem memRead_error {a : Nat} {i : Word} (ha : a < Config.addrSpace) (hf : busFault s.platform a .read = true) :
    memRead a i s = .raise .ioRead i s := by
  rw [memRead, if_neg (Nat.not_le.2 ha), if_pos hf]

/-- A symbol read that gets a bus error raises IO_READ at its offset (R154, R190). -/
theorem readSymbol_error (ha : s.srcAddr.toNat + s.inPos.toNat < Config.addrSpace)
    (hf : busFault s.platform (s.srcAddr.toNat + s.inPos.toNat) .read = true) :
    readSymbol s = .raise .ioRead s.inPos s := by
  rw [readSymbol, srcByteAddr, memRead_error ha hf, Res.bind_raise]

/-- Without a race a read that answers costs a free value exactly where the byte is not specified (R86; log 6). -/
theorem memRead_unraced {a : Nat} (i : Word) (ha : a < Config.addrSpace) (hf : busFault s.platform a .read = false)
    (hr : s.races = []) :
    ∃ b, memRead a i s = .ok b { s with freeCount := if covers s.unspec a then s.freeCount + 1 else s.freeCount } := by
  cases hu : covers s.unspec a with
  | false => exact ⟨_, memRead_known ha hf (by rw [hr]; rfl) hu⟩
  | true =>
    refine ⟨Config.freeByte s.freeCount, ?_⟩
    rw [memRead, if_neg (Nat.not_le.2 ha), if_neg (by rw [hf]; exact nofun), if_pos (by rw [hu, Bool.or_true])]
    rfl

theorem readSymbol_unraced (ha : s.srcAddr.toNat + s.inPos.toNat < Config.addrSpace)
    (hf : busFault s.platform (s.srcAddr.toNat + s.inPos.toNat) .read = false) (hr : s.races = []) :
    ∃ b, readSymbol s = .ok b { s with
      inPos := s.inPos + 1
      freeCount := if covers s.unspec (s.srcAddr.toNat + s.inPos.toNat) then s.freeCount + 1 else s.freeCount } := by
  obtain ⟨b, hb⟩ := memRead_unraced s.inPos ha hf hr
  exact ⟨b, by rw [readSymbol, srcByteAddr, hb, Res.bind_ok]⟩

/-! ### Writes -/

/-- A write that gets a bus error raises IO_WRITE, and changes nothing (R73). -/
theorem memWrite_error {a : Nat} {i : Word} {v : Byte} (ha : a < Config.addrSpace)
    (hf : busFault s.platform a .write = true) : memWrite a i v s = .raise .ioWrite i s := by
  rw [memWrite, if_neg (Nat.not_le.2 ha), if_pos hf]

/-- Bytes are written one part after the other (R78). -/
theorem putBytes_append (bs cs : List Byte) (s : State) :
    putBytes (bs ++ cs) s = (putBytes bs s).bind fun _ t => putBytes cs t := by
  induction bs generalizing s with
  | nil => rfl
  | cons b bs ih =>
    rw [List.cons_append, putBytes, putBytes]
    cases memWrite (s.dstAddr.toNat + s.outLen.toNat) s.outLen b s with
    | ok u s1 => exact ih _
    | raise c i s1 => rfl
    | stuck x => rfl

/-- A bus error on the byte at index `j` leaves the `j` bytes before it written, and raises IO_WRITE at that byte's offset
(R157, R188, R213). -/
theorem putBytes_error {bs : List Byte} {j : Nat} (hj : j < bs.length) (hl : s.outLen.toNat + bs.length < 2 ^ 32)
    (ha : s.dstAddr.toNat + s.outLen.toNat + bs.length ≤ Config.addrSpace) (he : firstWriteErrorAt s j) :
    ∃ t, putBytes bs s = .raise .ioWrite (s.outLen + BitVec.ofNat 32 j) t ∧
      t = { s with outLen := s.outLen + BitVec.ofNat 32 j, mem := t.mem, unspec := t.unspec } ∧
      holdsAt t (s.dstAddr.toNat + s.outLen.toNat) (bs.take j) ∧
      untouchedOutside (s.dstAddr.toNat + s.outLen.toNat) j s t := by
  obtain ⟨hgood, hbad⟩ := he
  have htake : (bs.take j).length = j := List.length_take_of_le hj.le
  obtain ⟨t, ht⟩ := putBytes_good (bs := bs.take j) (s := s) (by omega) (by omega) fun i hi => hgood i (htake ▸ hi)
  obtain ⟨hout, hholds, huntouched⟩ := putBytes_ok ht (by omega)
  have hframe := putBytes_frame ht
  rw [htake] at hout huntouched
  have hlen : t.outLen = s.outLen + BitVec.ofNat 32 j := by
    refine BitVec.eq_of_toNat_eq ?_
    rw [hout, BitVec.toNat_add, BitVec.toNat_ofNat]
    omega
  have hbyte : memWrite (t.dstAddr.toNat + t.outLen.toNat) t.outLen bs[j] t = .raise .ioWrite t.outLen t := by
    have haddr : t.dstAddr.toNat + t.outLen.toNat = s.dstAddr.toNat + s.outLen.toNat + j := by
      rw [hout, hframe, Nat.add_assoc]
    rw [haddr]
    refine memWrite_error (by omega) ?_
    rw [hframe]
    exact hbad
  refine ⟨t, ?_, hlen ▸ hframe, hholds, huntouched⟩
  calc putBytes bs s
      = putBytes (bs.take j ++ bs[j] :: bs.drop (j + 1)) s := by rw [List.getElem_cons_drop, List.take_append_drop]
    _ = .raise .ioWrite (s.outLen + BitVec.ofNat 32 j) t := by
        rw [putBytes_append, ht, Res.bind_ok, putBytes, hbyte, Res.bind_raise, hlen]

/-! ### The steps that write -/

/-- A symbol that no entry extends makes the symbol step emit (R154). -/
theorem encSymbol_emits {p : Nat} {b : Byte} (hc : s.cur = some p) (hf : find s.ed s.dictNext.toNat p b = none) :
    encSymbol b s = (emitCode p s).bind fun _ s1 => .ok () { enterE p b s1 with cur := some b.toNat } := by
  unfold encSymbol
  rw [hc]
  dsimp only
  rw [hf]

/-- With a pending match the flush emits (R158). -/
theorem encFlushStep_emits {p : Nat} (hc : s.cur = some p) :
    encFlushStep s = (emitCode p s).bind fun _ s1 => .ok () (completeOk s1) := by
  unfold encFlushStep
  rw [hc]

/-- With no source left an ENCODE flushes (R130). -/
theorem enabledStep_flush (hm : s.mode = .encode) (hend : s.srcLen.toNat ≤ s.inPos.toNat) :
    enabledStep s = encFlushStep s := by
  unfold enabledStep
  rw [hm]
  exact if_neg (Nat.not_lt.2 hend)

/-- Where an emission is due the step goes through it, IN_POS already moved on (R154, R158). -/
theorem enabledStep_of_emissionIsDue {p : Nat} {pos : Word} (h : emissionIsDue s p pos) :
    ∃ f, enabledStep s = (emitCode p { s with inPos := pos }).bind f := by
  obtain ⟨-, hm, hraces, hcur, ⟨hlt, rfl, ha, hf, hu, hfind⟩ | ⟨hend, rfl⟩⟩ := h
  · have hread := readSymbol_known ha hf (by rw [hraces]; rfl) hu
    refine ⟨_, Eq.trans ?_ (encSymbol_emits (s := { s with inPos := s.inPos + 1 }) hcur hfind)⟩
    rw [enabledStep_symbol hm hlt, hread, Res.bind_ok]
  · exact ⟨_, (enabledStep_flush hm (by rw [hend])).trans (encFlushStep_emits hcur)⟩

/-- The code of `codeIsRead` is read (R182). -/
theorem readCode_of_codeIsRead {c : Nat} (h : codeIsRead s c) : readCode s = .ok c { s with inPos := s.inPos + 2 } := by
  obtain ⟨-, -, hlt, hraces, ha, hbus, hc⟩ := h
  have hlen := s.srcLen.isLt
  rw [readCode_known (Nat.lt_of_lt_of_le (by omega) ha) (by omega) (fun i hi => (hbus i hi).1)
    (fun i _ => by rw [hraces]; rfl) (fun i hi => (hbus i hi).2), codeOf_eq, ← hc]

/-- A code that resolves to a string goes through writing it (R182). -/
theorem decCode_writes {c : Nat} {w : Str} (h : resolve c s = .str w) :
    decCode c s = (putString w.bytes s).bind fun _ s1 =>
      .ok () { enterD w.first s1 with prev := some c, codeCount := s1.codeCount + 1 } := by
  unfold decCode
  rw [h]

/-- The string of `stringIsDue` is what the code resolves to, wherever IN_POS is (R183 to R185). -/
theorem resolve_of_stringIsDue {c : Nat} {w : Str} (h : stringIsDue s c w) (pos : Word) :
    resolve c { s with inPos := pos } = .str w := by
  unfold resolve
  rcases h.2 with ⟨hp, hc, rfl⟩ | ⟨hp, hc, hw⟩ | ⟨p, v, hp, rfl, ho, hv, rfl⟩
  · rw [hp]
    exact if_neg (Nat.not_le.2 hc)
  · obtain ⟨p, hp⟩ := Option.ne_none_iff_exists'.1 hp
    rw [hp]
    dsimp only
    rw [if_pos hc, hw]
    rfl
  · rw [hp]
    dsimp only
    rw [if_neg (Nat.lt_irrefl _), if_pos ⟨rfl, ho⟩, hv]
    rfl

/-- Where a string is due the step goes through writing it, the code's two bytes already counted (R182). -/
theorem enabledStep_of_stringIsDue {c : Nat} {w : Str} (h : stringIsDue s c w) :
    ∃ f, enabledStep s = (putString w.bytes { s with inPos := s.inPos + 2 }).bind f := by
  have hwrites := decCode_writes (resolve_of_stringIsDue h (s.inPos + 2))
  obtain ⟨hcode, -⟩ := h
  have hread := readCode_of_codeIsRead hcode
  obtain ⟨-, hm, hlt, -⟩ := hcode
  refine ⟨_, Eq.trans ?_ hwrites⟩
  rw [enabledStep_code hm hlt, hread, Res.bind_ok]

/-- A step that goes through writing bytes and meets its first bus error at index `j` completes with IO_WRITE there (R213, R214). -/
theorem engineStep_write_error {bs : List Byte} {pos : Word} {j : Nat} (hb : s.busy = true) (hr : s.races = [])
    (hstep : ∀ {c i t}, putBytes bs { s with inPos := pos } = .raise c i t → enabledStep s = .raise c i t)
    (hroom : s.outLen.toNat + bs.length ≤ s.dstCap.toNat) (hw : s.dstAddr.toNat + s.dstCap.toNat ≤ 2 ^ 32)
    (hj : j < bs.length) (he : firstWriteErrorAt s j) :
    ∃ t, engineStep s = .next t ∧ t = { ioWriteAt s j with inPos := pos, mem := t.mem, unspec := t.unspec } ∧
      holdsAt t (s.dstAddr.toNat + s.outLen.toNat) (bs.take j) ∧
      untouchedOutside (s.dstAddr.toNat + s.outLen.toNat) j s t := by
  have hcap := s.dstCap.isLt
  obtain ⟨t, ht, hframe, hholds, huntouched⟩ :=
    putBytes_error (s := { s with inPos := pos }) hj (by dsimp only; omega)
      (Nat.le_trans (by dsimp only; omega) hw) he
  refine ⟨_, engineStep_raises hb (hstep ht) (by rw [hframe]; exact hr), ?_, hholds, huntouched⟩
  rw [hframe]
  rfl

end

/-! ### The statements -/

/-- Settles O30: the emission or the string is what the step goes through, and its bytes are written one by one. -/
theorem writeBusErrorKeepsTheBytesBeforeIt : Obligations.WriteBusErrorKeepsTheBytesBeforeIt := by
  refine ⟨fun s p j pos hdue hroom hw hj he => ?_, fun s c j w hdue hroom hw hj he => ?_⟩
  · obtain ⟨f, hstep⟩ := enabledStep_of_emissionIsDue hdue
    obtain ⟨hb, -, hr, -⟩ := hdue
    refine engineStep_write_error (bs := pack1 p) hb hr (fun ht => ?_) hroom hw hj he
    rw [hstep, emitCode, if_neg (Nat.not_lt.2 hroom), ht, Res.bind_raise, Res.bind_raise]
  · obtain ⟨f, hstep⟩ := enabledStep_of_stringIsDue hdue
    obtain ⟨⟨hb, -, -, hr, -⟩, -⟩ := hdue
    refine engineStep_write_error hb hr (fun ht => ?_) hroom hw hj he
    rw [hstep, putString, if_neg (Nat.not_lt.2 hroom), ht, Res.bind_raise]

/-- Settles O32: every step with source left starts with a symbol read, and a code step goes on with a second one. -/
theorem sourceBusErrorRaisesIoRead : Obligations.SourceBusErrorRaisesIoRead := by
  refine ⟨fun s hb hlt hr ha hf => engineStep_raises hb (enabledStep_of_readSymbol_raise hlt (readSymbol_error ha hf)) hr,
    fun s hb hm hlt hr ha hf1 hf2 => ?_⟩
  have hlen := s.srcLen.isLt
  have hpos : (s.inPos + 1).toNat = s.inPos.toNat + 1 := toNat_succ (by omega) (by decide)
  obtain ⟨hi, hread1⟩ := readSymbol_unraced (Nat.lt_of_succ_lt ha) hf1 hr
  have hread2 := readSymbol_error (s := { s with
      inPos := s.inPos + 1
      freeCount := if covers s.unspec (s.srcAddr.toNat + s.inPos.toNat) then s.freeCount + 1 else s.freeCount })
    (by rw [hpos]; exact ha) (by rw [hpos]; exact hf2)
  have hstep := enabledStep_code hm hlt
  rw [readCode, hread1, Res.bind_ok, hread2, Res.bind_raise, Res.bind_raise] at hstep
  exact engineStep_raises hb hstep hr

end Sys2Proof.Machine
end

section
/-! Where the engine writes (20_memory.md R77 to R79, 10_state.md R48): each piece of a step moves IN_POS and OUT_LEN forward inside
their windows, and writes only the destination bytes that OUT_LEN passes. -/

namespace Sys2Proof.Machine

/-! ### Advance -/

/-- What is said here of a state: its windows, the counters in them, and memory. -/
def windowView (s : State) : Word × Word × Word × Word × Word × Memory :=
  (s.srcLen, s.dstAddr, s.dstCap, s.inPos, s.outLen, s.mem)

/-- From `s` to `t` a piece of a step has moved the counters forward inside the windows, and has written only between OUT_LEN before
it and OUT_LEN after it (R78). -/
structure Advance (s t : State) : Prop where
  srcLen : t.srcLen = s.srcLen
  dstAddr : t.dstAddr = s.dstAddr
  dstCap : t.dstCap = s.dstCap
  in_ge : s.inPos.toNat ≤ t.inPos.toNat
  in_le : s.inPos.toNat ≤ s.srcLen.toNat → t.inPos.toNat ≤ s.srcLen.toNat
  out_ge : s.outLen.toNat ≤ t.outLen.toNat
  out_le : s.outLen.toNat ≤ s.dstCap.toNat → t.outLen.toNat ≤ s.dstCap.toNat
  kept : ∀ a, a < s.dstAddr.toNat + s.outLen.toNat ∨ s.dstAddr.toNat + t.outLen.toNat ≤ a →
    Memory.read t.mem a = Memory.read s.mem a

/-- A piece of a step from `s` that advances however it ends, raises included (R216). -/
def Res.Advances {α : Type} (s : State) : Res α → Prop
  | .ok _ t => Advance s t
  | .raise _ _ t => Advance s t
  | .stuck _ => True

section
variable {s t u : State}

theorem Advance.of_view (e : windowView t = windowView s) : Advance s t := by
  simp only [windowView, Prod.mk.injEq] at e
  obtain ⟨hsrc, hdst, hcap, hin, hout, hmem⟩ := e
  exact ⟨hsrc, hdst, hcap, hin ▸ Nat.le_refl _, fun h => hin ▸ h, hout ▸ Nat.le_refl _, fun h => hout ▸ h,
    fun _ _ => by rw [hmem]⟩

theorem Advance.refl (s : State) : Advance s s := .of_view rfl

theorem Advance.trans (h : Advance s t) (g : Advance t u) : Advance s u where
  srcLen := g.srcLen.trans h.srcLen
  dstAddr := g.dstAddr.trans h.dstAddr
  dstCap := g.dstCap.trans h.dstCap
  in_ge := Nat.le_trans h.in_ge g.in_ge
  in_le hs := h.srcLen ▸ g.in_le (h.srcLen ▸ h.in_le hs)
  out_ge := Nat.le_trans h.out_ge g.out_ge
  out_le hs := h.dstCap ▸ g.out_le (h.dstCap ▸ h.out_le hs)
  kept a ha := by
    have h1 := h.out_ge
    have h2 := g.out_ge
    rw [g.kept a (by rw [h.dstAddr]; omega), h.kept a (by omega)]

/-- IN_POS has moved on by `n` source bytes that are there. -/
theorem Advance.of_reads (n : Nat) (hn : s.inPos.toNat + n ≤ s.srcLen.toNat) (pos : Word) (free : Nat)
    (hpos : pos.toNat = s.inPos.toNat + n) : Advance s { s with inPos := pos, freeCount := free } :=
  ⟨rfl, rfl, rfl, hpos ▸ Nat.le_add_right _ n, fun _ => hpos ▸ hn, Nat.le_refl _, id, fun _ _ => rfl⟩

/-- One byte is written at DST_ADDR + OUT_LEN and counted (R157, R188). -/
theorem Advance.of_write (b : Byte) (hroom : s.outLen.toNat + 1 ≤ s.dstCap.toNat) :
    Advance s { busStore (s.dstAddr.toNat + s.outLen.toNat) b s with outLen := s.outLen + 1 } := by
  have hcap := s.dstCap.isLt
  have hout : (s.outLen + 1).toNat = s.outLen.toNat + 1 := toNat_succ (by omega) (by decide)
  refine ⟨rfl, rfl, rfl, Nat.le_refl _, id, hout ▸ Nat.le_succ _, fun _ => hout ▸ hroom, fun a ha => ?_⟩
  exact Memory.read_write_other b s.mem (by dsimp only at ha; omega)

/-! ### The pieces -/

theorem Res.Advances.after {α : Type} {r : Res α} (h : Res.Advances t r) (hs : Advance s t) : Res.Advances s r := by
  cases r with
  | ok v u => exact Advance.trans hs h
  | raise c i u => exact Advance.trans hs h
  | stuck x => trivial

theorem Res.Advances.bind {α β : Type} {r : Res α} {f : α → State → Res β} (h : Res.Advances s r)
    (hf : ∀ v t, r = .ok v t → Res.Advances t (f v t)) : Res.Advances s (r.bind f) := by
  cases r with
  | ok v t => exact (hf v t rfl).after h
  | raise c i t => exact h
  | stuck x => trivial

theorem readSymbol_advances (hlt : s.inPos.toNat < s.srcLen.toNat) : Res.Advances s (readSymbol s) := by
  cases h : readSymbol s with
  | ok b t =>
    have hlen := s.srcLen.isLt
    obtain ⟨-, e⟩ := readSymbol_ok h
    rw [Res.Advances, e]
    exact .of_reads 1 hlt _ _ (toNat_succ (by omega) (by decide))
  | raise c i t =>
    obtain ⟨-, -, rfl⟩ := readSymbol_raise h
    exact .refl t
  | stuck x => trivial

theorem readCode_advances (hlt : s.inPos.toNat + 2 ≤ s.srcLen.toNat) : Res.Advances s (readCode s) := by
  have hlen := s.srcLen.isLt
  refine (readSymbol_advances (by omega)).bind fun hi t ht => ?_
  obtain ⟨-, e⟩ := readSymbol_ok ht
  have hpos : t.inPos.toNat = s.inPos.toNat + 1 := by rw [e]; exact toNat_succ (by omega) (by decide)
  have hsrc : t.srcLen = s.srcLen := by rw [e]
  exact (readSymbol_advances (by rw [hpos, hsrc]; omega)).bind fun lo u _ => Advance.refl u

/-- Bytes for which there is room are written between OUT_LEN before and after them, however the writing ends (R78). -/
theorem putBytes_advances {bs : List Byte} (hroom : s.outLen.toNat + bs.length ≤ s.dstCap.toNat) :
    Res.Advances s (putBytes bs s) := by
  induction bs generalizing s with
  | nil => exact Advance.refl s
  | cons b bs ih =>
    rw [List.length_cons] at hroom
    have hcap := s.dstCap.isLt
    rw [putBytes]
    cases h : memWrite (s.dstAddr.toNat + s.outLen.toNat) s.outLen b s with
    | ok v t =>
      obtain ⟨-, -, rfl⟩ := memWrite_ok h
      have hout : (s.outLen + 1).toNat = s.outLen.toNat + 1 := toNat_succ (by omega) (by decide)
      have hrest : (s.outLen + 1).toNat + bs.length ≤ s.dstCap.toNat := by omega
      exact (ih (s := { busStore _ b s with outLen := s.outLen + 1 }) hrest).after (.of_write b (by omega))
    | raise c i t =>
      obtain ⟨-, -, rfl, -⟩ := memWrite_raise h
      exact Advance.refl t
    | stuck x => trivial

theorem emitCode_advances (c : Nat) (s : State) : Res.Advances s (emitCode c s) := by
  unfold emitCode
  split
  · exact Advance.refl s
  · rename_i hroom
    exact (putBytes_advances (bs := pack1 c) (Nat.not_lt.1 hroom)).bind fun _ t _ => Advance.of_view rfl

theorem putString_advances (bs : List Byte) (s : State) : Res.Advances s (putString bs s) := by
  unfold putString
  split
  · exact Advance.refl s
  · rename_i hroom
    exact putBytes_advances (Nat.not_lt.1 hroom)

theorem encSymbol_advances (b : Byte) (s : State) : Res.Advances s (encSymbol b s) := by
  unfold encSymbol
  split
  · exact Advance.of_view rfl
  · rename_i p _
    split
    · exact Advance.of_view rfl
    · refine (emitCode_advances p s).bind fun _ t _ => Advance.of_view ?_
      rcases enterE_cases p b t with ⟨-, h⟩ | ⟨-, h⟩ <;> rw [h] <;> rfl

theorem decCode_advances (c : Nat) (s : State) : Res.Advances s (decCode c s) := by
  unfold decCode
  split
  · exact Advance.refl s
  · trivial
  · rename_i w _
    refine (putString_advances w.bytes s).bind fun _ t _ => Advance.of_view ?_
    rcases enterD_cases w.first t with ⟨p, -, -, h⟩ | ⟨-, h⟩ <;> rw [h] <;> rfl

/-- A completion moves nothing (R214). -/
theorem completeOk_advances (s : State) : Res.Advances s (Res.ok () (completeOk s)) := Advance.of_view rfl

theorem enabledStep_advances (s : State) : Res.Advances s (enabledStep s) := by
  unfold enabledStep
  split
  · split
    · rename_i hlt
      exact (readSymbol_advances hlt).bind fun b t _ => encSymbol_advances b t
    · unfold encFlushStep
      split
      · exact completeOk_advances s
      · rename_i p _
        exact (emitCode_advances p s).bind fun _ t _ => completeOk_advances t
  · split
    · exact (readCode_advances (by omega)).bind fun c t _ => decCode_advances c t
    · split
      · exact (readSymbol_advances (by omega)).bind fun _ t _ => completeOk_advances t
      · exact completeOk_advances s

theorem engineStep_advances (hb : s.busy = true) (h : engineStep s = .next t) : Advance s t := by
  have hstep := enabledStep_advances s
  rw [engineStep_busy hb] at h
  rcases finish_next h with ⟨u, e⟩ | ⟨c, i, s1, e, rfl⟩ <;> rw [e] at hstep
  · exact hstep
  · exact Advance.trans hstep (.of_view rfl)

/-- The source window lies outside what an operation with legal windows writes (R79, R127). -/
theorem Advance.keeps_source (h : Advance s t) (hr : rangeCheck s = 0) (hout : s.outLen.toNat ≤ s.dstCap.toNat) {a : Nat}
    (ha : windowHas (srcWindow s) a = true) : Memory.read t.mem a = Memory.read s.mem a := by
  obtain ⟨-, -, hapart⟩ := rangeCheck_eq_zero hr
  obtain ⟨hlo, hhi⟩ := (windowHas_iff _ _).1 ha
  have hle := h.out_le hout
  dsimp only [srcWindow] at hlo hhi
  exact h.kept a (by omega)

end

/-! ### The statement -/

/-- Settles O45: a step is an advance, the invariant bounds the counters it starts from, and legal windows are apart. -/
theorem engineWritesOnlyItsNextBytes : Obligations.EngineWritesOnlyItsNextBytes := by
  intro s t hi hb h
  have ha := engineStep_advances hb h
  have hinv := hi.busy_inv hb
  exact ⟨ha.out_ge, ha.out_le hinv.out_len_le, ha.in_ge, ha.in_le hinv.in_pos_le, ha.kept,
    fun a => ha.keeps_source hinv.range_ok hinv.out_len_le⟩

end Sys2Proof.Machine
end

section
/-! The encoded formats (30_encoding.md R100): the command word and its decoder (R101, R105, R106), the two bytes of a packed code
(R102, R103), and what the launch lines of a host script run (R112). -/

namespace Sys2Proof.Machine

/-! ### Command words -/

/-- A command word is its two fields, MBZ above OP (R101). -/
theorem mbzField_append_opField (w : Word) : mbzField w ++ opField w = w :=
  (BitVec.extractLsb'_append_extractLsb'_eq_extractLsb' rfl).trans BitVec.extractLsb'_eq_self

theorem mbzField_append (m : BitVec 28) (op : BitVec 4) : mbzField (m ++ op) = m := BitVec.extractLsb'_append_eq_left

theorem opField_append (m : BitVec 28) (op : BitVec 4) : opField (m ++ op) = op := BitVec.extractLsb'_append_eq_right

/-- MBZ holds the bits from 4 up (R101). -/
theorem mbzField_toNat (w : Word) : (mbzField w).toNat = w.toNat / 16 := by
  have := w.isLt
  simp only [mbzField, BitVec.extractLsb'_toNat, Nat.shiftRight_eq_div_pow]
  omega

/-- With MBZ = 0 the OP alone decides (R105). -/
theorem decode_append (op : BitVec 4) : decode ((0 : BitVec 28) ++ op) = decodeOp op := by
  rw [decode, mbzField_append, if_pos rfl, opField_append]

theorem decode_mbz_ne_zero {w : Word} (h : mbzField w ≠ 0) : decode w = .error .mbzNotZero := by
  rw [decode, if_neg h]

theorem decodeOp_opOf (i : Instr) : decodeOp (opOf i) = .ok i := by cases i <;> rfl

theorem decodeOp_eq_ok {op : BitVec 4} {i : Instr} (h : decodeOp op = .ok i) : op = opOf i := by
  unfold decodeOp at h
  split_ifs at h <;> (cases h; assumption)

theorem decodeOp_reserved {op : BitVec 4} (h : 4 ≤ op.toNat) : decodeOp op = .error (.reservedOp op) := by
  have hne : ∀ k : BitVec 4, k.toNat < 4 → op ≠ k := fun k hk e => by
    subst e
    omega
  rw [decodeOp, if_neg (hne 0 (by decide)), if_neg (hne 1 (by decide)), if_neg (hne 2 (by decide)),
    if_neg (hne 3 (by decide))]

theorem decode_encode (i : Instr) : decode (encode i) = .ok i := by
  rw [encode, decode_append, decodeOp_opOf]

/-- A legal word is the encoding of its command. -/
theorem eq_encode_of_decode {w : Word} {i : Instr} (h : decode w = .ok i) : w = encode i := by
  by_cases hm : mbzField w = 0
  · rw [← mbzField_append_opField w, hm, decode_append] at h
    rw [encode, ← decodeOp_eq_ok h, ← hm, mbzField_append_opField]
  · rw [decode_mbz_ne_zero hm] at h
    cases h

/-! ### Packed codes -/

theorem pack1_eq_div_mod {c : Nat} (h : c ≤ 65535) : pack1 c = [BitVec.ofNat 8 (c / 256), BitVec.ofNat 8 (c % 256)] := by
  have hi : (BitVec.ofNat 16 c).extractLsb' 8 8 = BitVec.ofNat 8 (c / 256) := by
    apply BitVec.eq_of_toNat_eq
    simp only [BitVec.extractLsb'_toNat, BitVec.toNat_ofNat, Nat.shiftRight_eq_div_pow]
    omega
  have lo : (BitVec.ofNat 16 c).extractLsb' 0 8 = BitVec.ofNat 8 (c % 256) := by
    apply BitVec.eq_of_toNat_eq
    simp only [BitVec.extractLsb'_toNat, BitVec.toNat_ofNat, Nat.shiftRight_eq_div_pow]
    omega
  rw [pack1, hi, lo]

/-- The bytes at offsets 2i and 2i + 1 are those of code i (R102). -/
theorem pack_getElem? {cs : List Nat} {i c : Nat} (h : cs[i]? = some c) {j : Nat} (hj : j < 2) :
    (pack cs)[2 * i + j]? = (pack1 c)[j]? := by
  induction cs generalizing i with
  | nil => simp at h
  | cons d ds ih =>
    cases i with
    | zero =>
      obtain rfl : d = c := by simpa using h
      rw [pack_cons, Nat.mul_zero, Nat.zero_add, List.getElem?_append_left (by simpa using hj)]
    | succ i =>
      rw [pack_cons, List.getElem?_append_right (by rw [pack1_length]; omega), pack1_length, ← ih (by simpa using h)]
      congr 1
      omega

/-- Code i is `{y[2i], y[2i + 1]}` (R103, R109). -/
theorem unpack_getElem? {y : List Byte} {i : Nat} (h : i < y.length / 2) :
    ∃ hi lo, y[2 * i]? = some hi ∧ y[2 * i + 1]? = some lo ∧ (unpack y)[i]? = some (codeOf hi lo) := by
  induction y using unpack.induct generalizing i with
  | case1 hi lo rest ih =>
    cases i with
    | zero => exact ⟨hi, lo, rfl, rfl, rfl⟩
    | succ i =>
      obtain ⟨a, b, ha, hb, hc⟩ := ih (i := i) (by simp only [List.length_cons] at h; omega)
      exact ⟨a, b, ha, hb, hc⟩
  | case2 b => simp at h
  | case3 => simp at h

/-! ### Script launches -/

theorem runSteps_one (s : State) : runSteps 1 s = step s := by
  cases h : step s <;> simp [runSteps, Host.Core.run, Sys2Proof.core, h]

/-- A run starts with the register write that comes next. -/
theorem runSteps_writes_reg (n : Nat) {s t : State} {r : RegName} {w : Word} {ts : List Turn}
    (h : s.turns = .write 32 (regAddr s.platform r) w :: ts)
    (hw : writeReg r w { s with turns := ts, resp := .written } = .next t) : runSteps (n + 1) s = runSteps n t :=
  runSteps_succ n ((step_writes_reg h).trans hw)

/-- The turns of a launch: the four operand registers, then CMD (R112). -/
def launchTurns (p : Platform) (a n d k w : Word) : List Turn :=
  [.write 32 (regAddr p .srcAddr) a, .write 32 (regAddr p .srcLen) n, .write 32 (regAddr p .dstAddr) d,
    .write 32 (regAddr p .dstCap) k, .write 32 (regAddr p .cmd) w]

theorem scriptTurns_encode (p : Platform) (a n d k : Word) :
    scriptTurns p [.encode a n d k] = launchTurns p a n d k (encode .encode) := rfl

theorem scriptTurns_decode (p : Platform) (a n d k : Word) :
    scriptTurns p [.decode a n d k] = launchTurns p a n d k (encode .decode) := rfl

theorem writeReg_srcAddr_idle {s : State} (w : Word) (hb : s.busy = false) :
    writeReg .srcAddr w s = .next { s with srcAddr := w } := congrArg _ (whenIdle_idle _ hb)

theorem writeReg_srcLen_idle {s : State} (w : Word) (hb : s.busy = false) :
    writeReg .srcLen w s = .next { s with srcLen := w } := congrArg _ (whenIdle_idle _ hb)

theorem writeReg_dstAddr_idle {s : State} (w : Word) (hb : s.busy = false) :
    writeReg .dstAddr w s = .next { s with dstAddr := w } := congrArg _ (whenIdle_idle _ hb)

theorem writeReg_dstCap_idle {s : State} (w : Word) (hb : s.busy = false) :
    writeReg .dstCap w s = .next { s with dstCap := w } := congrArg _ (whenIdle_idle _ hb)

/-- While idle each operand register takes its value, and the command word then decodes to its command. The state is reduced to
one update after each write: Lean does not compare nested updates in reasonable time. -/
theorem runSteps_launchTurns {s : State} (hb : s.busy = false) {a n d k : Word} {i : Instr}
    (ht : s.turns = launchTurns s.platform a n d k (encode i)) :
    runSteps 5 s =
      exec i { s with turns := [], resp := .written, srcAddr := a, srcLen := n, dstAddr := d, dstCap := k } := by
  rw [runSteps_writes_reg 4 ht (writeReg_srcAddr_idle a hb)]
  dsimp only
  rw [runSteps_writes_reg 3 (by rfl) (writeReg_srcLen_idle n (by exact hb))]
  dsimp only
  rw [runSteps_writes_reg 2 (by rfl) (writeReg_dstAddr_idle d (by exact hb))]
  dsimp only
  rw [runSteps_writes_reg 1 (by rfl) (writeReg_dstCap_idle k (by exact hb))]
  dsimp only
  rw [runSteps_one, step_writes_reg (by rfl), writeReg, writeCmd, decode_encode]

/-! ### The statements -/

/-- Settles O2: with MBZ = 0 the decoder inverts the OP table, and with any other MBZ it rejects. -/
theorem decodeAcceptsExactlyTheFourWords : Obligations.DecodeAcceptsExactlyTheFourWords := by
  refine ⟨fun i _ => decode_encode i, fun _ _ => eq_encode_of_decode, fun w h => decode_mbz_ne_zero fun hm => h ?_⟩
  rw [← mbzField_toNat, hm]
  rfl

/-- Settles O3: unpacking takes two bytes at a time. -/
theorem unpackCutsAndInvertsPack : Obligations.UnpackCutsAndInvertsPack := by
  refine ⟨unpack_length, fun y i h => ?_, fun cs h => unpack_pack fun c hc => Nat.lt_succ_of_le (h c hc)⟩
  obtain ⟨hi, lo, hhi, hlo, hcode⟩ := unpack_getElem? h
  exact ⟨hi, lo, hhi, hlo, by rw [hcode, codeOf_eq]⟩

/-- Settles O4: the bytes at 2i and 2i + 1 are the two of code i, by induction on the sequence. -/
theorem packWritesHighByteFirst : Obligations.PackWritesHighByteFirst := by
  refine fun cs => ⟨pack_length cs, fun i c h hc => ⟨?_, ?_⟩⟩
  · exact (pack_getElem? h (j := 0) (by decide)).trans (by rw [pack1_eq_div_mod hc]; rfl)
  · exact (pack_getElem? h (j := 1) (by decide)).trans (by rw [pack1_eq_div_mod hc]; rfl)

/-- Settles O1: the four words are the encodings of the commands, and no other OP has a row in the table. -/
theorem commandWordsOfTheOpcodeMap : Obligations.CommandWordsOfTheOpcodeMap :=
  ⟨decode_encode .nop, decode_encode .encode, decode_encode .decode, decode_encode .abort,
    fun op h => (decode_append op).trans (decodeOp_reserved h)⟩

/-- Settles O60: both lines are the operand writes followed by a command word. -/
theorem scriptLaunchRunsTheCommand : Obligations.ScriptLaunchRunsTheCommand := by
  intro s a n d k hb
  rw [scriptTurns_encode, scriptTurns_decode]
  constructor <;> rw [runSteps_launchTurns (by exact hb) (by rfl)]

end Sys2Proof.Machine
end

section
/-! What the four commands do to the state (40_commands.md R120 to R128): the bits of the range check, what a command or an illegal
word answers while BUSY = 1 and while idle, and what every command leaves alone. -/

namespace Sys2Proof.Machine

/-! ### The range check -/

theorem rangeCheck_bit_src (s : State) :
    (rangeCheck s).getLsbD 0 = true ↔ s.srcAddr.toNat + s.srcLen.toNat > 2 ^ 32 := by
  have low : ∀ a b c : Bool, (BitVec.ofBool a ++ BitVec.ofBool b ++ BitVec.ofBool c).getLsbD 0 = c := by decide
  rw [rangeCheck, low, decide_eq_true_iff]

theorem rangeCheck_bit_dst (s : State) :
    (rangeCheck s).getLsbD 1 = true ↔ s.dstAddr.toNat + s.dstCap.toNat > 2 ^ 32 := by
  have middle : ∀ a b c : Bool, (BitVec.ofBool a ++ BitVec.ofBool b ++ BitVec.ofBool c).getLsbD 1 = b := by decide
  rw [rangeCheck, middle, decide_eq_true_iff]

theorem rangeCheck_bit_overlap (s : State) :
    (rangeCheck s).getLsbD 2 = true ↔ 0 < s.srcLen.toNat ∧ 0 < s.dstCap.toNat ∧
      s.srcAddr.toNat < s.dstAddr.toNat + s.dstCap.toNat ∧ s.dstAddr.toNat < s.srcAddr.toNat + s.srcLen.toNat := by
  have high : ∀ a b c : Bool, (BitVec.ofBool a ++ BitVec.ofBool b ++ BitVec.ofBool c).getLsbD 2 = a := by decide
  rw [rangeCheck, high, decide_eq_true_iff]

/-! ### Illegal words -/

/-- OP holds the bits below 4 (R101). -/
theorem opField_toNat (w : Word) : (opField w).toNat = w.toNat % 16 := by
  simp only [opField, BitVec.extractLsb'_toNat, Nat.shiftRight_eq_div_pow]
  omega

/-- A word with a non-zero MBZ or a reserved OP is illegal (R106). -/
theorem decode_illegal {w : Word} (h : w.toNat / 16 ≠ 0 ∨ 4 ≤ w.toNat % 16) : ∃ r, decode w = .error r := by
  by_cases hm : mbzField w = 0
  · have hmbz : w.toNat / 16 = 0 := by rw [← mbzField_toNat, hm]; rfl
    have hop : 4 ≤ (opField w).toNat := by rw [opField_toNat]; omega
    exact ⟨_, by rw [decode, if_pos hm, decodeOp_reserved hop]⟩
  · exact ⟨_, decode_mbz_ne_zero hm⟩

section
variable {s t : State} {w : Word}

theorem writeCmd_command {i : Instr} (hd : decode w = .ok i) : writeCmd w s = exec i s := by
  rw [writeCmd, hd]

theorem writeCmd_illegal {r : Reject} (hd : decode w = .error r) : writeCmd w s = execIllegal w s := by
  rw [writeCmd, hd]

theorem execIllegal_busy (hb : s.busy = true) : execIllegal w s = .next (setIgn s) := by
  rw [execIllegal, if_pos hb]

theorem execIllegal_idle (hb : s.busy = false) : execIllegal w s = .next (reject .cmdIllegal w (clearForIssue s)) := by
  rw [execIllegal, if_neg (by rw [hb]; exact nofun)]

/-- ENCODE, DECODE and an illegal word are all ignored with IGN while BUSY = 1 (R128). -/
theorem writeCmd_busy (hb : s.busy = true)
    (hw : decode w = .ok .encode ∨ decode w = .ok .decode ∨ ∃ r, decode w = .error r) : writeCmd w s = .next (setIgn s) := by
  rcases hw with hd | hd | ⟨r, hd⟩
  · exact (writeCmd_command hd).trans (launch_busy .encode hb)
  · exact (writeCmd_command hd).trans (launch_busy .decode hb)
  · exact (writeCmd_illegal hd).trans (execIllegal_busy hb)

/-! ### ABORT -/

theorem exec_abort_busy (hb : s.busy = true) : exec .abort s = .next (completeError .aborted 0 s) := by
  rw [exec, execAbort, if_pos hb]

theorem exec_abort_idle (hb : s.busy = false) : exec .abort s = .next s := by
  rw [exec, execAbort, if_neg (by rw [hb]; exact nofun)]

theorem endRaces_keeps_unspec (hr : s.races = []) : (endRaces s).unspec = s.unspec := by rw [endRaces_clean hr]

/-! ### ERRCODE after a rejection and after an abort (R29, R211, R212) -/

theorem errCodeWord_cmdIllegal : errCodeWord .cmdIllegal = 0x320 := by decide

theorem errCodeWord_aborted : errCodeWord .aborted = 0x330 := by decide

/-! ### The frame of the commands -/

/-- What no command touches: the state without the flags, the error report, the counters, e.cur and e.prev, and the two fields that
record races (R120, R126, R214). -/
def commandFrame (s : State) : State :=
  { s with
    busy := false, done := false, err := false, ign := false, mode := .encode, cause := .none, errInfo := 0
    inPos := 0, outLen := 0, codeCount := 0, dictNext := 0, cur := none, prev := none, races := [], unspec := [] }

theorem exec_keeps_frame {i : Instr} (h : exec i s = .next t) : commandFrame t = commandFrame s := by
  rcases exec_next h with rfl | ⟨-, rfl⟩ | ⟨m, -, -, rfl⟩ | ⟨m, -, -, -, rfl⟩ | ⟨-, rfl⟩
  · rfl
  · rfl
  · rfl
  · cases m <;> rfl
  · rfl

/-- Only the end of a raced operation makes contents unspecified (R86). -/
theorem exec_keeps_unspec {i : Instr} (h : exec i s = .next t) (hr : s.races = []) : t.unspec = s.unspec := by
  rcases exec_next h with rfl | ⟨-, rfl⟩ | ⟨m, -, -, rfl⟩ | ⟨m, -, -, -, rfl⟩ | ⟨-, rfl⟩
  · rfl
  · rfl
  · rfl
  · cases m <;> rfl
  · exact endRaces_keeps_unspec hr

/-- A command may set IGN; none clears it (R126, R128). -/
theorem exec_keeps_ign_set {i : Instr} (h : exec i s = .next t) (hi : s.ign = true) : t.ign = true := by
  rcases exec_next h with rfl | ⟨-, rfl⟩ | ⟨m, -, -, rfl⟩ | ⟨m, -, -, -, rfl⟩ | ⟨-, rfl⟩
  · exact hi
  · rfl
  · exact hi
  · cases m <;> exact hi
  · exact hi

theorem knownByte_congr (hu : t.unspec = s.unspec) (hm : t.mem = s.mem) (a : Nat) : knownByte t a = knownByte s a := by
  rw [knownByte, hu, hm, knownByte]

/-- NOP and ABORT leave the state, or complete the running operation as aborted (R121, R124). -/
theorem exec_nop_or_abort {i : Instr} (hi : i = .nop ∨ i = .abort) (h : exec i s = .next t) :
    t = s ∨ t = completeError .aborted 0 s := by
  rcases hi with rfl | rfl
  · cases h
    exact .inl rfl
  · cases hb : s.busy with
    | false =>
      rw [exec_abort_idle hb] at h
      cases h
      exact .inl rfl
    | true =>
      rw [exec_abort_busy hb] at h
      cases h
      exact .inr rfl

end

/-! ### The statements -/

/-- Settles O12: the three bits are read off their places in the concatenation, and a launch rejects any non-zero value. -/
theorem badRangeIsRejected : Obligations.BadRangeIsRejected := fun s =>
  ⟨rangeCheck_bit_src s, rangeCheck_bit_dst s, rangeCheck_bit_overlap s,
    fun hb hr => ⟨launch_bad_range .encode hb hr, launch_bad_range .decode hb hr⟩⟩

/-- Settles O14: such a word decodes to no command, so the CMD write clears for issue and rejects. -/
theorem illegalWordIsRejected : Obligations.IllegalWordIsRejected := by
  intro s w ts hb ht hw
  obtain ⟨r, hd⟩ := decode_illegal hw
  have hstep : step s = .next (reject .cmdIllegal w (clearForIssue { s with turns := ts, resp := .written })) := by
    rw [step_writes_reg ht, writeReg, writeCmd_illegal hd, execIllegal_idle (by exact hb)]
  exact ⟨_, hstep, errCodeWord_cmdIllegal, rfl⟩

/-- Settles O17: no command reaches the frame, and NOP and ABORT write no counter. -/
theorem commandsLeaveMemoryAndConfiguration : Obligations.CommandsLeaveMemoryAndConfiguration := by
  refine ⟨fun i s t h => ?_, fun i s t hi h => ?_⟩
  · have frame := exec_keeps_frame h
    have hmem : t.mem = s.mem := exec_keeps_mem h
    exact ⟨hmem, (congrArg State.ed frame :), (congrArg State.dd frame :), (congrArg State.decCeil frame :),
      (congrArg State.irqEn frame :), (congrArg State.srcAddr frame :), (congrArg State.srcLen frame :),
      (congrArg State.dstAddr frame :), (congrArg State.dstCap frame :), (congrArg State.platform frame :),
      (congrArg State.turns frame :), (congrArg State.resp frame :), (congrArg State.freeCount frame :),
      fun hr => knownByte_congr (exec_keeps_unspec h hr) hmem, exec_keeps_ign_set h⟩
  · rcases exec_nop_or_abort hi h with rfl | rfl <;> exact ⟨rfl, rfl, rfl, rfl, rfl, rfl, rfl, rfl⟩

/-- Settles O10: NOP's meaning is the state it is given. -/
theorem nopChangesNothing : Obligations.NopChangesNothing := fun _ => rfl

/-- Settles O11: a launch that passes its two checks is cleared for issue and accepted. -/
theorem launchIsAccepted : Obligations.LaunchIsAccepted := fun _ hb hr hd =>
  ⟨launch_accept .encode hb hr hd, launch_accept .decode hb hr hd⟩

/-- Settles O13: the write is answered, and each of the three kinds of word then only sets IGN. -/
theorem commandsWhileBusyAreIgnored : Obligations.CommandsWhileBusyAreIgnored := by
  intro s w ts hb ht hw
  rw [step_writes_reg ht, writeReg]
  exact writeCmd_busy (s := { s with turns := ts, resp := .written }) hb hw

/-- Settles O15: a running operation gets the completion with ABORTED, and an idle block is left as it is. -/
theorem abortCompletesARunningOperation : Obligations.AbortCompletesARunningOperation :=
  ⟨fun _ hb => ⟨_, exec_abort_busy hb, rfl, endRaces_keeps_unspec, errCodeWord_aborted⟩, fun _ => exec_abort_idle⟩

end Sys2Proof.Machine
end

section
/-! Every running operation ends (40_commands.md R131): each engine step of an operation that goes on takes a symbol or a code from
the source, and the step that finds none completes. -/

namespace Sys2Proof.Machine

/-- How many engine steps a running operation takes at most: one for each symbol or code that is left, and a last one (R131). -/
def stepBound (s : State) : Nat :=
  match s.mode with
  | .encode => s.srcLen.toNat - s.inPos.toNat + 1
  | .decode => (s.srcLen.toNat - s.inPos.toNat) / 2 + 1

section
variable {s t : State}

theorem stepBound_encode (hm : s.mode = .encode) : stepBound s = s.srcLen.toNat - s.inPos.toNat + 1 := by
  rw [stepBound, hm]

theorem stepBound_decode (hm : s.mode = .decode) : stepBound s = (s.srcLen.toNat - s.inPos.toNat) / 2 + 1 := by
  rw [stepBound, hm]

theorem stepBound_pos (s : State) : 0 < stepBound s := by
  cases hm : s.mode with
  | encode => rw [stepBound_encode hm]; exact Nat.succ_pos _
  | decode => rw [stepBound_decode hm]; exact Nat.succ_pos _

/-! ### What a step takes from the source -/

theorem emitCode_keeps_inPos {c : Nat} {u : Unit} (h : emitCode c s = .ok u t) : t.inPos = s.inPos := by
  obtain ⟨-, s1, h1, rfl⟩ := emitCode_ok h
  rw [putBytes_frame h1]

theorem enterE_keeps_inPos (p : Nat) (b : Byte) (s : State) : (enterE p b s).inPos = s.inPos := by
  rcases enterE_cases p b s with ⟨-, h⟩ | ⟨-, h⟩ <;> rw [h]

theorem enterD_keeps_inPos (b : Byte) (s : State) : (enterD b s).inPos = s.inPos := by
  rcases enterD_cases b s with ⟨p, -, -, h⟩ | ⟨-, h⟩ <;> rw [h]

theorem encSymbol_keeps_inPos {b : Byte} {u : Unit} (h : encSymbol b s = .ok u t) : t.inPos = s.inPos := by
  rcases encSymbol_ok h with ⟨-, rfl⟩ | ⟨p, k, -, -, rfl⟩ | ⟨p, s1, -, -, h1, rfl⟩
  · rfl
  · rfl
  · exact (enterE_keeps_inPos p b s1).trans (emitCode_keeps_inPos h1)

theorem decCode_keeps_inPos {c : Nat} {u : Unit} (h : decCode c s = .ok u t) : t.inPos = s.inPos := by
  obtain ⟨w, s1, -, h1, rfl⟩ := decCode_ok h
  refine (enterD_keeps_inPos w.first s1).trans ?_
  rw [putBytes_frame (putString_ok h1).2]

/-- A symbol step that succeeds has taken one source byte (R154). -/
theorem encSymbolStep_takes {u : Unit} (h : encSymbolStep s = .ok u t) : t.inPos = s.inPos + 1 := by
  obtain ⟨b, s1, h1, h2⟩ := Res.bind_eq_ok h
  rw [encSymbol_keeps_inPos h2, (readSymbol_ok h1).2]

/-- A code step that succeeds has taken two source bytes (R182). -/
theorem decCodeStep_takes {u : Unit} (h : decCodeStep s = .ok u t) : t.inPos = s.inPos + 2 := by
  obtain ⟨c, s1, h1, h2⟩ := Res.bind_eq_ok h
  rw [decCode_keeps_inPos h2, (readCode_ok h1).2]

/-- An operation goes on only past a symbol step or a code step; the flush, tail and end steps complete (R130). -/
theorem enabledStep_goes_on (h : enabledStep s = .ok () t) (hb : t.busy = true) :
    (s.mode = .encode ∧ s.inPos.toNat < s.srcLen.toNat ∧ encSymbolStep s = .ok () t) ∨
      (s.mode = .decode ∧ s.inPos.toNat + 2 ≤ s.srcLen.toNat ∧ decCodeStep s = .ok () t) := by
  have not_completed : ∀ {u}, t ≠ completeOk u := by
    rintro u rfl
    cases hb
  unfold enabledStep at h
  split at h
  · rename_i hm
    split at h
    · rename_i hlt
      exact .inl ⟨hm, hlt, h⟩
    · rcases encFlushStep_ok h with ⟨-, e⟩ | ⟨p, s1, -, -, e⟩ <;> exact absurd e not_completed
  · rename_i hm
    split at h
    · rename_i hlt
      exact .inr ⟨hm, by omega, h⟩
    · split at h
      · obtain ⟨b, s1, -, h2⟩ := Res.bind_eq_ok h
        cases h2
        exact absurd rfl not_completed
      · cases h
        exact absurd rfl not_completed

/-- A step after which the operation goes on uses up one of its steps. -/
theorem stepBound_decreases (h : enabledStep s = .ok () t) (hp : Progress s t) (hb : t.busy = true) :
    stepBound t < stepBound s := by
  have hlen := s.srcLen.isLt
  rcases enabledStep_goes_on h hb with ⟨hm, hlt, hs⟩ | ⟨hm, hlt, hs⟩
  · have hpos : t.inPos.toNat = s.inPos.toNat + 1 := by
      rw [encSymbolStep_takes hs]
      exact toNat_succ (by omega) (by decide)
    rw [stepBound_encode hm, stepBound_encode (hp.mode.trans hm), hp.srcLen, hpos]
    omega
  · have hpos : t.inPos.toNat = s.inPos.toNat + 2 := by
      rw [decCodeStep_takes hs, BitVec.toNat_add, show BitVec.toNat (2 : Word) = 2 from rfl, Nat.mod_eq_of_lt (by omega)]
    rw [stepBound_decode hm, stepBound_decode (hp.mode.trans hm), hp.srcLen, hpos]
    omega

/-! ### The engine alone -/

/-- Under the invariant the engine's move answers a next state. -/
theorem Inv.engineStep_answers (h : Inv s) (ht : s.turns = []) : ∃ t, Machine.engineStep s = .next t := by
  cases he : Machine.engineStep s with
  | next t => exact ⟨t, rfl⟩
  | fault x => exact absurd ((step_alone ht).trans he) h.step_not_fault
  | refused r => exact absurd he (engineStep_not_refused s r)

/-- A step of a running operation ends it with DONE = 1, or leaves it running with fewer steps to go. -/
theorem engineStep_ends_or_goes_on (hb : s.busy = true) (h : engineStep s = .next t) :
    t.turns = s.turns ∧ (t.busy = false ∧ t.done = true ∨ t.busy = true ∧ stepBound t < stepBound s) := by
  have turns : ∀ {u}, Progress s u → u.turns = s.turns := fun hp => (congrArg State.turns hp.same :)
  rcases engineStep_next h with ⟨hidle, -⟩ | ⟨-, ⟨he, hp⟩ | ⟨u, hp, rfl⟩ | ⟨c, i, u, hp, -, rfl⟩⟩
  · rw [hb] at hidle
    cases hidle
  · have hbt := hp.busy.trans hb
    exact ⟨turns hp, .inr ⟨hbt, stepBound_decreases he hp hbt⟩⟩
  · exact ⟨(turns hp :), .inl ⟨rfl, rfl⟩⟩
  · exact ⟨(turns hp :), .inl ⟨rfl, rfl⟩⟩

/-- A running operation has ended after any number of steps that reaches its bound. -/
theorem Inv.runs_to_its_end {n : Nat} (h : Inv s) (hb : s.busy = true) (ht : s.turns = []) (hn : stepBound s ≤ n) :
    ∃ t, runSteps n s = .next t ∧ t.busy = false ∧ t.done = true := by
  induction n generalizing s with
  | zero => exact absurd (stepBound_pos s) (Nat.not_lt.2 hn)
  | succ n ih =>
    obtain ⟨u, hu⟩ := h.engineStep_answers ht
    obtain ⟨hturns, hend⟩ := engineStep_ends_or_goes_on hb hu
    have htu : u.turns = [] := hturns.trans ht
    rw [runSteps_succ n ((step_alone ht).trans hu)]
    rcases hend with ⟨hidle, hdone⟩ | ⟨hbu, hless⟩
    · exact ⟨u, runSteps_idle n hidle htu, hidle, hdone⟩
    · exact ih (h.engineStep hu) hbu htu (Nat.le_of_lt_succ (Nat.lt_of_lt_of_le hless hn))

end

/-- Settles O47: the two numbers of the statement are the bound, by mode. -/
theorem everyOperationEnds : Obligations.EveryOperationEnds := fun _ h hb ht =>
  ⟨fun hm => h.runs_to_its_end hb ht (Nat.le_of_eq (stepBound_encode hm)),
    fun hm => h.runs_to_its_end hb ht (Nat.le_of_eq (stepBound_decode hm))⟩

end Sys2Proof.Machine
end

section
/-! A launched ENCODE without room for its codes (40_commands.md R122, 41_encoder.md R157): the engine goes beside lzw_codes until an
emission does not fit, reports DST_FULL with 2, and stays as it is. -/

namespace Sys2Proof.Machine

/-! ### The codes already emitted -/

theorem out_isPrefix_encLoop (v : EncVars) (b : Byte) : v.out <+: (encLoop v b).out := by
  cases hc : v.cur with
  | none => rw [encLoop_start b hc]
  | some p =>
    cases hl : v.map.lookup (p, b) with
    | none => rw [encLoop_emit hc hl]; exact ⟨_, rfl⟩
    | some k => rw [encLoop_extend hc hl]

/-- Codes once emitted stay at the front of the result. -/
theorem out_isPrefix_encCodes (v : EncVars) (x : List Byte) : v.out <+: encCodes (x.foldl encLoop v) := by
  induction x generalizing v with
  | nil => exact ⟨_, rfl⟩
  | cons b x ih => exact (out_isPrefix_encLoop v b).trans (ih (encLoop v b))

/-- The first codes of a sequence take the first bytes of its packed form (R102). -/
theorem pack_of_isPrefix {cs ds : List Nat} (h : cs <+: ds) : pack cs = (pack ds).take (2 * cs.length) := by
  obtain ⟨es, rfl⟩ := h
  rw [pack_append, List.take_left' (pack_length cs)]

/-! ### An emission without room -/

theorem emitCode_full {c : Nat} {s : State} (h : s.dstCap.toNat < s.outLen.toNat + 2) :
    emitCode c s = .raise .dstFull 2 s := by
  rw [emitCode, if_pos h]

/-- A symbol that an entry extends becomes part of the current string (R154). -/
theorem encSymbol_extends {s : State} {p k : Nat} {b : Byte} (hc : s.cur = some p)
    (hf : find s.ed s.dictNext.toNat p b = some k) : encSymbol b s = .ok () { s with cur := some k } := by
  unfold encSymbol
  rw [hc]
  dsimp only
  rw [hf]

section
variable {s a : State} {v : EncVars}

/-- The next code does not fit when the codes so far fill the destination (R157). -/
theorem EncMatches.emit_full (h : EncMatches s a v) (p : Nat) (hfull : s.dstCap.toNat < 2 * (v.out.length + 1)) :
    emitCode p a = .raise .dstFull 2 a := by
  refine emitCode_full ?_
  rw [h.run.dstCap, h.run.out_len, pack_length]
  exact hfull

theorem EncMatches.with_cur (h : EncMatches s a v) (c : Option Nat) : EncMatches s { a with cur := c } { v with cur := c } :=
  ⟨h.run.of_counters _ _ _ _ _ _, rfl, h.count, h.next, h.size_ge, h.find_eq⟩

/-- The symbol step after its read is one turn of lzw_codes, or an emission without room (R154, R157). -/
theorem EncMatches.encSymbol_or_full (hs : LaunchReady s) (h : EncMatches s a v) (b : Byte) :
    (∃ t, encSymbol b a = .ok () t ∧ t.inPos = a.inPos ∧ EncMatches s t (encLoop v b)) ∨
      encSymbol b a = .raise .dstFull 2 a ∧ s.dstCap.toNat < 2 * (v.out.length + 1) := by
  cases hc : v.cur with
  | none => exact .inl ⟨_, encSymbol_first b (h.cur.trans hc), rfl, encLoop_start b hc ▸ h.with_cur _⟩
  | some p =>
    have hcur : a.cur = some p := h.cur.trans hc
    cases hl : v.map.lookup (p, b) with
    | some k =>
      exact .inl ⟨_, encSymbol_extends hcur ((h.find_eq p b).trans hl), rfl, encLoop_extend hc hl ▸ h.with_cur _⟩
    | none =>
      rw [encSymbol_emits hcur ((h.find_eq p b).trans hl)]
      rcases Nat.lt_or_ge s.dstCap.toNat (2 * (v.out.length + 1)) with hfull | hroom
      · exact .inr ⟨by rw [h.emit_full p hfull, Res.bind_raise], hfull⟩
      · obtain ⟨t, ht, hpos, hm⟩ := h.emit hs p hroom
        refine .inl ⟨{ enterE p b t with cur := some b.toNat }, by rw [ht, Res.bind_ok],
          (enterE_keeps_inPos p b t).trans hpos, ?_⟩
        rw [encLoop_emit hc hl]
        exact hm.enter p b _

/-- A step with source left takes its symbol, or reports that the destination is full (R130, R214). -/
theorem EncMatches.step_symbol_or_full (hs : LaunchReady s) (h : EncMatches s a v) {b : Byte} {x : List Byte}
    (hx : (sourceBytes s).drop a.inPos.toNat = b :: x) :
    (∃ t, step a = .next t ∧ (sourceBytes s).drop t.inPos.toNat = x ∧ EncMatches s t (encLoop v b)) ∨
      ∃ u, step a = .next (completeError .dstFull 2 u) ∧ s.dstCap.toNat < 2 * (v.out.length + 1) ∧ EncMatches s u v := by
  obtain ⟨hread, -, hlt, hrest, hrun⟩ := h.run.reads_next hs hx
  have hu : EncMatches s { a with inPos := a.inPos + 1 } v := ⟨hrun, h.cur, h.count, h.next, h.size_ge, h.find_eq⟩
  rw [h.run.step_eq hs, enabledStep_symbol h.run.mode (h.run.srcLen ▸ hlt), hread, Res.bind_ok]
  rcases hu.encSymbol_or_full hs b with ⟨t, ht, hpos, hm⟩ | ⟨hraise, hfull⟩
  · exact .inl ⟨t, by rw [ht, finish], by rw [hpos]; exact hrest, hm⟩
  · exact .inr ⟨_, by rw [hraise, finish], hfull, hu⟩

/-- A flush whose code does not fit reports that the destination is full (R158). -/
theorem EncMatches.step_flush_full (hs : LaunchReady s) (h : EncMatches s a v)
    (hx : (sourceBytes s).drop a.inPos.toNat = []) (hfull : s.dstCap.toNat < 2 * (encCodes v).length) :
    step a = .next (completeError .dstFull 2 a) ∧ s.dstCap.toNat < 2 * (v.out.length + 1) := by
  have hfits := h.run.fits
  rw [pack_length] at hfits
  cases hc : v.cur with
  | none =>
    simp only [encCodes, hc, Option.toList_none, List.append_nil] at hfull
    omega
  | some p =>
    simp only [encCodes, hc, Option.toList_some, List.length_append, List.length_singleton] at hfull
    refine ⟨?_, hfull⟩
    rw [h.run.step_eq hs, enabledStep_flush h.run.mode (h.run.srcLen ▸ sourceBytes_drop_eq_nil hx),
      encFlushStep_emits (h.cur.trans hc), h.emit_full p hfull, Res.bind_raise, finish]

/-- From any point of a launched ENCODE without room for all its codes, the engine stops at the first code that does not fit, with
the codes before it written. -/
theorem EncMatches.run_to_full (hs : LaunchReady s) (x : List Byte) (h : EncMatches s a v)
    (hx : (sourceBytes s).drop a.inPos.toNat = x) (hlack : s.dstCap.toNat < 2 * (encCodes (x.foldl encLoop v)).length) :
    ∃ u w, runSteps (x.length + 1) a = .next (completeError .dstFull 2 u) ∧ EncMatches s u w ∧
      s.dstCap.toNat < 2 * (w.out.length + 1) ∧ w.out <+: encCodes (x.foldl encLoop v) := by
  induction x generalizing a v with
  | nil =>
    obtain ⟨hstep, hfull⟩ := h.step_flush_full hs hx hlack
    exact ⟨a, v, runSteps_succ 0 hstep, h, hfull, out_isPrefix_encCodes v []⟩
  | cons b x ih =>
    rcases h.step_symbol_or_full hs hx with ⟨t, ht, htx, hm⟩ | ⟨u, hstep, hfull, hu⟩
    · rw [List.length_cons, runSteps_succ _ ht]
      exact ih hm htx hlack
    · refine ⟨u, v, ?_, hu, hfull, out_isPrefix_encCodes v (b :: x)⟩
      rw [runSteps_succ _ hstep]
      exact runSteps_idle _ rfl (hu.run.turns.trans hs.alone)

end

/-- Settles O49: the codes written fit and one more would not, so they are the first floor(DST_CAP / 2) of lzw_codes. -/
theorem encodeWithoutRoomWritesWholeCodes : Obligations.EncodeWithoutRoomWritesWholeCodes := by
  intro s hs hlack
  rw [encodeBytes, pack_length] at hlack
  obtain ⟨u, w, hrun, hu, hfull, hpre⟩ := (encMatches_launched s).run_to_full hs (sourceBytes s) rfl hlack
  rw [sourceBytes_length] at hrun
  have hfits := hu.run.fits
  rw [pack_length] at hfits
  have hcodes : w.out.length = s.dstCap.toNat / 2 := by omega
  have hbytes : pack w.out = (encodeBytes (sourceBytes s)).take (2 * (s.dstCap.toNat / 2)) := hcodes ▸ pack_of_isPrefix hpre
  have hlen : (pack w.out).length = 2 * (s.dstCap.toNat / 2) := by rw [pack_length, hcodes]
  have hend : completeError .dstFull 2 u =
      { u with cause := .dstFull, errInfo := 2, busy := false, done := true, err := true } := by
    rw [completeError, endRaces_clean hu.run.races]
  rw [hend] at hrun
  exact ⟨_, _, exec_launched_encode hs, hrun, rfl, rfl, rfl, rfl, rfl, hu.count.trans hcodes, hu.run.out_len.trans hlen,
    hbytes ▸ hu.run.holds, hlen ▸ hu.run.outside⟩

end Sys2Proof.Machine
end

section
/-! The encoder's lookup and its steps (41_encoder.md R154 to R158): what each of them does where the bus answers and nothing was raced
on. -/

namespace Sys2Proof.Machine

/-! ### The lookup -/

/-- Lookup reports only valid entries (R156). -/
theorem find_valid {d : Dict} {next p k : Nat} {b : Byte} (h : find d next p b = some k) :
    Config.seedCount ≤ k ∧ k < next ∧ d.get? k = some ⟨p, b⟩ :=
  ⟨(List.mem_range'_1.1 (List.mem_of_find?_eq_some h)).1, find_eq_some h, by simpa using List.find?_some h⟩

/-- Lookup misses no valid entry (R156). -/
theorem find_eq_none_iff {d : Dict} {next p : Nat} {b : Byte} :
    find d next p b = none ↔ ∀ k, Config.seedCount ≤ k → k < next → d.get? k ≠ some ⟨p, b⟩ := by
  refine ⟨fun h _ hk hn => find_eq_none h hk hn, fun h => ?_⟩
  cases hf : find d next p b with
  | none => rfl
  | some k =>
    obtain ⟨hk, hn, he⟩ := find_valid hf
    exact absurd he (h k hk hn)

/-- Without two equal valid entries lookup is the inverse of the entries (R156, R160). -/
theorem Dict.Distinct.find_eq_some_iff {d : Dict} {next p k : Nat} {b : Byte} (h : d.Distinct next) :
    find d next p b = some k ↔ Config.seedCount ≤ k ∧ k < next ∧ d.get? k = some ⟨p, b⟩ := by
  refine ⟨find_valid, fun ⟨hk, hn, he⟩ => ?_⟩
  cases hf : find d next p b with
  | none => exact absurd he (find_eq_none hf hk hn)
  | some j =>
    obtain ⟨hj, hjn, hje⟩ := find_valid hf
    rw [h j k hj hjn hk hn (hje.trans he.symm)]

/-! ### The steps -/

section
variable {s : State}

/-- The engine's move on a symbol that is read: the part of the symbol step after the read, IN_POS already moved on (R130, R154). -/
theorem engineStep_known_symbol (hb : s.busy = true) (hm : s.mode = .encode) (hlt : s.inPos.toNat < s.srcLen.toNat)
    (ha : s.srcAddr.toNat + s.inPos.toNat < 2 ^ 32)
    (hf : busFault s.platform (s.srcAddr.toNat + s.inPos.toNat) .read = false) (hr : s.races = [])
    (hu : covers s.unspec (s.srcAddr.toNat + s.inPos.toNat) = false) :
    engineStep s =
      finish (encSymbol (Memory.read s.mem (s.srcAddr.toNat + s.inPos.toNat)) { s with inPos := s.inPos + 1 }) := by
  have hread := readSymbol_known ha hf (by rw [hr]; rfl) hu
  rw [engineStep_busy hb, enabledStep_symbol hm hlt, hread, Res.bind_ok]

/-- An emission with room and a bus that answers writes the code's two bytes and counts them and the code (R157). -/
theorem emitCode_writes (p : Nat) (hroom : s.outLen.toNat + 2 ≤ s.dstCap.toNat)
    (hw : s.dstAddr.toNat + s.dstCap.toNat ≤ 2 ^ 32)
    (hf : ∀ i, i < 2 → busFault s.platform (s.dstAddr.toNat + s.outLen.toNat + i) .write = false) :
    ∃ t, emitCode p s = .ok () t ∧
      t = { s with outLen := s.outLen + 2, codeCount := s.codeCount + 1, mem := t.mem, unspec := t.unspec } ∧
      holdsAt t (s.dstAddr.toNat + s.outLen.toNat) (pack1 p) ∧
      untouchedOutside (s.dstAddr.toNat + s.outLen.toNat) 2 s t := by
  have hcap := s.dstCap.isLt
  have hl : s.outLen.toNat + (pack1 p).length < 2 ^ 32 := by rw [pack1_length]; omega
  obtain ⟨t, ht⟩ := putBytes_good hl (Nat.le_trans (by rw [pack1_length]; omega) hw) hf
  obtain ⟨hout, hholds, huntouched⟩ := putBytes_ok ht hl
  have hlen : t.outLen = s.outLen + 2 := by
    refine BitVec.eq_of_toNat_eq ?_
    rw [hout, pack1_length, BitVec.toNat_add]
    exact (Nat.mod_eq_of_lt hl).symm
  have hframe := putBytes_frame ht
  refine ⟨{ t with codeCount := t.codeCount + 1 }, ?_, ?_, hholds, huntouched⟩
  · rw [emitCode, if_neg (Nat.not_lt.2 hroom), ht, Res.bind_ok]
  · rw [hframe, hlen]

/-- The growth of ED as a choice in its two fields (R155). -/
theorem enterE_eq (p : Nat) (b : Byte) (s : State) :
    enterE p b s = { s with
      ed := if s.dictNext.toNat ≤ 4096 then s.ed.put s.dictNext.toNat ⟨p, b⟩ else s.ed
      dictNext := if s.dictNext.toNat ≤ 4096 then s.dictNext + 1 else s.dictNext } := by
  rcases enterE_cases p b s with ⟨hle, he⟩ | ⟨hlt, he⟩
  · have hle : s.dictNext.toNat ≤ 4096 := hle
    rw [he, if_pos hle, if_pos hle]
  · have hgt : ¬s.dictNext.toNat ≤ 4096 := Nat.not_le.2 hlt
    rw [he, if_neg hgt, if_neg hgt]

/-- Without a pending match the flush only completes (R158). -/
theorem encFlushStep_completes (hc : s.cur = none) : encFlushStep s = .ok () (completeOk s) := by
  unfold encFlushStep
  rw [hc]

/-- The completion with success of an unraced operation (R214). -/
theorem completeOk_clean (hr : s.races = []) : completeOk s = { s with busy := false, done := true } := by
  rw [completeOk, endRaces_clean hr]

end

/-! ### The statements -/

/-- Settles O26: lookup searches exactly the valid codes, for exactly the entry asked for. -/
theorem lookupIsExact : Obligations.LookupIsExact :=
  fun _ _ _ _ => ⟨fun _ => find_valid, find_eq_none_iff, fun h _ => Dict.Distinct.find_eq_some_iff h⟩

/-- Settles O27: the symbol is read, and the first two branches of the symbol step change e.cur only. -/
theorem symbolStepStartsOrExtends : Obligations.SymbolStepStartsOrExtends := by
  intro s hb hm hlt ha hf hr hu
  rw [engineStep_known_symbol hb hm hlt ha hf hr hu]
  exact ⟨fun hc => congrArg finish (encSymbol_first (s := { s with inPos := s.inPos + 1 }) _ hc),
    fun p k hc hk => congrArg finish (encSymbol_extends (s := { s with inPos := s.inPos + 1 }) hc hk)⟩

/-- Settles O28: the third branch of the symbol step is an emission with room, then the growth of ED. -/
theorem symbolStepEmitsAndGrows : Obligations.SymbolStepEmitsAndGrows := by
  intro s p hb hm hlt ha hf hr hu hc hk hroom hw hbus
  obtain ⟨t, ht, hframe, hholds, huntouched⟩ := emitCode_writes (s := { s with inPos := s.inPos + 1 }) p hroom hw hbus
  rw [engineStep_known_symbol hb hm hlt ha hf hr hu, encSymbol_emits (s := { s with inPos := s.inPos + 1 }) hc hk, ht,
    Res.bind_ok, enterE_eq]
  refine ⟨_, rfl, ?_, hholds, huntouched⟩
  rw [hframe]

/-- Settles O29: the step goes through the emission, which raises before its first byte. -/
theorem emissionWithoutRoomRaisesDstFull : Obligations.EmissionWithoutRoomRaisesDstFull := by
  intro s p pos hdue hfull
  obtain ⟨f, hstep⟩ := enabledStep_of_emissionIsDue hdue
  obtain ⟨hb, -, hr, -⟩ := hdue
  rw [emitCode_full (s := { s with inPos := pos }) hfull, Res.bind_raise] at hstep
  exact engineStep_raises hb hstep hr

/-- Settles O31: the flush completes, after an emission with room if a match is pending. -/
theorem flushEmitsThePendingMatch : Obligations.FlushEmitsThePendingMatch := by
  intro s hb hm hend hr
  have hstep := enabledStep_flush hm (by rw [hend])
  refine ⟨fun hc => ?_, fun p hc hroom hw hbus => ?_⟩
  · rw [engineStep_busy hb, hstep, encFlushStep_completes hc, completeOk_clean hr, finish]
  · obtain ⟨t, ht, hframe, hholds, huntouched⟩ := emitCode_writes p hroom hw hbus
    have hclean : t.races = [] := by rw [hframe]; exact hr
    rw [engineStep_busy hb, hstep, encFlushStep_emits hc, ht, Res.bind_ok, completeOk_clean hclean]
    refine ⟨_, rfl, ?_, hholds, huntouched⟩
    rw [hframe]

end Sys2Proof.Machine
end

section
/-! What lzw_codes makes of every input (41_encoder.md R163, R165, R167), and of an input in which no adjacent pair occurs twice. -/

namespace Sys2Proof.Machine

/-! ### The scan, symbol by symbol -/

theorem encScan_snoc (x : List Byte) (b : Byte) : encScan (x ++ [b]) = encLoop (encScan x) b := List.foldl_append

/-- What holds before the first symbol and is kept by every turn of the loop holds after the scan. -/
theorem encScan_induction {P : List Byte → EncVars → Prop} (start : P [] encVars0)
    (turn : ∀ x v b, P x v → P (x ++ [b]) (encLoop v b)) (x : List Byte) : P x (encScan x) := by
  induction x using List.reverseRecOn with
  | nil => exact start
  | append_singleton x b ih => exact encScan_snoc x b ▸ turn x _ b ih

section
variable {v : EncVars} {b : Byte}

/-- A symbol adds at most one code to the result (R163). -/
theorem encCodes_length_encLoop_le (v : EncVars) (b : Byte) :
    (encCodes (encLoop v b)).length ≤ (encCodes v).length + 1 := by
  cases hc : v.cur with
  | none => simp [encCodes, encLoop_start b hc, hc]
  | some p =>
    cases hl : v.map.lookup (p, b) with
    | none => simp [encCodes, encLoop_emit hc hl, hc]
    | some k => simp [encCodes, encLoop_extend hc hl, hc]

theorem lzwCodes_length_le (x : List Byte) : (lzwCodes x).length ≤ x.length := by
  refine encScan_induction (P := fun x v => (encCodes v).length ≤ x.length) (Nat.le_refl 0) (fun x v b h => ?_) x
  rw [List.length_append]
  exact Nat.le_trans (encCodes_length_encLoop_le v b) (Nat.succ_le_succ h)

/-- An emission makes an entry until the last code is assigned (R155, R167). -/
theorem encScan_size (x : List Byte) : (encScan x).size = Config.seedCount + min (encScan x).out.length encEntries := by
  refine encScan_induction (P := fun _ v => v.size = Config.seedCount + min v.out.length encEntries) rfl (fun _ v b h => ?_) x
  cases hc : v.cur with
  | none => rw [encLoop_start b hc, h]
  | some p =>
    cases hl : v.map.lookup (p, b) with
    | some k => rw [encLoop_extend hc hl, h]
    | none =>
      have hmax := seedCount_add_encEntries
      rw [encLoop_emit hc hl]
      simp only [List.length_append, List.length_singleton]
      split <;> omega

/-! ### Symbols that extend no match -/

/-- A symbol that does not extend the current string starts the next one, and what came before it keeps its codes (R154). -/
theorem encLoop_of_no_match (h : ∀ p, v.cur = some p → v.map.lookup (p, b) = none) :
    (encLoop v b).cur = some b.toNat ∧ encCodes (encLoop v b) = encCodes v ++ [b.toNat] := by
  cases hc : v.cur with
  | none => simp [encCodes, encLoop_start b hc, hc]
  | some p => simp [encCodes, encLoop_emit hc (h p hc), hc]

/-- A turn enters at most the current string's code with the symbol (R154). -/
theorem lookup_encLoop {q k : Nat} {a : Byte} (h : (encLoop v b).map.lookup (q, a) = some k) :
    v.map.lookup (q, a) = some k ∨ (v.cur = some q ∧ a = b) := by
  cases hc : v.cur with
  | none => exact .inl (by simpa [encLoop_start b hc] using h)
  | some p =>
    cases hl : v.map.lookup (p, b) with
    | some j => exact .inl (by simpa [encLoop_extend hc hl] using h)
    | none =>
      rw [encLoop_emit hc hl] at h
      dsimp only at h
      split at h
      · rcases lookup_grown h with h | ⟨rfl, rfl, -⟩
        · exact .inl h
        · exact .inr ⟨rfl, rfl⟩
      · exact .inl h

end

/-! ### Inputs without a repeated pair -/

/-- No pair of adjacent symbols occurs twice (R163). -/
def PairsDistinct (x : List Byte) : Prop :=
  ∀ i j a b, x[i]? = some a → x[i + 1]? = some b → x[j]? = some a → x[j + 1]? = some b → i = j

theorem PairsDistinct.of_snoc {x : List Byte} {b : Byte} (h : PairsDistinct (x ++ [b])) : PairsDistinct x := by
  have lift : ∀ {i c}, x[i]? = some c → (x ++ [b])[i]? = some c := fun hi =>
    (List.getElem?_append_left (List.getElem?_eq_some_iff.1 hi).1).trans hi
  exact fun i j _ _ h1 h2 h3 h4 => h i j _ _ (lift h1) (lift h2) (lift h3) (lift h4)

/-- The last pair of an input. -/
theorem getElem?_snoc_last_pair {x : List Byte} {a : Byte} (b : Byte) (h : x.getLast? = some a) :
    (x ++ [b])[x.length - 1]? = some a ∧ (x ++ [b])[x.length - 1 + 1]? = some b := by
  obtain ⟨y, rfl⟩ := List.getLast?_eq_some_iff.1 h
  simp

/-- After the symbols `x` each of them has its own code, and the map's keys are pairs of adjacent symbols. -/
structure PassedThrough (x : List Byte) (v : EncVars) : Prop where
  codes : encCodes v = x.map BitVec.toNat
  cur : v.cur = x.getLast?.map BitVec.toNat
  keys : ∀ p b k, v.map.lookup (p, b) = some k → ∃ i a, x[i]? = some a ∧ x[i + 1]? = some b ∧ a.toNat = p

/-- A pair that is new is no key of the map. -/
theorem PassedThrough.no_match {x : List Byte} {v : EncVars} {b : Byte} (h : PassedThrough x v)
    (hx : PairsDistinct (x ++ [b])) (p : Nat) (hc : v.cur = some p) : v.map.lookup (p, b) = none := by
  cases hl : v.map.lookup (p, b) with
  | none => rfl
  | some k =>
    obtain ⟨a, ha, rfl⟩ := Option.map_eq_some_iff.1 (h.cur.symm.trans hc)
    obtain ⟨i, c, h1, h2, hca⟩ := h.keys _ _ _ hl
    obtain rfl : c = a := BitVec.eq_of_toNat_eq hca
    obtain ⟨h3, h4⟩ := getElem?_snoc_last_pair b ha
    have hi := (List.getElem?_eq_some_iff.1 h1).1
    have hi1 := (List.getElem?_eq_some_iff.1 h2).1
    have hlast := hx i (x.length - 1) c b ((List.getElem?_append_left hi).trans h1)
      ((List.getElem?_append_left hi1).trans h2) h3 h4
    omega

theorem PassedThrough.symbol {x : List Byte} {v : EncVars} {b : Byte} (h : PassedThrough x v)
    (hx : PairsDistinct (x ++ [b])) : PassedThrough (x ++ [b]) (encLoop v b) := by
  obtain ⟨hcur, hcodes⟩ := encLoop_of_no_match (h.no_match hx)
  refine ⟨by rw [hcodes, h.codes, List.map_append, List.map_singleton], by rw [hcur, List.getLast?_concat]; rfl,
    fun p a k hl => ?_⟩
  rcases lookup_encLoop hl with hl | ⟨hc, rfl⟩
  · obtain ⟨i, c, h1, h2, hcp⟩ := h.keys _ _ _ hl
    have hi1 := (List.getElem?_eq_some_iff.1 h2).1
    exact ⟨i, c, (List.getElem?_append_left (by omega)).trans h1, (List.getElem?_append_left hi1).trans h2, hcp⟩
  · obtain ⟨c, hlast, hcp⟩ := Option.map_eq_some_iff.1 (h.cur.symm.trans hc)
    obtain ⟨h1, h2⟩ := getElem?_snoc_last_pair a hlast
    exact ⟨_, c, h1, h2, hcp⟩

theorem passedThrough_scan (x : List Byte) : PairsDistinct x → PassedThrough x (encScan x) := by
  refine encScan_induction (P := fun x v => PairsDistinct x → PassedThrough x v) (fun _ => ?_)
    (fun x v b ih hx => (ih hx.of_snoc).symbol hx) x
  exact ⟨rfl, rfl, fun _ _ _ h => absurd h nofun⟩

/-! ### The statements -/

/-- Settles O54: the codes are bounded as those of the decoder's reconstruction; number and size are kept symbol by symbol. -/
theorem encoderOutputIsBounded : Obligations.EncoderOutputIsBounded :=
  fun x => ⟨(decScan_lzwCodes true x).1, lzwCodes_length_le x, encScan_size x⟩

/-- Settles O55: a match would need the last pair as a key of the map, so as an earlier pair of the input. -/
theorem noRepeatedPairPassesThrough : Obligations.NoRepeatedPairPassesThrough :=
  fun x hx => (passedThrough_scan x hx).codes

end Sys2Proof.Machine
end

section
/-! The source's string-keyed dictionary (41_encoder.md R154, R161): the map of lzw_codes is the same dictionary, each string written as
the code of all but its last byte and that byte. -/

namespace Sys2Proof.Machine

/-! ### The codes of the source's strings -/

/-- The code of a string names that string (R14, R51). -/
theorem codeString_of_sourceCode {learned : List (List Byte)} {t : List Byte} {c : Nat}
    (h : sourceCode learned t = some c) : codeString learned c = some t := by
  match t with
  | [] => cases h
  | [b] =>
    cases h
    exact codeString_seed learned b
  | b :: d :: r =>
    obtain ⟨i, hi, rfl⟩ := Option.map_eq_some_iff.1 h
    obtain ⟨hlt, hi, -⟩ := List.idxOf?_eq_some_iff.1 hi
    rw [codeString, if_neg (Nat.not_lt.2 (Nat.le_add_right _ _)), Nat.add_sub_cancel_left, List.getElem?_eq_getElem hlt, hi]

theorem sourceCode_injective {learned : List (List Byte)} {t u : List Byte} {c : Nat} (ht : sourceCode learned t = some c)
    (hu : sourceCode learned u = some c) : t = u :=
  Option.some.inj ((codeString_of_sourceCode ht).symm.trans (codeString_of_sourceCode hu))

theorem ne_nil_of_sourceCode {learned : List (List Byte)} {t : List Byte} {c : Nat} (h : sourceCode learned t = some c) :
    t ≠ [] := by
  rintro rfl
  cases h

/-- A string learned last gets the next code, unless it has one, and no other string's code changes (R155). -/
theorem sourceCode_concat {learned : List (List Byte)} {s : List Byte} (hs : s ≠ []) (t : List Byte) :
    sourceCode (learned ++ [s]) t =
      (sourceCode learned t).or (if t = s then some (Config.seedCount + learned.length) else none) := by
  match t with
  | [] => exact (if_neg hs.symm).symm
  | [b] => rfl
  | b :: d :: r =>
    simp only [sourceCode, List.idxOf?, List.findIdx?_append, List.findIdx?_singleton, Option.map_or]
    congr 1
    by_cases he : b :: d :: r = s
    · simp [he]
    · simp [he, Ne.symm he]

/-! ### The two dictionaries -/

/-- A lookup in the map with one pair more at its end. -/
theorem lookup_concat (m : List ((Nat × Byte) × Nat)) (p q n : Nat) (a b : Byte) :
    (m ++ [((p, b), n)]).lookup (q, a) = (m.lookup (q, a)).or (if q = p ∧ a = b then some n else none) := by
  rw [List.lookup_append]
  congr 1
  by_cases h : q = p ∧ a = b
  · simp [List.lookup, h]
  · have : ((q, a) == (p, b)) = false := by simpa using h
    simp [List.lookup, h, this]

/-- The map of lzw_codes holds what the source's dictionary holds (R161). -/
structure DictAgrees (map : List ((Nat × Byte) × Nat)) (size : Nat) (learned : List (List Byte)) : Prop where
  size_eq : size = Config.seedCount + learned.length
  lookup_eq : ∀ t p b, sourceCode learned t = some p → map.lookup (p, b) = sourceCode learned (t ++ [b])
  fresh : ∀ p b, size ≤ p → map.lookup (p, b) = none
  closed : ∀ t b, t ≠ [] → sourceCode learned t = none → sourceCode learned (t ++ [b]) = none

theorem dictAgrees_start : DictAgrees [] Config.seedCount [] where
  size_eq := rfl
  lookup_eq := fun t p b h => by
    obtain ⟨c, r, rfl⟩ := List.exists_cons_of_ne_nil (ne_nil_of_sourceCode h)
    cases r <;> rfl
  fresh := fun _ _ _ => rfl
  closed := fun t b ht _ => by
    obtain ⟨c, r, rfl⟩ := List.exists_cons_of_ne_nil ht
    cases r <;> rfl

section
variable {map : List ((Nat × Byte) × Nat)} {size : Nat} {learned : List (List Byte)}

theorem DictAgrees.code_lt (h : DictAgrees map size learned) {t : List Byte} {p : Nat} (ht : sourceCode learned t = some p) :
    p < size :=
  h.size_eq ▸ codeString_lt (codeString_of_sourceCode ht)

/-- Both dictionaries grow by the same candidate: its code and symbol for the one, its bytes for the other (R154, R155). -/
theorem DictAgrees.grow (h : DictAgrees map size learned) {w : List Byte} {p : Nat} {b : Byte}
    (hw : sourceCode learned w = some p) (hnew : sourceCode learned (w ++ [b]) = none) :
    DictAgrees (map ++ [((p, b), size)]) (size + 1) (learned ++ [w ++ [b]]) := by
  have hp := h.code_lt hw
  have hcode := sourceCode_concat (learned := learned) (s := w ++ [b]) (by simp)
  refine ⟨by rw [h.size_eq, List.length_append]; rfl, fun t q a ht => ?_, fun q a hq => ?_, fun t a ht hn => ?_⟩
  · rw [hcode] at ht ⊢
    rw [lookup_concat]
    rcases Option.or_eq_some_iff.1 ht with ht | ⟨hnone, ht⟩
    · have hcodes : q = p ↔ t = w :=
        ⟨fun e => sourceCode_injective ht (e ▸ hw), fun e => Option.some.inj (ht.symm.trans (e ▸ hw))⟩
      have hcand : (q = p ∧ a = b) ↔ t ++ [a] = w ++ [b] := by simp [hcodes]
      rw [h.lookup_eq t q a ht, ← h.size_eq]
      simp only [hcand]
    · obtain ⟨rfl, hq⟩ := (Option.ite_none_right_eq_some).1 ht
      have hq : q = size := by rw [h.size_eq]; exact (Option.some.inj hq).symm
      rw [h.fresh q a (Nat.le_of_eq hq.symm), h.closed _ a (by simp) hnone, if_neg (by omega), if_neg (by simp)]
  · rw [lookup_concat, h.fresh q a (by omega), if_neg (by omega)]
    rfl
  · rw [hcode] at hn ⊢
    obtain ⟨hn, hne⟩ := Option.or_eq_none_iff.1 hn
    have hcand : t ++ [a] ≠ w ++ [b] := fun he => by
      obtain rfl := (List.append_inj' he rfl).1
      rw [hw] at hn
      cases hn
    rw [h.closed t a ht hn, if_neg hcand]
    rfl

end

/-! ### The two scans -/

section
variable {u : SourceVars} {b : Byte}

theorem sourceLoop_known {k : Nat} (h : sourceCode u.learned (u.string ++ [b]) = some k) :
    sourceLoop u b = { u with string := u.string ++ [b] } := by
  simp only [sourceLoop, h]

theorem sourceLoop_new (h : sourceCode u.learned (u.string ++ [b]) = none) :
    sourceLoop u b =
      { string := [b]
        learned :=
          if Config.seedCount + u.learned.length ≤ Config.maxTableSize then u.learned ++ [u.string ++ [b]] else u.learned
        out := u.out ++ (sourceCode u.learned u.string).toList } := by
  simp only [sourceLoop, h]

end

/-- `v` is lzw_codes and `u` the source's encoder after the same symbols: e.cur is the code of the running string (R161). -/
structure SourceAgrees (v : EncVars) (u : SourceVars) : Prop where
  dict : DictAgrees v.map v.size u.learned
  out : v.out = u.out
  cur : v.cur = sourceCode u.learned u.string
  start : v.cur = none → u.string = []

theorem sourceAgrees_start : SourceAgrees encVars0 ⟨[], [], []⟩ where
  dict := dictAgrees_start
  out := rfl
  cur := rfl
  start := fun _ => rfl

/-- One symbol keeps the two encoders in agreement: the candidate has a code in both or in neither (R154). -/
theorem SourceAgrees.symbol {v : EncVars} {u : SourceVars} (h : SourceAgrees v u) (b : Byte) :
    SourceAgrees (encLoop v b) (sourceLoop u b) := by
  cases hc : v.cur with
  | none =>
    have hs := h.start hc
    have hknown : sourceCode u.learned (u.string ++ [b]) = some b.toNat := by rw [hs]; rfl
    rw [encLoop_start b hc, sourceLoop_known hknown]
    exact ⟨h.dict, h.out, hknown.symm, nofun⟩
  | some p =>
    have hw : sourceCode u.learned u.string = some p := h.cur.symm.trans hc
    have hlookup := h.dict.lookup_eq _ _ b hw
    cases hl : v.map.lookup (p, b) with
    | some k =>
      have hknown := hlookup.symm.trans hl
      rw [encLoop_extend hc hl, sourceLoop_known hknown]
      exact ⟨h.dict, h.out, hknown.symm, nofun⟩
    | none =>
      have hnew := hlookup.symm.trans hl
      rw [encLoop_emit hc hl, sourceLoop_new hnew, ← h.dict.size_eq, hw]
      refine ⟨?_, by rw [h.out]; rfl, rfl, nofun⟩
      dsimp only
      split
      · exact h.dict.grow hw hnew
      · exact h.dict

theorem sourceAgrees_foldl {v : EncVars} {u : SourceVars} (h : SourceAgrees v u) (x : List Byte) :
    SourceAgrees (x.foldl encLoop v) (x.foldl sourceLoop u) := by
  induction x generalizing v u with
  | nil => exact h
  | cons b x ih => exact ih (h.symbol b)

/-- Settles O53: the two encoders agree symbol by symbol, and so do their flushes. -/
theorem codesMatchTheSourceDictionary : Obligations.CodesMatchTheSourceDictionary := by
  intro x
  have h : SourceAgrees (encScan x) (x.foldl sourceLoop ⟨[], [], []⟩) := sourceAgrees_foldl sourceAgrees_start x
  rw [lzwCodes, h.out, h.cur, sourceCodes]

end Sys2Proof.Machine
end

section
/-! The codes of a run of one byte (41_encoder.md R164): the dictionary then holds the shorter runs only, so that each match is one
byte longer than the one before it. -/

namespace Sys2Proof.Machine

/-- The code of a run of `i` copies of `b` once all runs up to it are entered in order: the seed, then 256, 257, ... (R164). -/
def runCode (b : Byte) (i : Nat) : Nat := if i = 1 then b.toNat else 254 + i

theorem runCode_of_two_le (b : Byte) {i : Nat} (h : 2 ≤ i) : runCode b i = 254 + i := if_neg (by omega)

theorem runCode_injective (b : Byte) {i j : Nat} (hi : 1 ≤ i) (hj : 1 ≤ j) (h : runCode b i = runCode b j) : i = j := by
  have hb := b.isLt
  unfold runCode at h
  split at h <;> split at h <;> omega

/-- The map that knows the runs of up to `k` copies. -/
def runMap (b : Byte) (k : Nat) : List ((Nat × Byte) × Nat) :=
  (List.range' 1 (k - 1)).map fun i => ((runCode b i, b), 255 + i)

/-- lzw_codes after runs of 1, 2, ..., k - 1 copies were emitted, `r` copies into the next (R164). -/
def runVars (b : Byte) (k r : Nat) : EncVars where
  size := 255 + k
  cur := some (runCode b r)
  out := (List.range' 1 (k - 1)).map (runCode b)
  map := runMap b k

theorem range'_one_succ {k : Nat} (h : 1 ≤ k) : List.range' 1 (k + 1 - 1) = List.range' 1 (k - 1) ++ [k] := by
  rw [show k + 1 - 1 = k - 1 + 1 by omega, List.range'_1_concat, show 1 + (k - 1) = k by omega]

theorem runMap_succ (b : Byte) {k : Nat} (h : 1 ≤ k) :
    runMap b (k + 1) = runMap b k ++ [((runCode b k, b), 255 + k)] := by
  rw [runMap, range'_one_succ h, List.map_append]
  rfl

/-- One copy more is known exactly while the run is shorter than the longest one. -/
theorem lookup_runMap (b : Byte) {k r : Nat} (hk : 1 ≤ k) (hr : 1 ≤ r) :
    (runMap b k).lookup (runCode b r, b) = if r < k then some (runCode b (r + 1)) else none := by
  induction k, hk using Nat.le_induction with
  | base => exact (if_neg (by omega)).symm
  | succ k hk ih =>
    have hcode : runCode b r = runCode b k ↔ r = k := ⟨runCode_injective b hr hk, fun h => h ▸ rfl⟩
    rw [runMap_succ b hk, lookup_concat, ih]
    simp only [hcode, and_true]
    rcases Nat.lt_trichotomy r k with h | rfl | h
    · rw [if_pos h, if_pos (Nat.lt_succ_of_lt h)]
      rfl
    · rw [if_neg (Nat.lt_irrefl r), if_pos rfl, if_pos (Nat.lt_succ_self r), runCode_of_two_le b (Nat.succ_le_succ hr)]
      exact congrArg some (by omega)
    · rw [if_neg (Nat.lt_asymm h), if_neg (Nat.ne_of_gt h), if_neg (Nat.not_lt.2 h)]
      rfl

section
variable {b : Byte} {k r : Nat}

/-- A copy that the longest known run still has room for extends the match. -/
theorem encLoop_runVars_extend (hr : 1 ≤ r) (hrk : r < k) : encLoop (runVars b k r) b = runVars b k (r + 1) := by
  have hl : (runVars b k r).map.lookup (runCode b r, b) = some (runCode b (r + 1)) :=
    (lookup_runMap b (by omega) hr).trans (if_pos hrk)
  exact encLoop_extend rfl hl

/-- A copy after the longest known run emits that run and enters the next one (R164). -/
theorem encLoop_runVars_emit (hk : 1 ≤ k) (hmax : k ≤ encEntries) : encLoop (runVars b k k) b = runVars b (k + 1) 1 := by
  have hl : (runVars b k k).map.lookup (runCode b k, b) = none :=
    (lookup_runMap b hk hk).trans (if_neg (Nat.lt_irrefl k))
  have hsize : (runVars b k k).size ≤ Config.maxTableSize := Nat.add_le_add_left hmax 255
  rw [encLoop_emit rfl hl, if_pos hsize, if_pos hsize, runVars, runVars, runMap_succ b hk, range'_one_succ hk, List.map_append]
  rfl

theorem encScan_replicate_succ (b : Byte) (n : Nat) :
    encScan (List.replicate (n + 1) b) = encLoop (encScan (List.replicate n b)) b := by
  rw [List.replicate_succ', encScan_snoc]

/-- From the first copy of a run on, the copies up to the longest known run extend the match. -/
theorem encScan_replicate_within_run {n : Nat} (hr : 1 ≤ r) (hrk : r ≤ k)
    (h : encScan (List.replicate (n + 1) b) = runVars b k 1) : encScan (List.replicate (n + r) b) = runVars b k r := by
  induction r, hr using Nat.le_induction with
  | base => exact h
  | succ r hr ih => rw [← Nat.add_assoc, encScan_replicate_succ, ih (by omega), encLoop_runVars_extend hr hrk]

/-- The scan of the runs of 1, 2, ..., k - 1 copies and of the first copy of the next. -/
theorem encScan_replicate_run_start (hk : 1 ≤ k) (hmax : k - 1 ≤ encEntries) :
    encScan (List.replicate ((k - 1) * k / 2 + 1) b) = runVars b k 1 := by
  induction k, hk using Nat.le_induction with
  | base => rfl
  | succ k hk ih =>
    have htriangle : (k + 1 - 1) * (k + 1) / 2 = (k - 1) * k / 2 + k := by
      rw [Nat.mul_comm, Nat.triangle_succ, Nat.mul_comm]
    rw [htriangle, encScan_replicate_succ, encScan_replicate_within_run hk (Nat.le_refl k) (ih (by omega)),
      encLoop_runVars_emit hk hmax]

/-- The codes emitted for the runs of 1, 2, ..., k - 1 copies are the seed and the first learned codes (R164). -/
theorem runVars_out (hk : 1 ≤ k) :
    (runVars b k r).out = if k = 1 then [] else b.toNat :: List.range' 256 (k - 2) := by
  split
  · subst k
    rfl
  · have hlater : ∀ i ∈ List.range' 2 (k - 2), runCode b i = 254 + i := fun i hi =>
      runCode_of_two_le b (List.mem_range'_1.1 hi).1
    rw [runVars, show k - 1 = k - 2 + 1 by omega, List.range'_succ, List.map_cons, List.map_congr_left hlater,
      List.map_add_range']
    rfl

end

/-- Settles O56: copies extend the match up to the longest known run, and the next copy emits that run. -/
theorem runOfOneByteCodes : Obligations.RunOfOneByteCodes := by
  intro b k r hr hrk hk
  have hscan := encScan_replicate_within_run hr hrk (encScan_replicate_run_start (b := b) (hr.trans hrk) hk)
  have hlast : runCode b r = if r = 1 then b.toNat else 256 + r - 2 := by
    unfold runCode
    split <;> omega
  refine ⟨?_, by rw [hscan]; rfl⟩
  rw [lzwCodes, hscan, runVars_out (hr.trans hrk), ← hlast]
  rfl

end Sys2Proof.Machine
end

section
/-! The decoder's steps (42_decoder.md R182 to R191): what a code, the odd tail byte and the end of the source do where the bus answers
and nothing was raced on. -/

namespace Sys2Proof.Machine

section
variable {s : State}

/-! ### Codes -/

/-- The step on a code that is read: its decoding, the two bytes already counted (R130, R182). -/
theorem enabledStep_of_codeIsRead {c : Nat} (h : codeIsRead s c) :
    enabledStep s = decCode c { s with inPos := s.inPos + 2 } := by
  have hread := readCode_of_codeIsRead h
  obtain ⟨-, hm, hlt, -⟩ := h
  rw [enabledStep_code hm hlt, hread, Res.bind_ok]

/-- A code that resolves to an error completes the operation with it and with the code (R183, R186, R214). -/
theorem engineStep_decode_error {c : Nat} {k : Cause} (h : codeIsRead s c)
    (hk : resolve c { s with inPos := s.inPos + 2 } = .error k) :
    engineStep s = .next { s with
      inPos := s.inPos + 2, busy := false, done := true, err := true, cause := k, errInfo := BitVec.ofNat 32 c } := by
  have hstep := enabledStep_of_codeIsRead h
  rw [decCode, hk] at hstep
  obtain ⟨hb, -, -, hr, -⟩ := h
  exact engineStep_raises hb hstep hr

/-- A first code above the seeds is an error (R183). -/
theorem resolve_first_error {c : Nat} (hp : s.prev = none) (hc : 256 ≤ c) : resolve c s = .error .decFirstCode := by
  unfold resolve
  rw [hp]
  exact if_pos hc

/-- After the first code, one that is neither known nor the special case is an error (R186). -/
theorem resolve_unknown {c : Nat} (hp : s.prev ≠ none)
    (hc : s.dictNext.toNat < c ∨ c = s.dictNext.toNat ∧ addOkD s.decCeil s.dictNext.toNat = false) :
    resolve c s = .error .decUnknownCode := by
  obtain ⟨p, hp⟩ := Option.ne_none_iff_exists'.1 hp
  have hspecial : ¬(c = s.dictNext.toNat ∧ addOkD s.decCeil s.dictNext.toNat = true) := by
    rintro ⟨rfl, ho⟩
    rcases hc with hlt | ⟨-, hno⟩
    · exact Nat.lt_irrefl _ hlt
    · rw [ho] at hno
      cases hno
  unfold resolve
  rw [hp]
  dsimp only
  rw [if_neg (by omega), if_neg hspecial]

/-! ### Strings -/

/-- A string with room and a bus that answers is written in order (R188). -/
theorem putString_writes {bs : List Byte} (h : bytesCanBeWritten s bs.length) :
    ∃ t, putString bs s = .ok () t ∧
      t = { s with outLen := s.outLen + BitVec.ofNat 32 bs.length, mem := t.mem, unspec := t.unspec } ∧
      holdsAt t (s.dstAddr.toNat + s.outLen.toNat) bs ∧
      untouchedOutside (s.dstAddr.toNat + s.outLen.toNat) bs.length s t := by
  obtain ⟨hroom, hw, hf⟩ := h
  have hcap := s.dstCap.isLt
  have hl : s.outLen.toNat + bs.length < 2 ^ 32 := by omega
  obtain ⟨t, ht⟩ := putBytes_good hl (Nat.le_trans (by omega) hw) hf
  obtain ⟨hout, hholds, huntouched⟩ := putBytes_ok ht hl
  have hlen : t.outLen = s.outLen + BitVec.ofNat 32 bs.length := by
    refine BitVec.eq_of_toNat_eq ?_
    rw [hout, BitVec.toNat_add, BitVec.toNat_ofNat, Nat.add_mod_mod, Nat.mod_eq_of_lt hl]
  refine ⟨t, ?_, hlen ▸ putBytes_frame ht, hholds, huntouched⟩
  rw [putString, if_neg (Nat.not_lt.2 hroom), ht]

/-- A string that does not fit raises before its first byte (R188). -/
theorem putString_full {bs : List Byte} (h : s.dstCap.toNat < s.outLen.toNat + bs.length) :
    putString bs s = .raise .dstFull (BitVec.ofNat 32 bs.length) s := by
  rw [putString, if_pos h]

/-- After every code but the first the growth of DD is a choice in its two fields (R187). -/
theorem enterD_eq {p : Nat} (b : Byte) (hp : s.prev = some p) :
    enterD b s = { s with
      dd := if addOkD s.decCeil s.dictNext.toNat then s.dd.put s.dictNext.toNat ⟨p, b⟩ else s.dd
      dictNext := if addOkD s.decCeil s.dictNext.toNat then s.dictNext + 1 else s.dictNext } := by
  rcases enterD_cases b s with ⟨q, hq, ho, he⟩ | ⟨hno, he⟩
  · obtain rfl : q = p := Option.some.inj (hq.symm.trans hp)
    rw [he, if_pos ho, if_pos ho]
  · have ho : ¬addOkD s.decCeil s.dictNext.toNat = true := by simpa [hp] using hno
    rw [he, if_neg ho, if_neg ho]

/-- The first code makes no entry (R183). -/
theorem enterD_first (b : Byte) (hp : s.prev = none) : enterD b s = s := by
  unfold enterD
  rw [hp]

/-- What reading and writing change has no part in the growth of DD. -/
theorem enterD_with_io (b : Byte) (pos len : Word) (m : Memory) (ws : List Window) :
    enterD b { s with inPos := pos, outLen := len, mem := m, unspec := ws } =
      { enterD b s with inPos := pos, outLen := len, mem := m, unspec := ws } := by
  rcases Option.eq_none_or_eq_some s.prev with hp | ⟨p, hp⟩
  · rw [enterD_first b hp]
    exact enterD_first b hp
  · rw [enterD_eq b hp]
    exact enterD_eq b hp

/-- A code whose string has room and a bus that answers: the string is written, DD grows, and the code becomes e.prev (R182, R187 to
R189). -/
theorem engineStep_writes_string {c : Nat} {w : Str} (h : stringIsDue s c w) (hw : bytesCanBeWritten s w.bytes.length) :
    ∃ t, engineStep s = .next t ∧
      t = { enterD w.first s with
        inPos := s.inPos + 2, outLen := s.outLen + BitVec.ofNat 32 w.bytes.length, codeCount := s.codeCount + 1
        prev := some c, mem := t.mem, unspec := t.unspec } ∧
      holdsAt t (s.dstAddr.toNat + s.outLen.toNat) w.bytes ∧
      untouchedOutside (s.dstAddr.toNat + s.outLen.toNat) w.bytes.length s t := by
  have hwrites := decCode_writes (resolve_of_stringIsDue h (s.inPos + 2))
  obtain ⟨hread, -⟩ := h
  have hcode := enabledStep_of_codeIsRead hread
  obtain ⟨hb, -⟩ := hread
  obtain ⟨t, ht, hframe, hholds, huntouched⟩ := putString_writes (s := { s with inPos := s.inPos + 2 }) hw
  have hstep : engineStep s = .next { enterD w.first s with
      inPos := s.inPos + 2, outLen := s.outLen + BitVec.ofNat 32 w.bytes.length, codeCount := s.codeCount + 1
      prev := some c, mem := t.mem, unspec := t.unspec } := by
    rw [engineStep_busy hb, hcode, hwrites, ht, Res.bind_ok, finish, hframe, enterD_with_io (s := s)]
  exact ⟨_, hstep, rfl, hholds, huntouched⟩

/-! ### The end of the source -/

/-- With one byte left a DECODE takes the tail step (R130, R190). -/
theorem enabledStep_decode_tail (hm : s.mode = .decode) (hone : s.inPos.toNat + 1 = s.srcLen.toNat) :
    enabledStep s = decTailStep s := by
  unfold enabledStep
  rw [hm]
  dsimp only
  rw [if_neg (by omega), if_pos (by omega)]

/-- With no byte left a DECODE takes the end step (R130, R191). -/
theorem enabledStep_decode_end (hm : s.mode = .decode) (hend : s.inPos = s.srcLen) : enabledStep s = decEndStep s := by
  unfold enabledStep
  rw [hm, hend, Nat.sub_self]
  rfl

end

/-! ### The statements -/

/-- Settles O33: a first code below 256 is a string of one byte that is due, and any other resolves to DEC_FIRST_CODE. -/
theorem firstCodeDecodesOrRaises : Obligations.FirstCodeDecodesOrRaises := by
  intro s c hread hp
  refine ⟨fun hc hw => ?_, fun hc => engineStep_decode_error hread (resolve_first_error hp hc)⟩
  obtain ⟨t, hstep, ht, hbytes⟩ := engineStep_writes_string (w := ⟨BitVec.ofNat 8 c, []⟩) ⟨hread, .inl ⟨hp, hc, rfl⟩⟩ hw
  rw [enterD_first _ hp] at ht
  exact ⟨t, hstep, ht, hbytes⟩

/-- Settles O34: such a code resolves to DEC_UNKNOWN_CODE, which the step raises before it looks at the room. -/
theorem unresolvableCodeRaisesUnknownCode : Obligations.UnresolvableCodeRaisesUnknownCode :=
  fun _ _ hread hp hc => engineStep_decode_error hread (resolve_unknown hp hc)

/-- Settles O35: the string of a known code is due, and DD grows after it where the ceiling allows. -/
theorem knownCodeDecodesToItsString : Obligations.KnownCodeDecodesToItsString := by
  intro s c p w hread hp hc hstr hw
  have hdue : stringIsDue s c w := ⟨hread, .inr (.inl ⟨by rw [hp]; exact nofun, hc, hstr⟩)⟩
  obtain ⟨t, hstep, ht, hbytes⟩ := engineStep_writes_string hdue hw
  rw [enterD_eq _ hp] at ht
  exact ⟨t, hstep, ht, hbytes⟩

/-- Settles O36: the string with its first byte after it is due, and the entry that the growth then makes stands for it. -/
theorem specialCaseDecodesAndDefinesItsCode : Obligations.SpecialCaseDecodesAndDefinesItsCode := by
  rintro s _ p w hinv hread hp rfl ho hstr hw
  have hdue : stringIsDue s s.dictNext.toNat (w.snoc w.first) := ⟨hread, .inr (.inr ⟨p, w, hp, rfl, ho, hstr, rfl⟩)⟩
  have hlen : (w.snoc w.first).bytes.length = w.bytes.length + 1 := by
    rw [Str.bytes_snoc, List.length_append, List.length_singleton]
  obtain ⟨t, hstep, ht, hholds, huntouched⟩ := engineStep_writes_string hdue (hlen ▸ hw)
  rw [enterD_eq _ hp, if_pos ho, if_pos ho, hlen] at ht
  refine ⟨t, hstep, ht, hholds, hlen ▸ huntouched, ?_⟩
  obtain ⟨hb, hm, -⟩ := hread
  have hbusy := hinv.busy_inv hb
  have hdec := hbusy.dec hm
  have hranked : s.dd.Ranked s.dictNext.toNat := hdec.parents
  rw [ht]
  dsimp only
  rw [toNat_succ_of_addOkD ho]
  exact (hranked.str_put_new w.first (hdec.prev_valid hp) hbusy.next_ge).trans (congrArg _ hstr)

/-- Settles O37: the step goes through writing the string, which raises before its first byte. -/
theorem stringWithoutRoomRaisesDstFull : Obligations.StringWithoutRoomRaisesDstFull := by
  intro s c w hdue hfull
  obtain ⟨f, hstep⟩ := enabledStep_of_stringIsDue hdue
  obtain ⟨⟨hb, -, -, hr, -⟩, -⟩ := hdue
  rw [putString_full (s := { s with inPos := s.inPos + 2 }) hfull, Res.bind_raise] at hstep
  exact engineStep_raises hb hstep hr

/-- Settles O38: both steps complete with success, the tail step after a symbol read that moves IN_POS to SRC_LEN. -/
theorem decodeEndsWithTailOrEnd : Obligations.DecodeEndsWithTailOrEnd := by
  intro s hb hm hr
  refine ⟨fun hend => ?_, fun hone ha hf hu => ?_⟩
  · rw [engineStep_busy hb, enabledStep_decode_end hm hend, decEndStep, completeOk_clean hr, finish]
  · have hread := readSymbol_known (Nat.lt_of_lt_of_le (by omega) ha) hf (by rw [hr]; rfl) hu
    have hpos : s.inPos + 1 = s.srcLen := by
      refine BitVec.eq_of_toNat_eq ?_
      rw [toNat_succ (hone ▸ s.srcLen.isLt) (by decide), hone]
    rw [engineStep_busy hb, enabledStep_decode_tail hm hone, decTailStep, hread, Res.bind_ok,
      completeOk_clean (s := { s with inPos := s.inPos + 1 }) hr, finish, hpos]

end Sys2Proof.Machine
end

section
/-! The ceiling toggle (42_decoder.md R187, R192, R193): entries above 4096, which only DEC_CEIL = 0 makes, are read by codes above
4096 only. -/

namespace Sys2Proof.Machine

/-- The variables of the reconstruction without the entries above ENC_MAX_CODE. -/
def DecVars.capped (v : DecVars) : DecVars := { v with learned := v.learned.take encEntries }

/-- With DEC_CEIL = 1 an entry is allowed where capping leaves room for it (R187). -/
theorem addOkD_capped (n : Nat) :
    addOkD true (Config.seedCount + min encEntries n) = true ↔ Config.seedCount + n ≤ Config.maxTableSize := by
  have hmax := seedCount_add_encEntries
  simp only [addOkD, if_true, decide_eq_true_iff]
  omega

/-- Whatever the toggle, a code up to ENC_MAX_CODE resolves by the entries up to ENC_MAX_CODE (R184 to R186). -/
theorem decLookup_capped (decCeil : Bool) (v : DecVars) {c : Nat} (hc : c ≤ Config.encMaxCode) :
    decLookup true v.capped c = decLookup decCeil v c := by
  have hmax := seedCount_add_encEntries
  have hspecial : (c = Config.seedCount + min encEntries v.learned.length ∧
        addOkD true (Config.seedCount + min encEntries v.learned.length) = true) ↔
      (c = Config.seedCount + v.learned.length ∧ addOkD decCeil (Config.seedCount + v.learned.length) = true) := by
    rw [addOkD_capped]
    constructor
    · rintro ⟨he, hle⟩
      exact ⟨by omega, addOkD_of_le decCeil hle⟩
    · rintro ⟨he, -⟩
      omega
  unfold decLookup DecVars.capped
  dsimp only
  by_cases hs : v.string = []
  · rw [if_pos hs, if_pos hs]
  · rw [if_neg hs, if_neg hs]
    by_cases hseed : c < Config.seedCount
    · rw [if_pos hseed, if_pos hseed]
    · rw [if_neg hseed, if_neg hseed, List.getElem?_take_of_lt (by omega), List.length_take]
      simp only [hspecial]

/-- Whatever the toggle, the entries up to ENC_MAX_CODE grow as with DEC_CEIL = 1 (R187). -/
theorem decAppend_capped (decCeil : Bool) (v : DecVars) (t : List Byte) :
    decAppend true v.capped t = (decAppend decCeil v t).capped := by
  have hmax := seedCount_add_encEntries
  have hlearned : (decAppend true v.capped t).learned = (decAppend decCeil v t).learned.take encEntries := by
    rw [decAppend_learned, encLearned, nextLearned]
    unfold decAppend DecVars.capped
    dsimp only
    rw [List.length_take]
    by_cases hs : v.string = []
    · rw [if_neg fun h => h.1 hs, if_pos hs]
    · by_cases hle : Config.seedCount + v.learned.length ≤ Config.maxTableSize
      · have hroom : (v.learned ++ [v.string ++ t.take 1]).length ≤ encEntries := by
          rw [List.length_append, List.length_singleton]
          omega
        rw [if_pos ⟨hs, (addOkD_capped _).2 hle⟩, if_neg hs, List.take_of_length_le hroom, List.take_of_length_le (by omega)]
      · rw [if_neg fun h => hle ((addOkD_capped _).1 h.2), if_neg hs, List.take_append_of_le_length (by omega)]
  exact congrArg (fun l => (⟨t, l, v.out ++ t, v.count + 1⟩ : DecVars)) hlearned

/-- Over codes up to ENC_MAX_CODE every scan is the capped one with DEC_CEIL = 1 (R192, R193). -/
theorem decScan_capped (decCeil : Bool) {cs : List Nat} (h : ∀ c ∈ cs, c ≤ Config.encMaxCode) (v : DecVars) :
    decScan true cs v.capped = ((decScan decCeil cs v).1.capped, (decScan decCeil cs v).2) := by
  induction cs generalizing v with
  | nil => rfl
  | cons c cs ih =>
    obtain ⟨hc, hcs⟩ := List.forall_mem_cons.1 h
    rw [decScan, decScan, decLookup_capped decCeil v hc]
    cases decLookup decCeil v c with
    | ok t =>
      dsimp only
      rw [decAppend_capped decCeil, ih hcs]
    | error k => rfl

/-- Over codes up to ENC_MAX_CODE the result is that of DEC_CEIL = 1. -/
theorem decodeCodes_eq_ceiling (decCeil : Bool) {cs : List Nat} (h : ∀ c ∈ cs, c ≤ Config.encMaxCode) :
    decodeCodes true cs = decodeCodes decCeil cs := by
  have hscan : decScan true cs decVars0 = _ := decScan_capped decCeil h decVars0
  rw [decodeCodes, decodeCodes, hscan]
  obtain ⟨v, e⟩ := decScan decCeil cs decVars0
  cases e <;> rfl

/-- Settles O57: with either toggle the result is that of the entries up to 4096. -/
theorem ceilingToggleMattersOnlyAbove4096 : Obligations.CeilingToggleMattersOnlyAbove4096 :=
  fun _ h => decodeCodes_eq_ceiling false h

end Sys2Proof.Machine
end

section
/-! Reports of exceptions and of completion: ERRCODE as a number (60_exceptions.md R211, R212), and the IRQ line as DONE is set,
cleared and masked (R222, R223; 10_state.md R46). -/

namespace Sys2Proof.Machine

/-! ### ERRCODE -/

/-- CAUSE fills the low eight bits, so CLASS counts 256s (R29, R212). -/
theorem errCodeWord_toNat (c : Cause) : (errCodeWord c).toNat = c.cls.toNat * 256 + c.code.toNat := by
  rw [errCodeWord, BitVec.zeroExtend, BitVec.toNat_setWidth_of_le (by decide)]
  exact toNat_append_eq c.cls c.code

/-! ### The line -/

section
variable {s : State}

/-- While DONE = 1 the mask alone decides (R223). -/
theorem irq_of_done (h : s.done = true) : irq s = s.irqEn := by rw [irq, h, Bool.and_true]

theorem irq_of_not_done (h : s.done = false) : irq s = false := by rw [irq, h, Bool.and_false]

/-- A STATUS write with bit 1 set drops the line, whatever the mask (R28, R223). -/
theorem irq_statusClear {w : Word} (hw : w.getLsbD 1 = true) : irq (statusClear w s) = false :=
  irq_of_not_done (by rw [statusClear_done, hw, Bool.not_true, Bool.and_false])

/-- A CTRL write does not reach DONE; the line follows the new mask while idle, and stays while BUSY = 1 (R35, R223). -/
theorem step_writes_ctrl_irq {w : Word} {ts : List Turn} (ht : s.turns = .write 32 (regAddr s.platform .ctrl) w :: ts) :
    ∃ t, step s = .next t ∧ t.done = s.done ∧
      (s.busy = false → irq t = (w.getLsbD 1 && s.done)) ∧ (s.busy = true → t.irqEn = s.irqEn ∧ irq t = irq s) := by
  obtain ⟨ignored, taken, -⟩ := configurationIsFrozenWhileBusy
  cases hb : s.busy with
  | true => exact ⟨_, ignored s .ctrl w ts hb (.inl rfl) ht, rfl, nofun, fun _ => ⟨rfl, rfl⟩⟩
  | false => exact ⟨_, (taken s w ts hb).1 ht, rfl, fun _ => rfl, nofun⟩

end

/-! ### The statements -/

/-- Settles O21: CLASS stands above the eight bits of CAUSE, and each of the nine causes has its own two numbers. -/
theorem errcodeIsClassAndCause : Obligations.ErrcodeIsClassAndCause := ⟨fun s => errCodeWord_toNat s.cause, by decide⟩

/-- Settles O25: the line is DONE under the mask IRQ_EN, and each clause is a write of one of the two bits. -/
theorem interruptLineFollowsEnableAndDone : Obligations.InterruptLineFollowsEnableAndDone := by
  refine ⟨irq_of_not_done rfl, fun s w ts ht => step_writes_ctrl_irq ht, fun s w ts ht hw => ?_, fun s hb hr hd => ?_,
    fun c i s => ⟨irq_of_done rfl, irq_of_done rfl, irq_of_done rfl⟩⟩
  · exact ⟨_, step_writes_reg ht, irq_statusClear hw⟩
  · obtain ⟨hencode, hdecode⟩ := launchIsAccepted s hb hr hd
    exact ⟨⟨_, hencode, irq_of_not_done rfl⟩, ⟨_, hdecode, irq_of_not_done rfl⟩⟩

end Sys2Proof.Machine
end

section
/-! Reset (70_reset_and_hazards.md R241, R243): what the registers then read, and what an abandoned operation leaves in memory. The
reset turn is off the list when it is taken, so that the engine's move does not see what is pending has to be said first (log 1). -/

namespace Sys2Proof.Machine

/-! ### The engine's move does not see the turns to come -/

/-- The same end of a step, with other turns to come. -/
def Res.withTurns {α : Type} (ts : List Turn) : Res α → Res α
  | .ok v s => .ok v { s with turns := ts }
  | .raise c i s => .raise c i { s with turns := ts }
  | .stuck x => .stuck x

theorem Res.bind_withTurns {α β : Type} {ts : List Turn} {f : α → State → Res β}
    (hf : ∀ v s, f v { s with turns := ts } = (f v s).withTurns ts) (r : Res α) :
    (r.withTurns ts).bind f = (r.bind f).withTurns ts := by
  cases r with
  | ok v s => exact hf v s
  | raise c i s => rfl
  | stuck x => rfl

section
variable (ts : List Turn) (s : State)

theorem memRead_withTurns (a : Nat) (i : Word) : memRead a i { s with turns := ts } = (memRead a i s).withTurns ts := by
  unfold memRead
  split
  · rfl
  · split
    · rfl
    · split <;> rfl

theorem memWrite_withTurns (a : Nat) (i : Word) (v : Byte) :
    memWrite a i v { s with turns := ts } = (memWrite a i v s).withTurns ts := by
  unfold memWrite
  split
  · rfl
  · split <;> rfl

theorem putBytes_withTurns (bs : List Byte) : putBytes bs { s with turns := ts } = (putBytes bs s).withTurns ts := by
  induction bs generalizing s with
  | nil => rfl
  | cons b bs ih =>
    rw [putBytes, memWrite_withTurns]
    exact Res.bind_withTurns (fun _ t => ih { t with outLen := t.outLen + 1 }) _

theorem readSymbol_withTurns : readSymbol { s with turns := ts } = (readSymbol s).withTurns ts := by
  rw [readSymbol, memRead_withTurns]
  exact Res.bind_withTurns (fun _ _ => rfl) _

theorem readCode_withTurns : readCode { s with turns := ts } = (readCode s).withTurns ts := by
  rw [readCode, readSymbol_withTurns]
  refine Res.bind_withTurns (fun hi t => ?_) _
  rw [readSymbol_withTurns]
  exact Res.bind_withTurns (fun _ _ => rfl) _

theorem emitCode_withTurns (c : Nat) : emitCode c { s with turns := ts } = (emitCode c s).withTurns ts := by
  unfold emitCode
  split
  · rfl
  · rw [putBytes_withTurns]
    exact Res.bind_withTurns (fun _ _ => rfl) _

theorem enterE_withTurns (p : Nat) (b : Byte) : enterE p b { s with turns := ts } = { enterE p b s with turns := ts } := by
  unfold enterE
  split <;> rfl

theorem encSymbol_withTurns (b : Byte) : encSymbol b { s with turns := ts } = (encSymbol b s).withTurns ts := by
  unfold encSymbol
  dsimp only
  split
  · rfl
  · split
    · rfl
    · rw [emitCode_withTurns]
      exact Res.bind_withTurns (fun _ t => by rw [enterE_withTurns]; rfl) _

theorem encFlushStep_withTurns : encFlushStep { s with turns := ts } = (encFlushStep s).withTurns ts := by
  unfold encFlushStep
  dsimp only
  split
  · rfl
  · rw [emitCode_withTurns]
    exact Res.bind_withTurns (fun _ _ => rfl) _

theorem putString_withTurns (bs : List Byte) : putString bs { s with turns := ts } = (putString bs s).withTurns ts := by
  unfold putString
  split
  · rfl
  · exact putBytes_withTurns ts s bs

theorem enterD_withTurns (b : Byte) : enterD b { s with turns := ts } = { enterD b s with turns := ts } := by
  unfold enterD
  dsimp only
  split
  · rfl
  · split <;> rfl

theorem decCode_withTurns (c : Nat) : decCode c { s with turns := ts } = (decCode c s).withTurns ts := by
  have hr : resolve c { s with turns := ts } = resolve c s := rfl
  unfold decCode
  rw [hr]
  split
  · rfl
  · rfl
  · rw [putString_withTurns]
    exact Res.bind_withTurns (fun _ t => by rw [enterD_withTurns]; rfl) _

theorem enabledStep_withTurns : enabledStep { s with turns := ts } = (enabledStep s).withTurns ts := by
  unfold enabledStep
  dsimp only
  split
  · split
    · rw [encSymbolStep, readSymbol_withTurns]
      exact Res.bind_withTurns (fun b t => encSymbol_withTurns ts t b) _
    · exact encFlushStep_withTurns ts s
  · split
    · rw [decCodeStep, readCode_withTurns]
      exact Res.bind_withTurns (fun c t => decCode_withTurns ts t c) _
    · split
      · rw [decTailStep, readSymbol_withTurns]
        exact Res.bind_withTurns (fun _ _ => rfl) _
      · rfl

end

section
variable {s u : State}

/-- The engine moves alike whatever is pending. -/
theorem engineStep_withTurns (ts : List Turn) (h : engineStep s = .next u) :
    engineStep { s with turns := ts } = .next { u with turns := ts } := by
  rcases Bool.eq_false_or_eq_true s.busy with hb | hb
  · rw [engineStep_busy hb] at h
    rw [engineStep_busy (s := { s with turns := ts }) hb, enabledStep_withTurns]
    rcases finish_next h with ⟨v, hr⟩ | ⟨c, i, t, hr, rfl⟩ <;> rw [hr] <;> rfl
  · rw [engineStep_idle hb] at h
    cases h
    exact engineStep_idle hb

/-! ### The bytes of a step cut off -/

/-- Where the engine's move answers, its step ended in a state with the same memory and OUT_LEN: a completion changes neither. -/
theorem enabledStep_last_of_next (hb : s.busy = true) (h : engineStep s = .next u) :
    ∃ t, (enabledStep s).last = some t ∧ t.mem = u.mem ∧ t.outLen = u.outLen := by
  rw [engineStep_busy hb] at h
  rcases finish_next h with ⟨v, hr⟩ | ⟨c, i, t, hr, rfl⟩
  · exact ⟨u, by rw [hr]; rfl, rfl, rfl⟩
  · exact ⟨t, by rw [hr]; rfl, rfl, rfl⟩

theorem stepBytes_getElem? (s t : State) (i : Nat) :
    (stepBytes s t)[i]? = if i < t.outLen.toNat - s.outLen.toNat then
      some (Memory.read t.mem (s.dstAddr.toNat + s.outLen.toNat + i)) else none := by
  rw [stepBytes, List.getElem?_map]
  split
  · rename_i hi
    rw [List.getElem?_range hi]
    rfl
  · rename_i hi
    rw [List.getElem?_eq_none (by rw [List.length_range]; omega)]
    rfl

/-- Of the next `cut` destination bytes, those that the engine's move would write stand as it would leave them (I8; log 17). -/
theorem read_cutStep {cut i : Nat} (hb : s.busy = true) (h : engineStep s = .next u) (hi : i < cut) :
    Memory.read (cutStep cut s).mem (s.dstAddr.toNat + s.outLen.toNat + i) =
      if i < u.outLen.toNat - s.outLen.toNat then Memory.read u.mem (s.dstAddr.toNat + s.outLen.toNat + i)
      else Memory.read s.mem (s.dstAddr.toNat + s.outLen.toNat + i) := by
  obtain ⟨t, ht, hm, hl⟩ := enabledStep_last_of_next hb h
  unfold cutStep
  rw [if_pos hb, ht]
  dsimp only
  rw [read_busStores, if_pos (Nat.le_add_right _ i), Nat.add_sub_cancel_left, List.getElem?_take_of_lt hi,
    stepBytes_getElem?, hm, hl]
  split <;> rfl

/-! ### The reset turn -/

theorem step_resets {cut : Nat} {ts : List Turn} (ht : s.turns = .reset cut :: ts) :
    step s = .next (resetBlock (cutStep cut { s with turns := ts })) := step_turn ht

theorem cutStep_keeps (cut : Nat) (s : State) :
    (cutStep cut s).races = s.races ∧ (cutStep cut s).platform = s.platform ∧ (cutStep cut s).turns = s.turns := by
  rw [cutStep_frame]
  exact ⟨rfl, rfl, rfl⟩

theorem knownByte_resetBlock (hr : s.races = []) (a : Nat) : knownByte (resetBlock s) a = knownByte s a :=
  knownByte_congr (by rw [resetBlock_unspec, hr]; rfl) (resetBlock_mem s) a

/-- No register reads anything that reset keeps (R241). -/
theorem readReg_resetBlock (r : RegName) (s : State) : readReg r (resetBlock s) = readReg r State.reset := by
  cases r <;> rfl

theorem readReg_reset (r : RegName) : readReg r State.reset = if r = .id then 0x0001020C else 0 := by
  cases r <;> decide

end

/-! ### The statements -/

/-- Settles O5: a reset turn leaves `resetBlock` of some state, which no register tells from the state after reset. -/
theorem resetSetsEveryRegister : Obligations.ResetSetsEveryRegister :=
  ⟨readReg_reset, rfl, fun _ _ _ ht =>
    ⟨_, step_resets ht, fun r => readReg_resetBlock r _, irq_of_not_done rfl⟩⟩

/-- Settles O6: reset keeps the memory of the step cut off, whose bytes are those of the engine's move. -/
theorem resetAbandonsTheOperation : Obligations.ResetAbandonsTheOperation := by
  intro s cut ts hb ht
  obtain ⟨hraces, hplatform, hturns⟩ := cutStep_keeps cut { s with turns := ts }
  refine ⟨_, step_resets ht, rfl, rfl, irq_of_not_done rfl, fun a ha => ?_, fun u i hu hi => ?_, rfl, rfl, rfl, rfl,
    hplatform, hturns⟩
  · obtain ⟨hread, hknown⟩ := cutStep_outside cut { s with turns := ts } a ha
    exact ⟨hread, fun hr => (knownByte_resetBlock (hraces.trans hr) a).trans hknown⟩
  · exact read_cutStep (s := { s with turns := ts }) (u := { u with turns := ts }) hb (engineStep_withTurns ts hu) hi

end Sys2Proof.Machine
end
